-- ==== Sys2Proof/Word.lean ====
section
/-! DEFINITION. The widths of the block (spec/00_scope.md R12): a byte is 8 bits, a unit is 16 bits; a `Bit` is 0 or 1
and a list of them is in air order, index 0 first (R13). -/

namespace Sys2Proof

/-- R12: a byte is 8 bits. -/
abbrev Byte := BitVec 8

/-- R12, R110: a unit is 16 bits and holds one payload byte and its parity bit. -/
abbrev Unit16 := BitVec 16

/-- R13: `Bit` is 0 or 1. A frame on the air is a `List Bit`, index 0 sent or received first. -/
abbrev Bit := Bool

end Sys2Proof
end

