-- ==== Sys2Proof/Config.lean ====
section
/-! DEFINITION. What an implementation fixes and what the spec leaves free. `Params` is the list of parameters of
spec/00_scope.md R10; the constants without a body are the parameters that R10 and 92_eei_decisions.md leave OPEN and the
environment's free values. Nothing can be proved about the value of a constant without a body, so a claim holds whatever it
is (log entries 4 and 12). -/

namespace Sys2Proof

/-- R295: `IrqCause`, the result of `IRQ_WAIT`. -/
inductive IrqCause where
  | timeout | txComplete | rxComplete | fifoHigh | fifoLow | protocolError | collision | fieldChange
deriving DecidableEq, Repr, Inhabited

/-- R162, R245: the kind of an exchange. -/
inductive ExchKind where
  | short | anticol | standard
deriving DecidableEq, Repr, Inhabited

/-- R10: `MILLER_RULE`. -/
inductive MillerRule where
  | source | iso
deriving DecidableEq, Repr, Inhabited

/-- R182: what `DM_ENTER_SEQ` answers: register writes, then the address and the data bytes of the continuous write that is
left open. -/
structure DmEntry where
  pre : List (BitVec 5 × Byte)
  addr : BitVec 5
  data : List Byte
deriving DecidableEq, Repr, Inhabited

/-- The parameters of R10, fixed when the block is built (R11). No part of State. -/
structure Params where
  /-- `RX_IGNORE`, 5 or 6. -/
  rxIgnore : Nat
  /-- `RX_START_TIMEOUT`, eighth-bit periods, positive. -/
  rxStartTimeout : Nat
  /-- `RX_MAX_SAMPLES`, at least `16 + 8 (cap + 2)`; it may depend on the capacity (log entry 14). -/
  rxMaxSamples : Nat → Nat
  millerRule : MillerRule
  txSof : Bool
  /-- `FIFO_REFILL`, 1..127. -/
  fifoRefill : Nat
  /-- `FIFO_MIRROR_CAP`, bytes, positive. -/
  fifoMirrorCap : Nat
  tTxMs : BitVec 16
  tRxMs : BitVec 16
  rfReqa : BitVec 7
  rfWupa : BitVec 7
  /-- `RF_SEL[1..3]`. -/
  rfSel : Nat → Byte
  rfHlta : List Byte
  /-- R40: no rule but the host's own accesses uses it; likewise the modulator control, the IRQ mask and the RSSI. -/
  regChipStatus : BitVec 5
  regIsoControl : BitVec 5
  regModulator : BitVec 5
  regIrqStatus : BitVec 5
  regIrqMask : BitVec 5
  regCollPos : BitVec 5
  regRssi : BitVec 5
  regFifoStatus : BitVec 5
  cmdSoftInit : BitVec 5
  cmdResetFifo : BitVec 5
  cmdTxNocrc : BitVec 5
  cmdTxCrc : BitVec 5
  isoctlARxCrc : Byte
  isoctlANoRxCrc : Byte
  irqClassify : Byte → IrqCause
  collPosDecode : ExchKind → Byte → Nat
  rxUnpack : ExchKind → Nat → List Byte → List Bit
  /-- `RxDecode`: the bits in the samples from the first active one on. -/
  rxDecode : List Bit → List Bit
  dmEnterSeq : Byte → DmEntry
  iso14443aRegInit : List (BitVec 5 × Byte)

/-- The ranges R10 states for the parameters. -/
structure Params.InRange (P : Params) : Prop where
  rxIgnore : P.rxIgnore = 5 ∨ P.rxIgnore = 6
  rxStartTimeout : 0 < P.rxStartTimeout
  rxMaxSamples : ∀ cap, 16 + 8 * (cap + 2) ≤ P.rxMaxSamples cap
  fifoRefill : 1 ≤ P.fifoRefill ∧ P.fifoRefill ≤ 127
  fifoMirrorCap : 0 < P.fifoMirrorCap

namespace Config

/-- `RX_IGNORE` is 6 when this is true, else 5 (D26, OPEN). -/
opaque rxIgnoreIsSix : Bool
/-- `RX_START_TIMEOUT` less 1 (D26, OPEN). -/
opaque rxStartTimeoutPred : Nat
/-- `RX_MAX_SAMPLES` less the bound R201 states, for each capacity (D27, OPEN). -/
opaque rxMaxSamplesSlack : Nat → Nat
/-- `FIFO_REFILL` less 1 (D13, OPEN). -/
opaque fifoRefillPred : Fin 127
/-- `FIFO_MIRROR_CAP` less 1 (D16, OPEN). -/
opaque fifoMirrorCapPred : Nat
/-- `T_TX_MS` (D43, OPEN). -/
opaque tTxMs : BitVec 16
/-- `T_RX_MS` (D43, OPEN). -/
opaque tRxMs : BitVec 16
/-- `IrqClassify` (D15, OPEN). -/
opaque irqClassify : Byte → IrqCause
/-- `CollPosDecode` (D46, OPEN). -/
opaque collPosDecode : ExchKind → Byte → Nat
/-- `DM_ENTER_SEQ` (D17, OPEN). -/
opaque dmEnterSeq : Byte → DmEntry
/-- `ISO14443A_REG_INIT` (D18, OPEN). -/
opaque iso14443aRegInit : List (BitVec 5 × Byte)

/-- A byte the environment answers when no script gives it (U10), and a ring cell after an overflow (U3). -/
opaque freeByte : Nat → Byte
/-- A sample of the RX pin when no script gives it (U10). -/
opaque freeSample : Nat → Bit
/-- Whether an edge is presented when no script says it (U6, R157). -/
opaque freeEdge : Nat → Bool
/-- An index or a count of the ring after an overflow (U3). -/
opaque freeNat : Nat → Nat
/-- What a ring cell that nothing has written holds (U4). -/
opaque unwrittenCell : Nat → Byte

end Config

end Sys2Proof
end

