-- ==== Sys2Proof/Machine/Bits.lean ====
section
/-! DEFINITION. The bit lists of spec/00_scope.md R13 and the byte order of R66: helpers of the encodings and of the frames. -/

namespace Sys2Proof.Machine

/-- R13: `bitsN(v, n)` is `[v[0], ..., v[n-1]]`. -/
def bitsN (w : Nat) (v : BitVec w) (n : Nat) : List Bit :=
  (List.range n).map v.getLsbD

/-- R13: `bits8(b)`, least significant bit first. -/
def bits8 (b : Byte) : List Bit := bitsN 8 b 8

/-- The number whose binary digits, least significant first, are the list. -/
def bitsToNat : List Bit → Nat
  | [] => 0
  | b :: bs => b.toNat + 2 * bitsToNat bs

/-- R13: `byte(l)`, with `byte(l)[i] = l[i]`; a shorter list leaves the high bits 0. -/
def byteOfBits (l : List Bit) : Byte := BitVec.ofNat 8 (bitsToNat l)

/-- The list cut into pieces of `u` bits, the last one shorter when `u` does not divide the length. -/
def chunks (u : Nat) (l : List Bit) : List (List Bit) :=
  (List.range ((l.length + u - 1) / u)).map fun i => (l.drop (u * i)).take u

/-- R13: `PackLsb(l)`, eight bits a byte, first bit into bit 0, the last partial byte's unused high bits 0. -/
def packLsb (l : List Bit) : List Byte := (chunks 8 l).map byteOfBits

/-- R66(b): a 16-bit value as two bytes, low byte first. -/
def u16Bytes (v : BitVec 16) : List Byte := [v.setWidth 8, (v >>> 8).setWidth 8]

/-- R66(b): the 16-bit value of two bytes, low byte first. -/
def u16Of (lo hi : Byte) : BitVec 16 := (hi.setWidth 16 <<< 8) ||| lo.setWidth 16

/-- R101: `units(n)`, each unit low byte first. -/
def unitsBytes : List Unit16 → List Byte
  | [] => []
  | u :: us => u16Bytes u ++ unitsBytes us

/-- The units of a byte string; none when the number of bytes is odd. -/
def unitsOf : List Byte → Option (List Unit16)
  | [] => some []
  | [_] => none
  | lo :: hi :: rest => (unitsOf rest).map (u16Of lo hi :: ·)

end Sys2Proof.Machine
end

