-- ==== Sys2Proof/Machine/Constants.lean ====
section
/-! DEFINITION. The numbers the spec fixes (spec/00_scope.md R9) and the defaults it gives for parameters a model may keep
(R10; 30_encoding.md R98, R106, R113, R114; 10_state.md R40; 40_seq.md R162). The defaults are PRESUMED (log entry 13). -/

namespace Sys2Proof.Machine

/-- R9: `FIFO_SPLIT`, the largest FIFO write done in one piece. -/
def fifoSplit : Nat := 127
/-- R9: `RX_SILENCE`, eighth-bit periods of silence that end a receive. -/
def rxSilence : Nat := 16
/-- R9: `LEVEL_BITS`, resolved bits per cascade level. -/
def levelBits : Nat := 40
/-- R9: `MAX_CASCADE`. -/
def maxCascade : Nat := 3
/-- R9: `REG_FIFO`. -/
def regFifo : BitVec 5 := 0x1F
/-- R9: `REG_TXLEN1`, the first of the two; the second is the next address. -/
def regTxLen1 : BitVec 5 := 0x1D
/-- R9: `NVB_FULL`. -/
def nvbFull : Byte := 0x70
/-- R9: `CASCADE_TAG`. -/
def cascadeTag : Byte := 0x88
/-- R9: `CRC_POLY`. -/
def crcPoly : BitVec 16 := 0x8408
/-- R9: `CRC_SEED`. -/
def crcSeed : BitVec 16 := 0x6363
/-- R9: `ATQA_ANTICOL_MASK`. -/
def atqaAnticolMask : Byte := 0x1F
/-- R9: `REQA_BITS`. -/
def reqaBits : Nat := 7

/-- R106: default of `RF_REQA`. PRESUMED. -/
def rfReqaCode : BitVec 7 := 0x26
/-- R106: default of `RF_WUPA`. PRESUMED. -/
def rfWupaCode : BitVec 7 := 0x52
/-- R113: defaults of `RF_SEL[1]`, `RF_SEL[2]`, `RF_SEL[3]`. PRESUMED. -/
def rfSelCode : Nat → Byte
  | 1 => 0x93
  | 2 => 0x95
  | _ => 0x97
/-- R114: default of `RF_HLTA`. PRESUMED. -/
def rfHltaBytes : List Byte := [0x50, 0x00]

/-- R98: default codes of the four direct commands. PRESUMED. -/
def cmdSoftInitCode : BitVec 5 := 0x03
/-- R98: default code of `CMD_RESET_FIFO`. PRESUMED. -/
def cmdResetFifoCode : BitVec 5 := 0x0F
/-- R98: default code of `CMD_TX_NOCRC`. PRESUMED. -/
def cmdTxNocrcCode : BitVec 5 := 0x10
/-- R98: default code of `CMD_TX_CRC`. PRESUMED. -/
def cmdTxCrcCode : BitVec 5 := 0x11

/-- R40: default address of the chip status and control register. PRESUMED. -/
def regChipStatusAddr : BitVec 5 := 0x00
/-- R40: default address of the ISO control register. PRESUMED. -/
def regIsoControlAddr : BitVec 5 := 0x01
/-- R40: default address of the modulator control register. PRESUMED. -/
def regModulatorAddr : BitVec 5 := 0x09
/-- R40: default address of the IRQ status register. PRESUMED. -/
def regIrqStatusAddr : BitVec 5 := 0x0C
/-- R40: default address of the IRQ mask register. PRESUMED. -/
def regIrqMaskAddr : BitVec 5 := 0x0D
/-- R40: default address of the collision position register. PRESUMED. -/
def regCollPosAddr : BitVec 5 := 0x0E
/-- R40: default address of the RSSI register. PRESUMED. -/
def regRssiAddr : BitVec 5 := 0x0F
/-- R40: default address of the FIFO status register. PRESUMED. -/
def regFifoStatusAddr : BitVec 5 := 0x1C

/-- R162: default of `ISOCTL_A_RXCRC`. PRESUMED. -/
def isoctlARxCrcByte : Byte := 0x08
/-- R162: default of `ISOCTL_A_NORXCRC`. PRESUMED. -/
def isoctlANoRxCrcByte : Byte := 0x88

end Sys2Proof.Machine
end

