-- ==== Sys2Proof/Syntax.lean ====
section
/-! DEFINITION. The instructions: one constructor per row of spec/opcode_table.json, in the table's order.
The first 22 are the host operations of spec/30_encoding.md R100 with the operands of R101; the next 9 the SPI forms of R93
and the named direct commands of R98; the next 9 the RF frames of R106 to R114; the last 3 the modulation sequences of R115.
How the rows of the last three formats come to be instructions is log entry 1. -/

namespace Sys2Proof

/-- One row of spec/opcode_table.json each. Operands are as the encoding carries them, so an operand outside the range its
rule states can be written down; what is done with it is the meaning's affair (R103, R293). -/
inductive Instr where
  -- SEQ, host opcodes 0x10 to 0x18
  | csAssert
  | csDeassert
  | writeReg (addr val : Byte)
  | readReg (addr : Byte)
  | writeCont (addr n : Byte) (data : List Byte)
  | readCont (addr n : Byte)
  | directCmd (code : Byte)
  | fifoWrite (n : BitVec 16) (data : List Byte)
  | irqWait (timeoutMs : BitVec 16)
  -- PHY, host opcodes 0x20 to 0x22
  | dmEnable (mode : Byte)
  | dmDisable
  /-- `send` holds the elements as units; in OPAQUE mode an element is a byte with a zero high byte (log entry 26). -/
  | dmTransceive (mode : Byte) (sendBytes : BitVec 16) (sendBits : Byte) (recvBytes : BitVec 16) (recvBits : Byte)
      (send : List Unit16)
  -- UTL, host opcodes 0x30 to 0x33
  | setParity (n : BitVec 16) (buf : List Unit16)
  | checkParity (n : BitVec 16) (buf : List Unit16)
  | appendCrc (n : BitVec 16) (buf : List Unit16)
  | checkCrc (n : BitVec 16) (buf : List Unit16)
  -- ACE, host opcodes 0x40 to 0x45
  | reqa (cmd : Byte)
  | doAnticol
  | selectFirst (cmd : Byte)
  | selectNext (cmd : Byte)
  | select (uidLen : Byte) (uid : List Byte)
  | halt
  -- the five SPI forms of R93: the command byte's low five bits, then the data bytes out or their count in
  | spiWriteSingle (a : BitVec 5) (val : Byte)
  | spiWriteCont (a : BitVec 5) (data : List Byte)
  | spiReadSingle (a : BitVec 5)
  | spiReadCont (a : BitVec 5) (n : Byte)
  | spiDirectCmd (c : BitVec 5)
  -- the four named direct commands of R98
  | cmdSoftInit
  | cmdResetFifo
  | cmdTxNocrc
  | cmdTxCrc
  -- the RF frames of R106 to R114; a frame is written without parity and CRC, which the transport adds (R245)
  | rfReqa
  | rfWupa
  | rfAnticollisionCl1 (nvb : Byte) (known : List Bit)
  | rfAnticollisionCl2 (nvb : Byte) (known : List Bit)
  | rfAnticollisionCl3 (nvb : Byte) (known : List Bit)
  | rfSelectCl1 (level : List Byte)
  | rfSelectCl2 (level : List Byte)
  | rfSelectCl3 (level : List Byte)
  | rfHlta
  -- the modulation sequences of R115
  | seqX
  | seqY
  | seqZ
deriving DecidableEq, Repr

/-- The 22 host operations of R100, by name. -/
inductive HostOp where
  | csAssert | csDeassert | writeReg | readReg | writeCont | readCont | directCmd | fifoWrite | irqWait
  | dmEnable | dmDisable | dmTransceive
  | setParity | checkParity | appendCrc | checkCrc
  | reqa | doAnticol | selectFirst | selectNext | select | halt
deriving DecidableEq, Repr

/-- One encoded instruction, in the format its table row has: a host command `[opcode] ++ operands` (R99); an SPI transaction,
the bytes shifted out and the number of bytes shifted in (R90, R93); an RF frame as handed to the transport, without parity
and CRC (R245); the four slots of a modulation sequence, `q0` first (R115). -/
inductive CodeWord where
  | host (bytes : List Byte)
  | spi (out : List Byte) (nin : Byte)
  | rf (bits : List Bit)
  | mod (slots : List Bit)
deriving DecidableEq, Repr

/-- Why a code word is no instruction. `illegalOp` and `badOperand` are the host layer's refusals (R103); the other three are
the encodings of the SPI, RF and MOD formats that the spec gives no instruction. -/
inductive DecodeError where
  /-- R103: the opcode byte is not in R100 (or there is none, log entry 21). -/
  | illegalOp
  /-- R103: too few or too many operand bytes for the opcode and its counts. -/
  | badOperand (op : HostOp)
  /-- R94: a command byte with `C` = 1 and `R` or `N` set, or a transaction whose bytes do not fit its form (R93). -/
  | reservedSpi
  /-- No frame of R106 to R114. -/
  | unknownFrame
  /-- No sequence of R115. -/
  | unknownSequence
deriving DecidableEq, Repr

end Sys2Proof
end

