-- ==== Sys2Proof/Machine/Operands.lean ====
section
/-! DEFINITION. The operand forms: the range each rule states for its operands (a `BAD_OPERAND` refusal outside it, R103,
R293), the bytes of the SPI command (R93), the wire values of the exchange and of the anti-collision frames (R97, R109, R112),
and the parameters as this model sets them. -/

namespace Sys2Proof.Machine

/-- R109: `NVB(k) = ((2 + k div 8) << 4) or (k mod 8)`. -/
def nvb (k : Nat) : Byte := (BitVec.ofNat 8 (2 + k / 8) <<< 4) ||| BitVec.ofNat 8 (k % 8)

/-! ### Ranges -/

/-- R144, R146: a register address is 0..0x1F. -/
def okAddr (addr : Byte) : Bool := addr ≤ 0x1F#8

/-- R68, R148, R150: a continuous access of `n` bytes at `addr`: at least one byte, and not past 0x1F unless it starts
there. -/
def okContSpan (addr n : Nat) : Bool :=
  decide (1 ≤ n) && (decide (addr = 0x1F) || decide (addr + n - 1 ≤ 0x1F))

/-- R148, R150: `addr` 0..0x1F, `n` 1..255, the span inside the register space. -/
def okCont (addr n : Byte) : Bool := okAddr addr && okContSpan addr.toNat n.toNat

/-- R148: and `data` of `n` bytes. -/
def okWriteCont (addr n : Byte) (data : List Byte) : Bool := decide (data.length = n.toNat) && okCont addr n

/-- R154: `data` of `n` bytes. -/
def okFifoWrite (n : BitVec 16) (data : List Byte) : Bool := decide (data.length = n.toNat)

/-- R152: `code` 0..0x1F. -/
def okCode (code : Byte) : Bool := code ≤ 0x1F#8

/-- R101: the number of elements of `send`. -/
def sendElems (sendBytes : BitVec 16) (sendBits : Byte) : Nat := sendBytes.toNat + (if sendBits = 0 then 0 else 1)

/-- R185: `U`, 8 in OPAQUE and 9 in PARITY. -/
def unitBits (mode : Byte) : Nat := if mode = 0 then 8 else 9

/-- R186: the mode is OPAQUE (0) or PARITY (1), the bit counts are below `U`, and `send` has the number of elements its
counts say; in OPAQUE mode an element is a byte (log entry 26). -/
def okTransceive (mode : Byte) (sendBytes : BitVec 16) (sendBits recvBits : Byte) (send : List Unit16) : Bool :=
  decide (mode = 0 ∨ mode = 1) && decide (sendBits.toNat < unitBits mode) && decide (recvBits.toNat < unitBits mode) &&
    decide (send.length = sendElems sendBytes sendBits) && (mode != 0 || send.all (· < 0x100#16))

/-- R220: the buffer has `n` units. -/
def okUnits (n : BitVec 16) (buf : List Unit16) : Bool := decide (buf.length = n.toNat)

/-- R228: and `n` is at most 65533. -/
def okAppendCrc (n : BitVec 16) (buf : List Unit16) : Bool := okUnits n buf && decide (n.toNat ≤ 65533)

/-- R250: a short-frame value has 7 bits. -/
def okShort (cmd : Byte) : Bool := cmd ≤ 0x7F#8

/-- R108, R109: the operands of an anti-collision frame that ACE builds: fewer than 40 known bits, counted by the NVB byte. -/
def okAnticol (nvbByte : Byte) (known : List Bit) : Bool := decide (known.length < levelBits) && nvbByte == nvb known.length

/-- R114: a SELECT frame has the five bytes of a level. -/
def okLevel (level : List Byte) : Bool := decide (level.length = 5)

/-- R272: `uidLen` is 4, 7 or 10, and the UID has that many bytes. -/
def okSelect (uidLen : Byte) (uid : List Byte) : Bool :=
  decide (uidLen = 4 ∨ uidLen = 7 ∨ uidLen = 10) && decide (uid.length = uidLen.toNat)

/-! ### SPI command bytes (R93) -/

/-- R93: single write, `0b000aaaaa`. -/
def spiWriteByte (a : BitVec 5) : Byte := a.setWidth 8
/-- R93: continuous write, `0b001aaaaa`. -/
def spiWriteContByte (a : BitVec 5) : Byte := 0x20#8 ||| a.setWidth 8
/-- R93: single read, `0b010aaaaa`. -/
def spiReadByte (a : BitVec 5) : Byte := 0x40#8 ||| a.setWidth 8
/-- R93: continuous read, `0b011aaaaa`. -/
def spiReadContByte (a : BitVec 5) : Byte := 0x60#8 ||| a.setWidth 8
/-- R93: direct command, `0b100ccccc`. -/
def spiDirectByte (c : BitVec 5) : Byte := 0x80#8 ||| c.setWidth 8
/-- R91: the low five bits of a command byte; of a host operand in range, the operand. -/
def low5 (b : Byte) : BitVec 5 := b.setWidth 5

/-! ### Wire values of an exchange and of the anti-collision frames -/

/-- R97: `TXLEN1`, bits 11..4 of the number of whole bytes. -/
def txLen1 (bytes : Nat) : Byte := BitVec.ofNat 8 (bytes / 16)

/-- R97: `TXLEN2`, the low four bits of the number of whole bytes, the broken bits and their flag. -/
def txLen2 (bytes bits : Nat) : Byte :=
  (BitVec.ofNat 8 (bytes % 16) <<< 4) ||| (BitVec.ofNat 8 bits <<< 1) ||| (if bits = 0 then 0#8 else 1#8)

/-- R112: the check byte of a cascade level, the exclusive or of its first four bytes. -/
def bcc (b : List Byte) : Byte := b.foldl (· ^^^ ·) 0#8

/-- R111, R272: the number of cascade levels of a UID of 4, 7 or 10 bytes. -/
def cascadeLevels (uidLen : Nat) : Nat := (uidLen - 4) / 3 + 1

/-- R111, R272: the five bytes of cascade level `l` (from 1) of a UID with `levels` levels. -/
def levelBytes (uid : List Byte) (levels l : Nat) : List Byte :=
  let b := if l < levels then cascadeTag :: (uid.drop (3 * (l - 1))).take 3 else (uid.drop (3 * (l - 1))).take 4
  b ++ [bcc b]

/-- R108: the bits of an anti-collision frame as handed to the transport. -/
def anticolFrame (sel nvbByte : Byte) (known : List Bit) : List Bit := bits8 sel ++ bits8 nvbByte ++ known

/-- R114: the bits of a SELECT frame as handed to the transport, without CRC. -/
def selectFrame (sel : Byte) (level : List Byte) : List Bit := bits8 sel ++ bits8 nvbFull ++ level.flatMap bits8

/-! ### Host operand lengths (R90, R101) -/

/-- R90, R101: the number of operand bytes of a host command, found from the opcode and, where there is a count operand, from
the count; `ops` are the bytes after the opcode. -/
def operandLength (op : HostOp) (ops : List Byte) : Nat :=
  let at_ (i : Nat) : Byte := ops.getD i 0
  match op with
  | .csAssert | .csDeassert | .dmDisable | .doAnticol | .halt => 0
  | .readReg | .directCmd | .dmEnable | .reqa | .selectFirst | .selectNext => 1
  | .writeReg | .readCont | .irqWait => 2
  | .writeCont => 2 + (at_ 1).toNat
  | .fifoWrite => 2 + (u16Of (at_ 0) (at_ 1)).toNat
  | .setParity | .checkParity | .appendCrc | .checkCrc => 2 + 2 * (u16Of (at_ 0) (at_ 1)).toNat
  | .select => 1 + (at_ 0).toNat
  | .dmTransceive => 7 + (if at_ 0 = 0 then 1 else 2) * sendElems (u16Of (at_ 1) (at_ 2)) (at_ 3)

/-! ### Parameters that are functions -/

/-- R158: the default `IrqClassify`, the first test that applies. PRESUMED; the machine's own is OPEN (log entry 12). -/
def irqClassifyDefault (st : Byte) : IrqCause :=
  if st.getLsbD 1 then .collision
  else if st.getLsbD 4 || st.getLsbD 3 || st.getLsbD 2 then .protocolError
  else if st.getLsbD 5 && st.getLsbD 7 then .fifoLow
  else if st.getLsbD 5 then .fifoHigh
  else if st.getLsbD 7 then .txComplete
  else if st.getLsbD 6 then .rxComplete
  else .timeout

/-- R247: the default `CollPosDecode`. PRESUMED; the machine's own is OPEN (log entry 12). -/
def collPosDecodeDefault (kind : ExchKind) (raw : Byte) : Nat :=
  match kind with
  | .anticol => if raw.toNat / 16 < 2 then 255 else (raw.toNat / 16 - 2) * 8 + raw.toNat % 8
  | .short => raw.toNat / 16 * 8 + raw.toNat % 8
  | .standard => 255

/-- R162: the default `RxUnpack`: the bits of the bytes, for an ANTICOL answer without the first `bb`. PRESUMED (log entry
13). -/
def rxUnpackDefault (kind : ExchKind) (bb : Nat) (bytes : List Byte) : List Bit :=
  match kind with
  | .anticol => (bytes.flatMap bits8).drop bb
  | .short | .standard => bytes.flatMap bits8

/-- R200: the variables of the reference decoder. -/
structure RxVars where
  prev : Bit
  t : Nat
  last : Option Nat
  first : Bool
  out : List Bit
deriving DecidableEq, Repr

/-- R200: the decoder's variables after the first active sample. -/
def rxStart : RxVars := { prev := true, t := 0, last := none, first := true, out := [] }

/-- R200: one sample. An edge of the envelope is recognised when there was none before or `W` periods have passed since the
last; the first recognised edge is the start bit's and stores nothing. -/
def rxStep (W : Nat) (v : RxVars) (a : Bit) : RxVars :=
  let t := v.t + 1
  let recognised := a != v.prev && (match v.last with | none => true | some l => decide (W ≤ t - l))
  { prev := a, t := t, last := if recognised then some t else v.last, first := v.first && !recognised,
    out := if recognised && !v.first then v.out ++ [v.prev && !a] else v.out }

/-- R200: the reference `RxDecode` with ignore window `W`, on the samples from the first active one on (log entry 15). -/
def rxDecodeReference (W : Nat) (samples : List Bit) : List Bit :=
  match samples with
  | [] => []
  | _ :: rest => (rest.foldl (rxStep W) rxStart).out

/-- The ignore window `RX_IGNORE`, 5 or 6 (D26, OPEN). -/
def rxIgnoreWindow : Nat := if Config.rxIgnoreIsSix then 6 else 5

/-- The parameters of this model: the spec's default where R10 and 92_eei_decisions.md section 6 give one that a model may
keep (log entry 13), a constant without a body where they leave it OPEN (log entry 12). -/
def params : Params where
  rxIgnore := rxIgnoreWindow
  rxStartTimeout := Config.rxStartTimeoutPred + 1
  rxMaxSamples cap := 16 + 8 * (cap + 2) + Config.rxMaxSamplesSlack cap
  millerRule := .source
  txSof := true
  fifoRefill := Config.fifoRefillPred.val + 1
  fifoMirrorCap := Config.fifoMirrorCapPred + 1
  tTxMs := Config.tTxMs
  tRxMs := Config.tRxMs
  rfReqa := rfReqaCode
  rfWupa := rfWupaCode
  rfSel := rfSelCode
  rfHlta := rfHltaBytes
  regChipStatus := regChipStatusAddr
  regIsoControl := regIsoControlAddr
  regModulator := regModulatorAddr
  regIrqStatus := regIrqStatusAddr
  regIrqMask := regIrqMaskAddr
  regCollPos := regCollPosAddr
  regRssi := regRssiAddr
  regFifoStatus := regFifoStatusAddr
  cmdSoftInit := cmdSoftInitCode
  cmdResetFifo := cmdResetFifoCode
  cmdTxNocrc := cmdTxNocrcCode
  cmdTxCrc := cmdTxCrcCode
  isoctlARxCrc := isoctlARxCrcByte
  isoctlANoRxCrc := isoctlANoRxCrcByte
  irqClassify := Config.irqClassify
  collPosDecode := Config.collPosDecode
  rxUnpack := rxUnpackDefault
  rxDecode := rxDecodeReference rxIgnoreWindow
  dmEnterSeq := Config.dmEnterSeq
  iso14443aRegInit := Config.iso14443aRegInit

end Sys2Proof.Machine
end

