-- ==== Sys2Proof/WellFormed.lean ====
section
/-! DEFINITION. `Instr.encodable`: the operands fit the instruction's encoding, so that its code word decodes back to it;
`Instr.wellFormed`: and every operand is in the range its rule states. -/

namespace Sys2Proof

open Machine

/-- The operands fit the encoding: counts match their lists (R101, R103), a frame's fixed bits are not another row's (R108,
R114), and a direct command code with a name of its own is written by that name (R98). -/
def Instr.encodable : Instr → Bool
  | .csAssert | .csDeassert | .writeReg _ _ | .readReg _ | .readCont _ _ | .directCmd _ | .irqWait _ => true
  | .writeCont _ n data => decide (data.length = n.toNat)
  | .fifoWrite n data => decide (data.length = n.toNat)
  | .dmEnable _ | .dmDisable => true
  | .dmTransceive mode sendBytes sendBits _ _ send =>
      decide (send.length = sendElems sendBytes sendBits) && (mode != 0 || send.all (· < 0x100#16))
  | .setParity n buf | .checkParity n buf | .appendCrc n buf | .checkCrc n buf => decide (buf.length = n.toNat)
  | .reqa _ | .doAnticol | .selectFirst _ | .selectNext _ | .halt => true
  | .select uidLen uid => decide (uid.length = uidLen.toNat)
  | .spiWriteSingle _ _ | .spiWriteCont _ _ | .spiReadSingle _ | .spiReadCont _ _ => true
  | .spiDirectCmd c =>
      c != cmdSoftInitCode && c != cmdResetFifoCode && c != cmdTxNocrcCode && c != cmdTxCrcCode
  | .cmdSoftInit | .cmdResetFifo | .cmdTxNocrc | .cmdTxCrc | .rfReqa | .rfWupa => true
  | .rfAnticollisionCl1 b _ | .rfAnticollisionCl2 b _ | .rfAnticollisionCl3 b _ => b != nvbFull
  | .rfSelectCl1 level | .rfSelectCl2 level | .rfSelectCl3 level => okLevel level
  | .rfHlta | .seqX | .seqY | .seqZ => true

/-- Encodable, and every operand in the range its rule states (R144 to R156, R186, R220, R228, R250, R272; for the rows of
the SPI and RF formats R68, R108, R114). -/
def Instr.wellFormed (i : Instr) : Bool :=
  i.encodable && match i with
  | .csAssert | .csDeassert | .fifoWrite _ _ | .irqWait _ | .dmEnable _ | .dmDisable => true
  | .writeReg addr _ => okAddr addr
  | .readReg addr => okAddr addr
  | .writeCont addr n data => okWriteCont addr n data
  | .readCont addr n => okCont addr n
  | .directCmd code => okCode code
  | .dmTransceive mode sendBytes sendBits _ recvBits send => okTransceive mode sendBytes sendBits recvBits send
  | .setParity n buf | .checkParity n buf | .checkCrc n buf => okUnits n buf
  | .appendCrc n buf => okAppendCrc n buf
  | .reqa cmd | .selectFirst cmd | .selectNext cmd => okShort cmd
  | .doAnticol | .halt => true
  | .select uidLen uid => okSelect uidLen uid
  | .spiWriteSingle _ _ | .spiReadSingle _ | .spiDirectCmd _ => true
  | .spiWriteCont a data => okContSpan a.toNat data.length
  | .spiReadCont a n => okContSpan a.toNat n.toNat
  | .cmdSoftInit | .cmdResetFifo | .cmdTxNocrc | .cmdTxCrc | .rfReqa | .rfWupa => true
  | .rfAnticollisionCl1 b known | .rfAnticollisionCl2 b known | .rfAnticollisionCl3 b known => okAnticol b known
  | .rfSelectCl1 _ | .rfSelectCl2 _ | .rfSelectCl3 _ | .rfHlta | .seqX | .seqY | .seqZ => true

end Sys2Proof
end

