-- ==== Sys2Proof/Decode.lean ====
section
/-! DEFINITION. From code words to instructions and back. The host layer is spec/30_encoding.md R99 to R103, the SPI layer
R91 to R95 and R98, the RF layer R106 to R114, the modulation layer R115. Decoding is total and rejects by name. After it the
encoder, and the reading of a bare number that the host's questions need (log entry 3). -/

namespace Sys2Proof

open Machine

/-! ### The host layer -/

/-- R100: the opcode map. -/
def hostOpTable : List (HostOp × Byte) :=
  [(.csAssert, 0x10), (.csDeassert, 0x11), (.writeReg, 0x12), (.readReg, 0x13), (.writeCont, 0x14), (.readCont, 0x15),
   (.directCmd, 0x16), (.fifoWrite, 0x17), (.irqWait, 0x18), (.dmEnable, 0x20), (.dmDisable, 0x21), (.dmTransceive, 0x22),
   (.setParity, 0x30), (.checkParity, 0x31), (.appendCrc, 0x32), (.checkCrc, 0x33), (.reqa, 0x40), (.doAnticol, 0x41),
   (.selectFirst, 0x42), (.selectNext, 0x43), (.select, 0x44), (.halt, 0x45)]

/-- R100: the operation of an opcode byte; none for a reserved one (R103). -/
def hostOpOf (b : Byte) : Option HostOp := (hostOpTable.find? (·.2 == b)).map (·.1)

/-- R100: the opcode byte of an operation. -/
def opcodeOf (op : HostOp) : Byte := ((hostOpTable.find? (·.1 == op)).map (·.2)).getD 0

/-- R101: `n:u16, buf:units(n)`. -/
def decodeUnits (mk : BitVec 16 → List Unit16 → Instr) (ops : List Byte) : Option Instr :=
  match ops with
  | lo :: hi :: rest =>
    match unitsOf rest with
    | some buf => if buf.length = (u16Of lo hi).toNat then some (mk (u16Of lo hi) buf) else none
    | none => none
  | _ => none

/-- R101: one operand byte. -/
def decodeByte (mk : Byte → Instr) (ops : List Byte) : Option Instr :=
  match ops with
  | [a] => some (mk a)
  | _ => none

/-- R101: no operand. -/
def decodeNone (i : Instr) (ops : List Byte) : Option Instr :=
  match ops with
  | [] => some i
  | _ => none

/-- R101: the operands of `DM_TRANSCEIVE`; the elements of `send` are bytes in OPAQUE mode, else units. -/
def decodeTransceive (ops : List Byte) : Option Instr :=
  match ops with
  | mode :: sl :: sh :: sendBits :: rl :: rh :: recvBits :: rest =>
    match (if mode = 0 then some (rest.map (·.setWidth 16)) else unitsOf rest) with
    | some send =>
      if send.length = sendElems (u16Of sl sh) sendBits then
        some (.dmTransceive mode (u16Of sl sh) sendBits (u16Of rl rh) recvBits send)
      else none
    | none => none
  | _ => none

/-- R101: the operand layout of each operation; none when the bytes are too few or too many for it. -/
def decodeOperands (op : HostOp) (ops : List Byte) : Option Instr :=
  match op with
  | .csAssert => decodeNone .csAssert ops
  | .csDeassert => decodeNone .csDeassert ops
  | .writeReg =>
    match ops with
    | [addr, val] => some (.writeReg addr val)
    | _ => none
  | .readReg => decodeByte .readReg ops
  | .writeCont =>
    match ops with
    | addr :: n :: data => if data.length = n.toNat then some (.writeCont addr n data) else none
    | _ => none
  | .readCont =>
    match ops with
    | [addr, n] => some (.readCont addr n)
    | _ => none
  | .directCmd => decodeByte .directCmd ops
  | .fifoWrite =>
    match ops with
    | lo :: hi :: data => if data.length = (u16Of lo hi).toNat then some (.fifoWrite (u16Of lo hi) data) else none
    | _ => none
  | .irqWait =>
    match ops with
    | [lo, hi] => some (.irqWait (u16Of lo hi))
    | _ => none
  | .dmEnable => decodeByte .dmEnable ops
  | .dmDisable => decodeNone .dmDisable ops
  | .dmTransceive => decodeTransceive ops
  | .setParity => decodeUnits .setParity ops
  | .checkParity => decodeUnits .checkParity ops
  | .appendCrc => decodeUnits .appendCrc ops
  | .checkCrc => decodeUnits .checkCrc ops
  | .reqa => decodeByte .reqa ops
  | .doAnticol => decodeNone .doAnticol ops
  | .selectFirst => decodeByte .selectFirst ops
  | .selectNext => decodeByte .selectNext ops
  | .select =>
    match ops with
    | uidLen :: uid => if uid.length = uidLen.toNat then some (.select uidLen uid) else none
    | _ => none
  | .halt => decodeNone .halt ops

/-- R99, R103: a host command. -/
def decodeHost (bytes : List Byte) : Except DecodeError Instr :=
  match bytes with
  | [] => .error .illegalOp
  | b :: ops =>
    match hostOpOf b with
    | none => .error .illegalOp
    | some op =>
      match decodeOperands op ops with
      | some i => .ok i
      | none => .error (.badOperand op)

/-! ### The SPI layer -/

/-- R98: a direct command; the four codes with a name of their own decode to it. -/
def decodeDirect (c : BitVec 5) : Instr :=
  if c = cmdSoftInitCode then .cmdSoftInit
  else if c = cmdResetFifoCode then .cmdResetFifo
  else if c = cmdTxNocrcCode then .cmdTxNocrc
  else if c = cmdTxCrcCode then .cmdTxCrc
  else .spiDirectCmd c

/-- R91, R93: a transaction, read by its command byte's bits `C`, `R`, `N` and by the data bytes its form has; R94: `C` with
`R` or `N` is reserved. -/
def decodeSpi (out : List Byte) (nin : Byte) : Except DecodeError Instr :=
  match out with
  | [] => .error .reservedSpi
  | b :: data =>
    match b.getLsbD 7, b.getLsbD 6, b.getLsbD 5 with
    | false, false, false =>
      match data with
      | [v] => if nin = 0 then .ok (.spiWriteSingle (low5 b) v) else .error .reservedSpi
      | _ => .error .reservedSpi
    | false, false, true => if nin = 0 then .ok (.spiWriteCont (low5 b) data) else .error .reservedSpi
    | false, true, false => if data = [] ∧ nin = 1 then .ok (.spiReadSingle (low5 b)) else .error .reservedSpi
    | false, true, true => if data = [] then .ok (.spiReadCont (low5 b) nin) else .error .reservedSpi
    | true, false, false => if data = [] ∧ nin = 0 then .ok (decodeDirect (low5 b)) else .error .reservedSpi
    | true, _, _ => .error .reservedSpi

/-! ### The RF layer -/

/-- R106 to R114: a frame as handed to the transport. Seven bits are a short frame; otherwise the first byte is a SEL code or
the first of HLTA, and the second byte tells SELECT (0x70) from ANTICOLLISION, as the masks of the opcode table have it; an
NVB byte that does not count the known bits is an operand out of range, refused when the frame is issued (`okAnticol`). -/
def decodeRf (bits : List Bit) : Except DecodeError Instr :=
  if bits.length = reqaBits then
    if bits = bitsN 7 rfReqaCode reqaBits then .ok .rfReqa
    else if bits = bitsN 7 rfWupaCode reqaBits then .ok .rfWupa
    else .error .unknownFrame
  else if bits.length < 16 then .error .unknownFrame
  else
    let sel := byteOfBits (bits.take 8)
    let second := byteOfBits ((bits.drop 8).take 8)
    let rest := bits.drop 16
    let pick (selectInstr : List Byte → Instr) (anticolInstr : Byte → List Bit → Instr) : Except DecodeError Instr :=
      if second = nvbFull then
        if rest.length = levelBits then .ok (selectInstr (packLsb rest)) else .error .unknownFrame
      else .ok (anticolInstr second rest)
    if sel = rfSelCode 1 then pick .rfSelectCl1 .rfAnticollisionCl1
    else if sel = rfSelCode 2 then pick .rfSelectCl2 .rfAnticollisionCl2
    else if sel = rfSelCode 3 then pick .rfSelectCl3 .rfAnticollisionCl3
    else if [sel, second] = rfHltaBytes ∧ rest = [] then .ok .rfHlta
    else .error .unknownFrame

/-! ### The modulation layer -/

/-- R115: the slots `q0 q1 q2 q3` of sequence X. -/
def slotsX : List Bit := [false, false, true, false]
/-- R115: the slots of sequence Y. -/
def slotsY : List Bit := [false, false, false, false]
/-- R115: the slots of sequence Z. -/
def slotsZ : List Bit := [true, false, false, false]

/-- R115: four slots are one of the three sequences. -/
def decodeMod (slots : List Bit) : Except DecodeError Instr :=
  if slots = slotsX then .ok .seqX
  else if slots = slotsY then .ok .seqY
  else if slots = slotsZ then .ok .seqZ
  else .error .unknownSequence

/-- The instruction a code word stands for. -/
def decode : CodeWord → Except DecodeError Instr
  | .host bytes => decodeHost bytes
  | .spi out nin => decodeSpi out nin
  | .rf bits => decodeRf bits
  | .mod slots => decodeMod slots

/-! ### The encoder -/

/-- R99: `[opcode] ++ operands`. -/
def hostWord (op : HostOp) (ops : List Byte) : CodeWord := .host (opcodeOf op :: ops)

/-- R101: the elements of `send`: bytes in OPAQUE mode, else units. -/
def sendBytesOf (mode : Byte) (send : List Unit16) : List Byte :=
  if mode = 0 then send.map (·.setWidth 8) else unitsBytes send

/-- The code word of an instruction, from the tables of R93, R98, R100, R101, R106 to R115. -/
def encode : Instr → CodeWord
  | .csAssert => hostWord .csAssert []
  | .csDeassert => hostWord .csDeassert []
  | .writeReg addr val => hostWord .writeReg [addr, val]
  | .readReg addr => hostWord .readReg [addr]
  | .writeCont addr n data => hostWord .writeCont (addr :: n :: data)
  | .readCont addr n => hostWord .readCont [addr, n]
  | .directCmd code => hostWord .directCmd [code]
  | .fifoWrite n data => hostWord .fifoWrite (u16Bytes n ++ data)
  | .irqWait t => hostWord .irqWait (u16Bytes t)
  | .dmEnable mode => hostWord .dmEnable [mode]
  | .dmDisable => hostWord .dmDisable []
  | .dmTransceive mode sendBytes sendBits recvBytes recvBits send =>
      hostWord .dmTransceive
        (mode :: u16Bytes sendBytes ++ sendBits :: u16Bytes recvBytes ++ recvBits :: sendBytesOf mode send)
  | .setParity n buf => hostWord .setParity (u16Bytes n ++ unitsBytes buf)
  | .checkParity n buf => hostWord .checkParity (u16Bytes n ++ unitsBytes buf)
  | .appendCrc n buf => hostWord .appendCrc (u16Bytes n ++ unitsBytes buf)
  | .checkCrc n buf => hostWord .checkCrc (u16Bytes n ++ unitsBytes buf)
  | .reqa cmd => hostWord .reqa [cmd]
  | .doAnticol => hostWord .doAnticol []
  | .selectFirst cmd => hostWord .selectFirst [cmd]
  | .selectNext cmd => hostWord .selectNext [cmd]
  | .select uidLen uid => hostWord .select (uidLen :: uid)
  | .halt => hostWord .halt []
  | .spiWriteSingle a val => .spi [spiWriteByte a, val] 0
  | .spiWriteCont a data => .spi (spiWriteContByte a :: data) 0
  | .spiReadSingle a => .spi [spiReadByte a] 1
  | .spiReadCont a n => .spi [spiReadContByte a] n
  | .spiDirectCmd c => .spi [spiDirectByte c] 0
  | .cmdSoftInit => .spi [spiDirectByte cmdSoftInitCode] 0
  | .cmdResetFifo => .spi [spiDirectByte cmdResetFifoCode] 0
  | .cmdTxNocrc => .spi [spiDirectByte cmdTxNocrcCode] 0
  | .cmdTxCrc => .spi [spiDirectByte cmdTxCrcCode] 0
  | .rfReqa => .rf (bitsN 7 rfReqaCode reqaBits)
  | .rfWupa => .rf (bitsN 7 rfWupaCode reqaBits)
  | .rfAnticollisionCl1 b known => .rf (anticolFrame (rfSelCode 1) b known)
  | .rfAnticollisionCl2 b known => .rf (anticolFrame (rfSelCode 2) b known)
  | .rfAnticollisionCl3 b known => .rf (anticolFrame (rfSelCode 3) b known)
  | .rfSelectCl1 level => .rf (selectFrame (rfSelCode 1) level)
  | .rfSelectCl2 level => .rf (selectFrame (rfSelCode 2) level)
  | .rfSelectCl3 level => .rf (selectFrame (rfSelCode 3) level)
  | .rfHlta => .rf (rfHltaBytes.flatMap bits8)
  | .seqX => .mod slotsX
  | .seqY => .mod slotsY
  | .seqZ => .mod slotsZ

/-! ### Reading a bare number (log entry 3) -/

/-- `n` bits of the number `w`, bit 0 first. -/
def natBits (w n : Nat) : List Bit := (List.range n).map w.testBit

/-- The SPI transaction of a command byte whose operand bytes are zeros: the one data byte of a single access, one data byte
of a continuous one. -/
def spiWordOf (b : Byte) : CodeWord :=
  match b.getLsbD 7, b.getLsbD 6 with
  | false, false => .spi [b, 0] 0
  | false, true => .spi [b] 1
  | true, _ => .spi [b] 0

/-- R109 read backwards: the number of known bits an NVB byte counts, 0 when it counts none. -/
def nvbKnown (b : Byte) : Nat := (b.toNat / 16 - 2) * 8 + b.toNat % 16

/-- The code word of a number of `nbits` bits, numbered as spec/opcode_table.json numbers them, with zeros above. One byte
has no room for its format, so the formats are tried in this order: a host opcode, a short frame, a modulation sequence, an
SPI command byte (log entry 3). From two bytes on the table puts a frame's first byte into bits 15..8. -/
def tableCode (nbits w : Nat) : CodeWord :=
  if nbits ≤ 4 then .mod [w.testBit 3, w.testBit 2, w.testBit 1, w.testBit 0]
  else if nbits ≤ 7 then .rf (natBits w 7)
  else if nbits ≤ 8 then
    let b : Byte := BitVec.ofNat 8 w
    match hostOpOf b with
    | some op => .host (b :: List.replicate (operandLength op []) 0)
    | none =>
      if b = rfReqaCode.setWidth 8 ∨ b = rfWupaCode.setWidth 8 then .rf (natBits w 7)
      else if b = 0x2 ∨ b = 0x0 ∨ b = 0x8 then .mod [w.testBit 3, w.testBit 2, w.testBit 1, w.testBit 0]
      else spiWordOf b
  else
    let first : Byte := BitVec.ofNat 8 (w / 256)
    let second : Byte := BitVec.ofNat 8 w
    let isSel := first == rfSelCode 1 || first == rfSelCode 2 || first == rfSelCode 3
    if isSel && second == nvbFull then .rf (bits8 first ++ bits8 second ++ natBits (w / 65536) 40)
    else if isSel then .rf (bits8 first ++ bits8 second ++ natBits (w / 65536) (nvbKnown second))
    else if [first, second] = rfHltaBytes then .rf (bits8 first ++ bits8 second)
    else
      let bytes (n : Nat) : List Byte := (List.range n).map fun i => BitVec.ofNat 8 (w / 256 ^ i)
      match hostOpOf second with
      | some op => .host (bytes (1 + operandLength op ((bytes 8).drop 1)))
      | none => spiWordOf second

/-- The instruction the decoder reads from an instruction whose bits are `w`. -/
def decodeTableWord (nbits w : Nat) : Option Instr :=
  match decode (tableCode nbits w) with
  | .ok i => some i
  | .error _ => none

end Sys2Proof
end

