-- ==== Sys2Proof/Machine/State.lean ====
section
/-! DEFINITION. The state: every field of spec/10_state.md (R20 to R45), the observable trace of 00_scope.md R15, the
responses of 30_encoding.md R99, and the inputs of the block's environment (R8, R14, R22). Plain data. -/

namespace Sys2Proof.Machine

/-- The one fault mark of R45. It is recorded in `State.faults` by a push into a full ring (R160) and stops nothing (R297): no
step answers with it. Safe: nothing is cut short. -/
inductive Fault where
  /-- R45: `FIFO_OVERFLOW`, in `faults` exactly when `fifo_ovf` is true. -/
  | fifoOverflow
deriving DecidableEq, Repr

/-- Why a code word is run by no step. Only `step` raises these, on code words of the SPI, RF and MOD formats that are no
instruction; each is safe: the block never makes such a word (R94, R103), and the machine stops. -/
inductive Refusal where
  /-- An instruction whose meaning is not written; raised by an arm of `exec`. Safe: the machine stops. -/
  | notModelled (mnemonic : String)
  /-- R94: an SPI command byte with `C` = 1 and `R` or `N` set, or data that does not fit the form. Safe. -/
  | reservedSpi
  /-- No frame of R106 to R114 (R103). Safe. -/
  | unknownFrame
  /-- No sequence of R115. Safe. -/
  | unknownSequence
deriving DecidableEq, Repr

/-- R26: the function of the RX pin. -/
inductive PinFunction where
  | spiFunction | gpioInput
deriving DecidableEq, Repr

/-- R294: the status byte, complete. -/
inductive Status where
  | ok | false_
  | illegalOp | badOperand | busy
  | phyNotEnabled | seqSessionOpen | csHeld
  | fifoRefillFail
  | noResponse | badLength | badCollpos | cascadeOverflow | frameError | noBacktrack | uidLenMismatch
deriving DecidableEq, Repr

/-- R15: the events of the observable trace. -/
inductive Event where
  | csLow
  | csHigh
  | spiOut (b : Byte)
  | spiIn (b : Byte)
  | mod (q : Bit)
  | sample (a : Bit)
  | intMask (m : Bool)
  | pinMode (m : PinFunction)
  | log (t : String)
deriving DecidableEq, Repr

/-- R245: the result of an exchange. -/
inductive ExchResult where
  | noResponse
  | frame (bits : List Bit) (coll : Option Nat)
  | error (cause : IrqCause)
deriving DecidableEq, Repr

/-- What an operation hands back: `[status] ++ results` (R99); for a frame issued by itself, the result of its exchange
(log entry 18); an SPI command or a sequence issued by itself answers with a status as a host operation does (log entries 19,
20). -/
inductive Response where
  | status (st : Status) (results : List Byte)
  | exchange (r : ExchResult)
deriving DecidableEq, Repr

/-- What the agents outside the main thread present to the block, one at a time (R8): an operation of the host, an edge on
the transceiver's IRQ line (R157), an elapsed millisecond (R163), the host's write of its interrupt enable (R33, R38). -/
inductive Input where
  | op (w : CodeWord)
  | irqEdge
  | msTick
  | hostIe (on : Bool)
deriving DecidableEq, Repr

/-- Bytes by address, addresses strictly rising; an unlisted address holds no written byte. -/
abbrev Memory := List Host.Cell

/-- R30: the FIFO mirror ring. `buf` lists the cells that have been written. -/
structure Ring where
  buf : Memory
  rd : Nat
  wr : Nat
  count : Nat
deriving DecidableEq, Repr

/-- R34: `AnticolState`: bit position `p` of `uid` or `coll` is bit `p mod 8` of byte `p div 8`. -/
structure AnticolState where
  uid : Vector Byte 15
  coll : Vector Byte 15
  bitPos : Nat
deriving DecidableEq, Repr

/-- The environment's next answers (R14 `draw`): the bytes shifted in, the samples of the RX pin, whether an edge comes at
the next polls of a wait. Where a script is at its end the answer is a free value read at `drawn` (log entry 4). -/
structure Env where
  spiIn : List Byte
  samples : List Bit
  edges : List Bool
  drawn : Nat
deriving DecidableEq, Repr

/-- R20: the block state, then the model's own fields. -/
structure State where
  /-- R23. -/
  busy : Bool
  /-- R24. -/
  cs : Bool
  /-- R25. -/
  sessionOpen : Bool
  /-- R26. -/
  rxPinMode : PinFunction
  /-- R27. -/
  irqFlag : Bool
  /-- R28. -/
  timeoutFlag : Bool
  /-- R29. -/
  countdown : BitVec 16
  /-- R30. -/
  ring : Ring
  /-- R31, sticky. -/
  fifoOvf : Bool
  /-- R45, a set. -/
  faults : List Fault
  /-- R32. -/
  dmEnabled : Bool
  /-- R32; no rule reads it. -/
  dmCfg : Byte
  /-- R33. -/
  hostIe : Bool
  /-- R34. -/
  acs : AnticolState
  /-- R15, oldest first. -/
  trace : List Event
  /-- R99, oldest first. -/
  responses : List Response
  /-- R8, R22: what comes next, oldest first. -/
  inputs : List Input
  /-- R14. -/
  env : Env
deriving DecidableEq, Repr

/-- R34, R36: all zero. -/
def AnticolState.zero : AnticolState where
  uid := Vector.replicate 15 0
  coll := Vector.replicate 15 0
  bitPos := 0

/-- R44, R320: the state after reset. `dmCfg` and `hostIe`, which R44 leaves unspecified, hold the values of log entries 8
and 9; no cell of the ring is written (U4, log entry 10); the trace is empty (R322). -/
def State.reset : State where
  busy := false
  cs := false
  sessionOpen := false
  rxPinMode := .spiFunction
  irqFlag := false
  timeoutFlag := false
  countdown := 0
  ring := { buf := [], rd := 0, wr := 0, count := 0 }
  fifoOvf := false
  faults := []
  dmEnabled := false
  dmCfg := 0
  hostIe := true
  acs := .zero
  trace := []
  responses := []
  inputs := []
  env := { spiIn := [], samples := [], edges := [], drawn := 0 }

end Sys2Proof.Machine
end

