-- ==== Sys2Proof/Machine/Flags.lean ====
section
/-! DEFINITION. The flags of spec/10_state.md R38: what sets and clears them outside the operations' own rules (the IRQ handler,
the millisecond tick, the chip select), the guards that read them before an operation starts (60_exceptions.md R293), and the
parity and CRC values that the predicates of 42_parity_crc.md compute. -/

namespace Sys2Proof.Machine

/-! ### The asynchronous agents -/

/-- R157: the IRQ handler step on an edge: sets the flag if the host's interrupt enable is on, and nothing else. -/
def irqHandler (s : State) : State := if s.hostIe then { s with irqFlag := true } else s

/-- R163: one elapsed millisecond. -/
def msTickStep (s : State) : State :=
  if s.countdown = 0 then s
  else { s with countdown := s.countdown - 1, timeoutFlag := if s.countdown = 1 then true else s.timeoutFlag }

/-! ### Guards (R293, order 3) -/

/-- R140: a SEQ or ACE operation while the session is open. -/
def seqGuard (s : State) : Option Status := if s.sessionOpen then some .seqSessionOpen else none

/-- R185: `DM_TRANSCEIVE` while direct mode is disabled. -/
def phyGuard (s : State) : Option Status := if s.dmEnabled then none else some .phyNotEnabled

/-- R181: `DM_ENABLE`, not already enabled, while the chip select is held. -/
def enableGuard (s : State) : Option Status := if !s.dmEnabled && s.cs then some .csHeld else none

/-- The guard of each host operation (R293, R296). -/
def guardOf (op : HostOp) (s : State) : Option Status :=
  match op with
  | .csAssert | .csDeassert | .writeReg | .readReg | .writeCont | .readCont | .directCmd | .fifoWrite | .irqWait
  | .reqa | .doAnticol | .selectFirst | .selectNext | .select | .halt => seqGuard s
  | .dmEnable => enableGuard s
  | .dmTransceive => phyGuard s
  | .dmDisable | .setParity | .checkParity | .appendCrc | .checkCrc => none

/-- R293: the guard is tested before the operands. -/
def refusal (guard : Option Status) (operandsOk : Bool) : Option Status :=
  match guard with
  | some st => some st
  | none => if operandsOk then none else some .badOperand

/-! ### Codes -/

/-- R294: the status byte's codes. -/
def statusCode : Status → Byte
  | .ok => 0x00
  | .false_ => 0x01
  | .illegalOp => 0x10
  | .badOperand => 0x11
  | .busy => 0x12
  | .phyNotEnabled => 0x20
  | .seqSessionOpen => 0x21
  | .csHeld => 0x22
  | .fifoRefillFail => 0x30
  | .noResponse => 0x40
  | .badLength => 0x41
  | .badCollpos => 0x42
  | .cascadeOverflow => 0x43
  | .frameError => 0x44
  | .noBacktrack => 0x45
  | .uidLenMismatch => 0x46

/-- R295: the codes of the IRQ causes. -/
def causeCode : IrqCause → Byte
  | .timeout => 0x00
  | .txComplete => 0x01
  | .rxComplete => 0x02
  | .fifoHigh => 0x03
  | .fifoLow => 0x04
  | .protocolError => 0x05
  | .collision => 0x06
  | .fieldChange => 0x07

/-- R99: the bytes of a response, `[status] ++ results`; an exchange's result has none (log entry 18). -/
def responseBytes : Response → List Byte
  | .status st results => statusCode st :: results
  | .exchange _ => []

/-! ### Parity and CRC (42_parity_crc.md) -/

/-- R12: `popcount(v)` of a byte. -/
def popcount (d : Byte) : Nat := (bits8 d).count true

/-- R221: `OddParity(d)`, 1 when the number of one bits is even. -/
def oddParity (d : Byte) : Bit := popcount d % 2 == 0

/-- R110: the payload byte of a unit. -/
def payload (u : Unit16) : Byte := u.setWidth 8

/-- R110: the parity bit of a unit. -/
def parityBit (u : Unit16) : Bit := u.getLsbD 8

/-- R110, R222: the unit of a byte with the parity bit given, bits 15..9 zero. -/
def unitOf (p : Bit) (d : Byte) : Unit16 := ((BitVec.ofBool p).setWidth 16 <<< 8) ||| d.setWidth 16

/-- R222: the unit of a byte with its odd parity. -/
def parityUnit (d : Byte) : Unit16 := unitOf (oddParity d) d

/-- R226: one of the eight shifts of a byte. -/
def crcShift (crc : BitVec 16) : BitVec 16 := if crc.getLsbD 0 then (crc >>> 1) ^^^ crcPoly else crc >>> 1

/-- R226: `f` repeated. -/
def repeatN {α : Type} (f : α → α) : Nat → α → α
  | 0, a => a
  | n + 1, a => repeatN f n (f a)

/-- R226: one byte taken into the CRC. -/
def crcByte (crc : BitVec 16) (b : Byte) : BitVec 16 := repeatN crcShift 8 (crc ^^^ b.setWidth 16)

/-- R226: `CrcA`. -/
def crcA (bytes : List Byte) : BitVec 16 := bytes.foldl crcByte crcSeed

end Sys2Proof.Machine
end

