-- ==== Sys2Proof/Machine/Ops.lean ====
section
/-! DEFINITION. The shared operations: draws from the environment, the ring's cells, the start, end and refusal of an operation
(what stands in the place of taking an exception, spec/60_exceptions.md R290 to R293), the SPI transaction, the ring, the IRQ
wait, the FIFO write and the exchange of 40_seq.md. They take the parameters of R10 as an argument; the meanings give them
`params`. -/

namespace Sys2Proof.Machine

/-! ### Draws (R14, R15) -/

/-- R14: the next byte of the environment. -/
def Env.byte (e : Env) : Byte × Env :=
  match e.spiIn with
  | b :: rest => (b, { e with spiIn := rest })
  | [] => (Config.freeByte e.drawn, { e with drawn := e.drawn + 1 })

/-- R14: the next `n` bytes of the environment, in order. -/
def Env.bytes (n : Nat) (e : Env) : List Byte × Env :=
  match n with
  | 0 => ([], e)
  | n + 1 => (e.byte.1 :: (Env.bytes n e.byte.2).1, (Env.bytes n e.byte.2).2)

/-- R191: the next sample of the RX pin. -/
def Env.sample (e : Env) : Bit × Env :=
  match e.samples with
  | a :: rest => (a, { e with samples := rest })
  | [] => (Config.freeSample e.drawn, { e with drawn := e.drawn + 1 })

/-- R157: whether the environment presents an edge before the next poll of a wait. -/
def Env.edge (e : Env) : Bool × Env :=
  match e.edges with
  | a :: rest => (a, { e with edges := rest })
  | [] => (Config.freeEdge e.drawn, { e with drawn := e.drawn + 1 })

/-- R15: `emit`, in order. -/
def State.emit (s : State) (es : List Event) : State := { s with trace := s.trace ++ es }

/-- R99: the operation hands back its response. -/
def State.respond (s : State) (r : Response) : State := { s with responses := s.responses ++ [r] }

/-! ### Cells (log entry 10) -/

/-- The byte written at an address; none where nothing has been written. -/
def Memory.read (m : Memory) (a : Nat) : Option Byte := (m.find? (·.1 == a)).map (·.2)

/-- Writes a byte, the addresses kept strictly rising. -/
def Memory.write : Memory → Nat → Byte → Memory
  | [], a, b => [(a, b)]
  | (c, d) :: m, a, b =>
    if a < c then (a, b) :: (c, d) :: m
    else if a = c then (a, b) :: m
    else (c, d) :: Memory.write m a b

/-- The canonical form: addresses strictly rising. -/
def Memory.wf (m : Memory) : Bool := decide (m.Pairwise (·.1 < ·.1))

/-- R30: the byte of a ring cell; of one that nothing has written, a free value (U4). -/
def Ring.cell (r : Ring) (i : Nat) : Byte := (Memory.read r.buf i).getD (Config.unwrittenCell i)

/-! ### Starting, ending and refusing an operation (R23, R292, R293) -/

/-- R292: how an operation ends: `OK` with its results, or the status raised and no results. -/
def answer (r : Except Status (List Byte)) : Response :=
  match r with
  | .ok results => .status .ok results
  | .error st => .status st []

/-- R23, R293: an operation as issued: `BUSY` while another runs; the refusal found for it, which changes nothing and emits
nothing; else `busy` for its length and its response at the end. What the operation wrote before a `raise` stays written. -/
def issue (refused : Option Status) (body : State → Response × State) (s : State) : State :=
  if s.busy then s.respond (.status .busy [])
  else
    match refused with
    | some st => s.respond (.status st [])
    | none =>
      let r := body { s with busy := true }
      ({ r.2 with busy := false } : State).respond r.1

/-- R103, R293: a host command whose bytes do not fit its opcode. -/
def issueMalformed (op : HostOp) (s : State) : State := issue (refusal (guardOf op s) false) (fun t => (answer (.ok []), t)) s

/-- R103, R293: a host command with a reserved opcode. -/
def issueIllegal (s : State) : State := issue (some .illegalOp) (fun t => (answer (.ok []), t)) s

/-! ### Chip select and the SPI transaction (R141 to R143) -/

/-- R141: `CsLow`, `cs` true. -/
def csLow (s : State) : State := ({ s with cs := true } : State).emit [.csLow]

/-- R142: `CsHigh`, `cs` false. -/
def csHigh (s : State) : State := ({ s with cs := false } : State).emit [.csHigh]

/-- R143: bytes shifted in, drawn and emitted one by one. -/
def spiRead (n : Nat) (s : State) : List Byte × State :=
  let r := s.env.bytes n
  (r.1, ({ s with env := r.2 } : State).emit (r.1.map .spiIn))

/-- R143: `Txn(cmd, out, nin)`, with a window of its own unless the host holds one. -/
def txn (cmd : Byte) (out : List Byte) (nin : Nat) (s : State) : List Byte × State :=
  let own := !s.cs
  let opened := if own then csLow s else s
  let r := spiRead nin (opened.emit (.spiOut cmd :: out.map .spiOut))
  (r.1, if own then csHigh r.2 else r.2)

/-- R144: the transaction of a single write. -/
def writeReg (a : BitVec 5) (v : Byte) (s : State) : State := (txn (spiWriteByte a) [v] 0 s).2

/-- R146: the transaction of a single read, and its byte. -/
def readReg (a : BitVec 5) (s : State) : Byte × State :=
  let r := txn (spiReadByte a) [] 1 s
  (r.1.headD 0, r.2)

/-- R148: the transaction of a continuous write. -/
def writeCont (a : BitVec 5) (data : List Byte) (s : State) : State := (txn (spiWriteContByte a) data 0 s).2

/-- R150: the transaction of a continuous read, and its bytes. -/
def readCont (a : BitVec 5) (n : Nat) (s : State) : List Byte × State := txn (spiReadContByte a) [] n s

/-- R152: the transaction of a direct command. -/
def directCmd (c : BitVec 5) (s : State) : State := (txn (spiDirectByte c) [] 0 s).2

/-- A list of register writes in order (R181, R183). -/
def writeRegs (l : List (BitVec 5 × Byte)) (s : State) : State := l.foldl (fun t w => writeReg w.1 w.2 t) s

/-! ### The ring (R160) -/

/-- U3: after an overflow the ring is any ring: free cells, and free indices inside their ranges. -/
def ringHavoc (P : Params) (s : State) : State :=
  let k := s.env.drawn
  let cap := P.fifoMirrorCap
  { s with
    ring :=
      { buf := (List.range cap).map fun i => (i, Config.freeByte (k + i)),
        rd := Config.freeNat k % cap, wr := Config.freeNat (k + 1) % cap, count := Config.freeNat (k + 2) % (cap + 1) },
    env := { s.env with drawn := k + cap + 3 } }

/-- R31, U3: from an overflow on, every look at the ring and every change of it finds and leaves any ring (log entry 11). -/
def ringUnspecified (P : Params) (s : State) : State := if s.fifoOvf then ringHavoc P s else s

/-- R160: `RingPush` on a ring as it stands. -/
def ringPushCore (P : Params) (b : Byte) (s : State) : State :=
  if s.ring.count = P.fifoMirrorCap then
    ({ s with fifoOvf := true, faults := if .fifoOverflow ∈ s.faults then s.faults else s.faults ++ [.fifoOverflow] } :
      State).emit [.log "fifo mirror overflow"]
  else
    { s with
      ring :=
        { s.ring with
          buf := Memory.write s.ring.buf s.ring.wr b, wr := (s.ring.wr + 1) % P.fifoMirrorCap,
          count := s.ring.count + 1 } }

/-- R160: `RingPush`. -/
def ringPush (P : Params) (b : Byte) (s : State) : State :=
  ringUnspecified P (ringPushCore P b (ringUnspecified P s))

/-- R160: `RingPop` on a ring as it stands. -/
def ringPopCore (P : Params) (s : State) : Option Byte × State :=
  if s.ring.count = 0 then (none, s)
  else
    (some (s.ring.cell s.ring.rd),
      { s with ring := { s.ring with rd := (s.ring.rd + 1) % P.fifoMirrorCap, count := s.ring.count - 1 } })

/-- R162: `RingPop` repeated; `n` is the count it starts with. -/
def ringPopN (P : Params) (n : Nat) (s : State) : List Byte × State :=
  match n with
  | 0 => ([], s)
  | n + 1 =>
    match ringPopCore P s with
    | (none, t) => ([], t)
    | (some b, t) => (b :: (ringPopN P n t).1, (ringPopN P n t).2)

/-- R162: `PopAll()`. -/
def ringPopAll (P : Params) (s : State) : List Byte × State :=
  let t := ringUnspecified P s
  let r := ringPopN P t.ring.count t
  (r.1, ringUnspecified P r.2)

/-- R160: `RingClear`. -/
def ringClear (P : Params) (s : State) : State :=
  ringUnspecified P { s with ring := { s.ring with rd := 0, wr := 0, count := 0 } }

/-- R159: the number of bytes waiting, the low seven bits of the FIFO status. -/
def fifoLevel (status : Byte) : Nat := (status &&& 0x7F#8).toNat

/-- R159: `Drain()`. -/
def drain (P : Params) (s : State) : State :=
  let st := readReg P.regFifoStatus s
  let n := fifoLevel st.1
  if n = 0 then st.2
  else
    let r := readCont regFifo n st.2
    r.1.foldl (fun t b => ringPush P b t) r.2

/-! ### The IRQ wait (R156) -/

/-- R157, R302: what may happen before the next look at the flags: an edge, if the environment presents one. -/
def pollEdge (s : State) : State :=
  let r := s.env.edge
  if r.1 then irqHandler { s with env := r.2 } else { s with env := r.2 }

/-- R156: `wait until s.irq_flag or s.timeout_flag`: the flags are looked at, an edge may come, and a millisecond passes; `n`
is the number of milliseconds left (log entry 5). -/
def waitLoop (n : Nat) (s : State) : State :=
  if s.irqFlag then s
  else
    match n with
    | 0 => pollEdge s
    | n + 1 =>
      let t := pollEdge s
      if t.irqFlag || t.timeoutFlag then t else waitLoop n (msTickStep t)

/-- R156: the causes after which the received bytes are drained. -/
def drains (c : IrqCause) : Bool := c == .rxComplete || c == .fifoHigh || c == .collision

/-- R156: `IRQ_WAIT(t)`, as an operation and inside others. -/
def irqWait (P : Params) (ms : BitVec 16) (s : State) : IrqCause × State :=
  let w := waitLoop ms.toNat { s with timeoutFlag := ms == 0, countdown := ms }
  if w.irqFlag then
    let r := readReg P.regIrqStatus { w with irqFlag := false, countdown := 0 }
    let cause := P.irqClassify r.1
    (cause, if drains cause then drain P r.2 else r.2)
  else (.timeout, w)

/-! ### The FIFO write (R154) -/

/-- R154: the pieces after the first, each after a wait that returns `FIFO_LOW`; any other cause ends the write and is
returned. `n` bounds the number of pieces. -/
def fifoFeed (P : Params) (n : Nat) (rest : List Byte) (s : State) : Option IrqCause × State :=
  match n with
  | 0 => (none, s)
  | n + 1 =>
    if rest.isEmpty then (none, s)
    else
      let r := irqWait P P.tTxMs s
      if r.1 = .fifoLow then
        fifoFeed P n (rest.drop P.fifoRefill) (writeCont regFifo (rest.take P.fifoRefill) r.2)
      else (some r.1, r.2)

/-- R154: `FIFO_WRITE(n, data)`: none when it is done, the cause when `FIFO_REFILL_FAIL` is raised. -/
def fifoWrite (P : Params) (data : List Byte) (s : State) : Option IrqCause × State :=
  if data.isEmpty then (none, s)
  else fifoFeed P data.length (data.drop fifoSplit) (writeCont regFifo (data.take fifoSplit) s)

/-! ### The exchange (R162, R245) -/

/-- R162: the receive loop; `n` is the number of `FIFO_HIGH` rounds still allowed. -/
def receiveLoop (P : Params) (kind : ExchKind) (bb : Nat) (n : Nat) (s : State) : ExchResult × State :=
  let r := irqWait P P.tRxMs s
  match r.1 with
  | .fifoHigh =>
    match n with
    | 0 => (.error .fifoHigh, r.2)
    | n + 1 => receiveLoop P kind bb n r.2
  | .rxComplete =>
    let p := ringPopAll P r.2
    (.frame (P.rxUnpack kind bb p.1) none, p.2)
  | .collision =>
    let raw := readReg P.regCollPos r.2
    let p := ringPopAll P raw.2
    (.frame (P.rxUnpack kind bb p.1) (some (P.collPosDecode kind raw.1)), p.2)
  | .timeout => (.noResponse, r.2)
  | .txComplete => (.error .txComplete, r.2)
  | .fifoLow => (.error .fifoLow, r.2)
  | .protocolError => (.error .protocolError, r.2)
  | .fieldChange => (.error .fieldChange, r.2)

/-- R162: the steps of an exchange up to the transmitted data: ISO control, FIFO reset with the ring, the transmit command,
the TX length. -/
def exchangeSetup (P : Params) (kind : ExchKind) (tx : List Bit) (s : State) : State :=
  let crc := kind == .standard
  let s1 := writeReg P.regIsoControl (if crc then P.isoctlARxCrc else P.isoctlANoRxCrc) s
  let s2 := ringClear P (directCmd P.cmdResetFifo s1)
  let s3 := directCmd (if crc then P.cmdTxCrc else P.cmdTxNocrc) s2
  writeCont regTxLen1 [txLen1 (tx.length / 8), txLen2 (tx.length / 8) (tx.length % 8)] s3

/-- R162: `ExchangeSeq(kind, tx, wantRx)`. -/
def exchangeSeq (P : Params) (kind : ExchKind) (tx : List Bit) (wantRx : Bool) (s : State) : ExchResult × State :=
  let f := fifoWrite P (packLsb tx) (exchangeSetup P kind tx s)
  match f.1 with
  | some c => (.error c, f.2)
  | none =>
    let r := irqWait P P.tTxMs f.2
    if r.1 = .txComplete then
      if wantRx then receiveLoop P kind (tx.length % 8) P.fifoMirrorCap r.2 else (.noResponse, r.2)
    else (.error r.1, r.2)

end Sys2Proof.Machine
end

