-- ==== Sys2Proof/Machine/Ace.lean ====
section
/-! DEFINITION. ACE: the anti-collision engine (spec/43_iso14443a.md R240 to R276) on the exchange of 40_seq.md R162. -/

namespace Sys2Proof.Machine

open Host (Outcome)

/-! ### The anti-collision record (R256, R257) -/

/-- Bit `p mod 8` of byte `p div 8` (R34); false beyond the array. -/
def bitAt (v : Vector Byte 15) (p : Nat) : Bit := (v.toList.getD (p / 8) 0).getLsbD (p % 8)

/-- A byte with one bit written. -/
def setByteBit (b : Byte) (i : Nat) (x : Bit) : Byte :=
  if x then b ||| ((1#8) <<< i) else b &&& ~~~((1#8) <<< i)

/-- Bit `p mod 8` of byte `p div 8` written (R34); nothing beyond the array. -/
def setBitAt (v : Vector Byte 15) (p : Nat) (x : Bit) : Vector Byte 15 :=
  v.setIfInBounds (p / 8) (setByteBit (v.toList.getD (p / 8) 0) (p % 8) x)

/-- R256: `UidBit(st, p)`. -/
def AnticolState.uidBit (st : AnticolState) (p : Nat) : Bit := bitAt st.uid p

/-- R256: `CollBit(st, p)`. -/
def AnticolState.collBit (st : AnticolState) (p : Nat) : Bit := bitAt st.coll p

/-- R256: `SetUidBit(st, p, v)`. -/
def AnticolState.setUidBit (st : AnticolState) (p : Nat) (x : Bit) : AnticolState := { st with uid := setBitAt st.uid p x }

/-- R256: `SetCollBit(st, p, v)`. -/
def AnticolState.setCollBit (st : AnticolState) (p : Nat) (x : Bit) : AnticolState := { st with coll := setBitAt st.coll p x }

/-- R258, R259: bits written at positions `p`, `p + 1`, ... -/
def AnticolState.setUidBits (st : AnticolState) (p : Nat) : List Bit → AnticolState
  | [] => st
  | b :: bs => AnticolState.setUidBits (st.setUidBit p b) (p + 1) bs

/-- R255: the position of a cascade level's first bit. -/
def levelBase (lvl : Nat) : Nat := levelBits * (lvl - 1)

/-- R257: `Known(st, lvl)`. -/
def AnticolState.known (st : AnticolState) (lvl : Nat) : Nat := min levelBits (st.bitPos - levelBase lvl)

/-- R255: the known bits of a level. -/
def AnticolState.knownBits (st : AnticolState) (lvl : Nat) : List Bit :=
  (List.range (st.known lvl)).map fun i => st.uidBit (levelBase lvl + i)

/-- R34: the five bytes of a cascade level. -/
def AnticolState.level (st : AnticolState) (lvl : Nat) : List Byte := (st.uid.toList.drop (5 * (lvl - 1))).take 5

/-- R268: the marker nearest below `n`. -/
def AnticolState.markerBelow (st : AnticolState) : Nat → Option Nat
  | 0 => none
  | n + 1 => if st.collBit n then some n else AnticolState.markerBelow st n

/-! ### Rounds (R258 to R262) -/

/-- R258: `MergeAll`. -/
def mergeAll (st : AnticolState) (base known : Nat) (bits : List Bit) : Except Status AnticolState :=
  if bits.length ≠ levelBits - known then .error .badLength
  else .ok { st.setUidBits (base + known) bits with bitPos := base + levelBits }

/-- R259: `MergeToCollision`. -/
def mergeToCollision (st : AnticolState) (base known : Nat) (bits : List Bit) (p : Nat) : Except Status AnticolState :=
  if p < known ∨ 39 < p then .error .badCollpos
  else if bits.length < p - known then .error .badLength
  else
    let merged := st.setUidBits (base + known) (bits.take (p - known))
    .ok { ((merged.setUidBit (base + p) false).setCollBit (base + p) true) with bitPos := base + p + 1 }

/-- R255, R246: what one ANTICOLLISION answer makes of the record. -/
def mergeAnswer (st : AnticolState) (lvl : Nat) (r : ExchResult) : Except Status AnticolState :=
  match r with
  | .noResponse => .error .noResponse
  | .error _ => .error .frameError
  | .frame bits none => mergeAll st (levelBase lvl) (st.known lvl) bits
  | .frame bits (some p) => mergeToCollision st (levelBase lvl) (st.known lvl) bits p

/-- R255: one ANTICOLLISION exchange. -/
def anticolExchange (P : Params) (lvl : Nat) (st : AnticolState) (s : State) : ExchResult × State :=
  exchangeSeq P .anticol (anticolFrame (P.rfSel lvl) (nvb (st.known lvl)) (st.knownBits lvl)) true s

/-- R255: the ANTICOLLISION rounds of a level, until its 40 bits are known; `n` bounds their number (R263: 40). -/
def anticolRounds (P : Params) (lvl : Nat) (n : Nat) (st : AnticolState) (s : State) :
    Except Status Unit × AnticolState × State :=
  match n with
  | 0 => (.ok (), st, s)
  | n + 1 =>
    if st.known lvl < levelBits then
      let r := anticolExchange P lvl st s
      match mergeAnswer st lvl r.1 with
      | .error e => (.error e, st, r.2)
      | .ok st' => anticolRounds P lvl n st' r.2
    else (.ok (), st, s)

/-- R260, R246: the SAK in the answer to a SELECT. -/
def sakOf (r : ExchResult) : Except Status Byte :=
  match r with
  | .noResponse => .error .noResponse
  | .error _ => .error .frameError
  | .frame _ (some _) => .error .frameError
  | .frame bits none => if bits.length ≠ 8 then .error .badLength else .ok (byteOfBits bits)

/-- R260: the exchange of `SelectLevel`. -/
def selectExchange (P : Params) (lvl : Nat) (st : AnticolState) (s : State) : ExchResult × State :=
  exchangeSeq P .standard (selectFrame (P.rfSel lvl) (st.level lvl)) true s

/-- R262: `AssembleUid(st, L)`: from every level but the last the last three of its first four bytes, from the last all
four. -/
def assembleUid (st : AnticolState) (levels : Nat) : List Byte :=
  (List.range levels).flatMap fun i =>
    if i + 1 < levels then ((st.level (i + 1)).take 4).drop 1 else (st.level (i + 1)).take 4

/-- R255: the loop over the cascade levels; `n` is the number of levels left, and none left is `CASCADE_OVERFLOW`. The result
is the UID and the last SAK. -/
def searchLevels (P : Params) (n lvl : Nat) (st : AnticolState) (s : State) :
    Except Status (List Byte × Byte) × AnticolState × State :=
  match n with
  | 0 => (.error .cascadeOverflow, st, s)
  | n + 1 =>
    match anticolRounds P lvl levelBits st s with
    | (.error e, st1, s1) => (.error e, st1, s1)
    | (.ok _, st1, s1) =>
      let r := selectExchange P lvl st1 s1
      match sakOf r.1 with
      | .error e => (.error e, st1, r.2)
      | .ok sak =>
        if sak.getLsbD 2 then searchLevels P n (lvl + 1) st1 r.2 else (.ok (assembleUid st1 lvl, sak), st1, r.2)

/-- R255: `DoAnticol(st)`. -/
def doAnticol (P : Params) (st : AnticolState) (s : State) : Except Status (List Byte × Byte) × AnticolState × State :=
  searchLevels P maxCascade 1 st s

/-- R101: `uidLen:u8, uid:bytes(uidLen), sak:u8`. -/
def uidResults (r : List Byte × Byte) : List Byte := BitVec.ofNat 8 r.1.length :: r.1 ++ [r.2]

/-- R255: `DoAnticol` on the singleton `s.acs`, which keeps what the search made of it, failed or not. -/
def doAnticolSingleton (P : Params) (s : State) : Except Status (List Byte) × State :=
  let r := doAnticol P s.acs s
  (r.1.map uidResults, { r.2.2 with acs := r.2.1 })

/-! ### REQA (R250) -/

/-- R250: what the answer to a short frame gives: the ATQA, or the status it ends with. -/
def atqaOf (r : ExchResult) : Except Status (List Byte) :=
  match r with
  | .noResponse => .error .noResponse
  | .error _ => .error .frameError
  | .frame bits none =>
    if bits.length ≠ 16 then .error .badLength
    else if (packLsb bits).headD 0 &&& atqaAnticolMask = 0 then .error .false_
    else .ok (packLsb bits)
  | .frame bits (some p) =>
    let atqa := packLsb ((bits ++ List.replicate 16 false).take 16)
    if p < 5 then .ok atqa
    else if atqa.headD 0 &&& atqaAnticolMask ≠ 0 then .ok atqa
    else .error .false_

/-- R250: `REQA(cmd)`, as an operation and inside others. -/
def reqa (P : Params) (cmd : BitVec 7) (s : State) : Except Status (List Byte) × State :=
  let r := exchangeSeq P .short (bitsN 7 cmd reqaBits) true s
  (atqaOf r.1, r.2)

/-! ### First, next, exact, halt (R265 to R276) -/

/-- R265: `SELECT_FIRST(cmd)`. -/
def selectFirst (P : Params) (cmd : BitVec 7) (s : State) : Except Status (List Byte) × State :=
  let r := reqa P cmd { s with acs := .zero }
  match r.1 with
  | .error e => (.error e, r.2)
  | .ok _ => doAnticolSingleton P r.2

/-- R268: the record turned to the branch of the marker at `p`. -/
def takeBranch (st : AnticolState) (p : Nat) : AnticolState :=
  { (st.setUidBit p true).setCollBit p false with bitPos := p + 1 }

/-- R268: `SELECT_NEXT(cmd)`. -/
def selectNext (P : Params) (cmd : BitVec 7) (s : State) : Except Status (List Byte) × State :=
  match s.acs.markerBelow s.acs.bitPos with
  | none => (.error .noBacktrack, s)
  | some p =>
    let r := reqa P cmd s
    match r.1 with
    | .error e => (.error e, r.2)
    | .ok _ => doAnticolSingleton P { r.2 with acs := takeBranch r.2.acs p }

/-- R272: the local record of `SELECT`: the levels of the UID, all known. -/
def selectRecord (uid : List Byte) : AnticolState :=
  let levels := cascadeLevels uid.length
  let bytes := (List.range levels).flatMap fun i => levelBytes uid levels (i + 1)
  { uid := Vector.ofFn fun i => bytes.getD i.val 0, coll := Vector.replicate 15 0, bitPos := levelBits * levels }

/-- R272: `SELECT(uidLen, uid)`; the record is local, so `s.acs` stays as it is. -/
def selectExact (P : Params) (uid : List Byte) (s : State) : Except Status (List Byte) × State :=
  let r := reqa P P.rfWupa s
  match r.1 with
  | .error e => (.error e, r.2)
  | .ok _ =>
    let q := doAnticol P (selectRecord uid) r.2
    match q.1 with
    | .error e => (.error e, q.2.2)
    | .ok (u, sak) => (if u.length ≠ uid.length then .error .uidLenMismatch else .ok [sak], q.2.2)

/-- R276: how `HALT` ends: only a transmission that did not complete fails. -/
def haltOf (r : ExchResult) : Except Status (List Byte) :=
  match r with
  | .error _ => .error .frameError
  | .noResponse => .ok []
  | .frame _ _ => .ok []

/-- R276: `HALT()`. -/
def halt (P : Params) (s : State) : Except Status (List Byte) × State :=
  let r := exchangeSeq P .standard (P.rfHlta.flatMap bits8) false s
  (haltOf r.1, r.2)

/-! ### The operations -/

/-- R250: the seven bits of a short-frame operand in range. -/
def low7 (cmd : Byte) : BitVec 7 := cmd.setWidth 7

/-- R250: `REQA`. -/
def execReqa (cmd : Byte) (s : State) : Outcome State Fault Refusal :=
  .next (issue (refusal (seqGuard s) (okShort cmd))
    (fun t => (answer (reqa params (low7 cmd) t).1, (reqa params (low7 cmd) t).2)) s)

/-- R255: `DO_ANTICOL`. -/
def execDoAnticol (s : State) : Outcome State Fault Refusal :=
  .next (issue (refusal (seqGuard s) true)
    (fun t => (answer (doAnticolSingleton params t).1, (doAnticolSingleton params t).2)) s)

/-- R265: `SELECT_FIRST`. -/
def execSelectFirst (cmd : Byte) (s : State) : Outcome State Fault Refusal :=
  .next (issue (refusal (seqGuard s) (okShort cmd))
    (fun t => (answer (selectFirst params (low7 cmd) t).1, (selectFirst params (low7 cmd) t).2)) s)

/-- R268: `SELECT_NEXT`. -/
def execSelectNext (cmd : Byte) (s : State) : Outcome State Fault Refusal :=
  .next (issue (refusal (seqGuard s) (okShort cmd))
    (fun t => (answer (selectNext params (low7 cmd) t).1, (selectNext params (low7 cmd) t).2)) s)

/-- R272: `SELECT`. -/
def execSelect (uidLen : Byte) (uid : List Byte) (s : State) : Outcome State Fault Refusal :=
  .next (issue (refusal (seqGuard s) (okSelect uidLen uid))
    (fun t => (answer (selectExact params uid t).1, (selectExact params uid t).2)) s)

/-- R276: `HALT`. -/
def execHalt (s : State) : Outcome State Fault Refusal :=
  .next (issue (refusal (seqGuard s) true) (fun t => (answer (halt params t).1, (halt params t).2)) s)

end Sys2Proof.Machine
end

