-- ==== Sys2Proof/Machine/Frames.lean ====
section
/-! DEFINITION. The RFA rows of the opcode table (spec/30_encoding.md R106 to R114): a frame by itself is the exchange that
carries it (43_iso14443a.md R245, 40_seq.md R162), and its response is the exchange's result, or
the status of its refusal (DESIGN CHOICE, log entry 18): R99 gives a response to host commands only. -/

namespace Sys2Proof.Machine

open Host (Outcome)

/-- R245: a frame carried over the transport, refused as R103 says when its operands are in no frame that ACE builds. -/
def frameExchange (operandsOk : Bool) (kind : ExchKind) (tx : List Bit) (wantRx : Bool) (s : State) : State :=
  issue (refusal (seqGuard s) operandsOk)
    (fun t => (.exchange (exchangeSeq params kind tx wantRx t).1, (exchangeSeq params kind tx wantRx t).2)) s

/-- R106: `RF_REQA`. -/
def execRfReqa (s : State) : Outcome State Fault Refusal :=
  .next (frameExchange true .short (bitsN 7 params.rfReqa reqaBits) true s)

/-- R106: `RF_WUPA`. -/
def execRfWupa (s : State) : Outcome State Fault Refusal :=
  .next (frameExchange true .short (bitsN 7 params.rfWupa reqaBits) true s)

/-- R108: `ANTICOLLISION` at cascade level 1. -/
def execRfAnticollisionCl1 (nvbByte : Byte) (known : List Bit) (s : State) : Outcome State Fault Refusal :=
  .next (frameExchange (okAnticol nvbByte known) .anticol (anticolFrame (params.rfSel 1) nvbByte known) true s)

/-- R108: `ANTICOLLISION` at cascade level 2. -/
def execRfAnticollisionCl2 (nvbByte : Byte) (known : List Bit) (s : State) : Outcome State Fault Refusal :=
  .next (frameExchange (okAnticol nvbByte known) .anticol (anticolFrame (params.rfSel 2) nvbByte known) true s)

/-- R108: `ANTICOLLISION` at cascade level 3. -/
def execRfAnticollisionCl3 (nvbByte : Byte) (known : List Bit) (s : State) : Outcome State Fault Refusal :=
  .next (frameExchange (okAnticol nvbByte known) .anticol (anticolFrame (params.rfSel 3) nvbByte known) true s)

/-- R114: `SELECT` at cascade level 1. -/
def execRfSelectCl1 (level : List Byte) (s : State) : Outcome State Fault Refusal :=
  .next (frameExchange (okLevel level) .standard (selectFrame (params.rfSel 1) level) true s)

/-- R114: `SELECT` at cascade level 2. -/
def execRfSelectCl2 (level : List Byte) (s : State) : Outcome State Fault Refusal :=
  .next (frameExchange (okLevel level) .standard (selectFrame (params.rfSel 2) level) true s)

/-- R114: `SELECT` at cascade level 3. -/
def execRfSelectCl3 (level : List Byte) (s : State) : Outcome State Fault Refusal :=
  .next (frameExchange (okLevel level) .standard (selectFrame (params.rfSel 3) level) true s)

/-- R114: `HLTA`; no answer is expected. -/
def execRfHlta (s : State) : Outcome State Fault Refusal :=
  .next (frameExchange true .standard (params.rfHlta.flatMap bits8) false s)

end Sys2Proof.Machine
end

