-- ==== Sys2Proof/Machine/Phy.lean ====
section
/-! DEFINITION. PHY: direct mode, the modulator and the sampler (spec/41_phy.md R180 to R206, 30_encoding.md R115 to R120),
and the MOD rows of the opcode table (log entry 20). -/

namespace Sys2Proof.Machine

open Host (Outcome)

/-! ### Modulation -/

/-- R116, R117: the slots of the sequence chosen for a data bit after `prev` (none for the first data bit). -/
def seqSlots (rule : MillerRule) (prev : Option Bit) (b : Bit) : List Bit :=
  match rule, prev, b with
  | _, _, true => slotsX
  | _, none, false => slotsZ
  | .source, some true, false => slotsZ
  | .source, some false, false => slotsY
  | .iso, some true, false => slotsY
  | .iso, some false, false => slotsZ

/-- R188: the sequences of the data bits, then the end of frame of R119: a 0 after the last bit, and Y. -/
def dataSlots (rule : MillerRule) (prev : Option Bit) : List Bit → List Bit
  | [] => seqSlots rule prev false ++ slotsY
  | b :: bs => seqSlots rule prev b ++ dataSlots rule (some b) bs

/-- R188: the slots of a frame; none at all for an empty one; R118: the start symbol. -/
def frameSlots (P : Params) (tx : List Bit) : List Bit :=
  if tx.isEmpty then [] else (if P.txSof then slotsZ else []) ++ dataSlots P.millerRule none tx

/-- R188: one `Mod` event a slot. -/
def emitSlots (slots : List Bit) (s : State) : State := s.emit (slots.map .mod)

/-- R188: `Modulate(tx)`. -/
def modulate (P : Params) (tx : List Bit) (s : State) : State := emitSlots (frameSlots P tx) s

/-- R187: `SendBits`: `nB` whole elements of 8 or 9 bits, then `nb` bits of the next one. -/
def sendBits (mode : Byte) (send : List Unit16) (nB nb : Nat) : List Bit :=
  (send.take nB).flatMap (fun u => bitsN 16 u (unitBits mode)) ++ bitsN 16 (send.getD nB 0) nb

/-! ### Reception -/

/-- R191: one `Sample` event, its value drawn. -/
def sampleStep (s : State) : Bit × State :=
  let r := s.env.sample
  (r.1, ({ s with env := r.2 } : State).emit [.sample r.1])

/-- R192: the start wait: at most `n` samples, until one is 1. -/
def startWait (n : Nat) (s : State) : Bool × State :=
  match n with
  | 0 => (false, s)
  | n + 1 =>
    let r := sampleStep s
    if r.1 then (true, r.2) else startWait n r.2

/-- R200: the number of samples of 0 at the end, one sample later. -/
def silence (sil : Nat) (a : Bit) : Nat := if a then 0 else sil + 1

/-- R200, R201: the sampling loop after the first active sample. `n` is the fuel left, `sil` the number of samples of 0 at the
end of `taken`, the samples so far; it ends when `cap` bits are decoded, on silence, or with no fuel. -/
def rxLoop (P : Params) (cap : Nat) (n sil : Nat) (taken : List Bit) (s : State) : List Bit × State :=
  match n with
  | 0 => ((P.rxDecode taken).take cap, s)
  | n + 1 =>
    let r := sampleStep s
    let now := taken ++ [r.1]
    let quiet := silence sil r.1
    let out := (P.rxDecode now).take cap
    if out.length = cap ∨ rxSilence ≤ quiet then (out, r.2) else rxLoop P cap n quiet now r.2

/-- R200: `Receive(cap)`. -/
def receive (P : Params) (cap : Nat) (s : State) : List Bit × State :=
  let r := startWait P.rxStartTimeout s
  if r.1 then rxLoop P cap (P.rxMaxSamples cap) 0 [true] r.2 else ([], r.2)

/-- R202: the elements of `recv`: `u` bits each, first received bit in bit 0. -/
def packUnits (u : Nat) (rx : List Bit) : List Unit16 := (chunks u rx).map fun c => BitVec.ofNat 16 (bitsToNat c)

/-- R101, R202: the results of `DM_TRANSCEIVE`: the counts of what was stored, then its elements. -/
def packResults (mode : Byte) (rx : List Bit) : List Byte :=
  let u := unitBits mode
  u16Bytes (BitVec.ofNat 16 (rx.length / u)) ++ BitVec.ofNat 8 (rx.length % u) :: sendBytesOf mode (packUnits u rx)

/-! ### The operations -/

/-- R181: the effect of `DM_ENABLE`; nothing at all when direct mode is already enabled. -/
def enableDirect (P : Params) (mode : Byte) (s : State) : State :=
  if s.dmEnabled then s
  else
    let e := P.dmEnterSeq mode
    let s1 := csLow (writeRegs e.pre s)
    let s2 := s1.emit (.spiOut (spiWriteContByte e.addr) :: e.data.map .spiOut)
    let s3 := ({ s2 with sessionOpen := true } : State).emit [.pinMode .gpioInput]
    { s3 with rxPinMode := .gpioInput, dmCfg := mode, dmEnabled := true }

/-- R183, R184: the effect of `DM_DISABLE`; nothing at all when direct mode is not enabled, also right after reset, where R323
item 2 says otherwise (DEDUCED, log entry 28). -/
def disableDirect (P : Params) (s : State) : State :=
  if s.dmEnabled then
    let s1 := { csHigh s with sessionOpen := false }
    let s2 := { s1.emit [.pinMode .spiFunction] with rxPinMode := .spiFunction }
    let s3 := directCmd P.cmdSoftInit (directCmd P.cmdResetFifo s2)
    { writeRegs P.iso14443aRegInit s3 with dmEnabled := false }
  else s

/-- R185: the capacity of a receive in bits. -/
def recvCap (mode : Byte) (recvBytes : BitVec 16) (recvBits : Byte) : Nat :=
  recvBytes.toNat * unitBits mode + recvBits.toNat

/-- R185, R190: the critical section of `DM_TRANSCEIVE`: interrupts masked, the frame sent, the answer received, the enable
back at its value on entry. -/
def transceive (P : Params) (tx : List Bit) (cap : Nat) (s : State) : List Bit × State :=
  let saved := s.hostIe
  let s1 := ({ s with hostIe := false } : State).emit [.intMask true]
  let s2 := modulate P tx s1
  let r := if cap = 0 then ([], s2) else receive P cap s2
  (r.1, ({ r.2 with hostIe := saved } : State).emit [.intMask false])

/-- R181: `DM_ENABLE`. -/
def execDmEnable (mode : Byte) (s : State) : Outcome State Fault Refusal :=
  .next (issue (refusal (enableGuard s) true) (fun t => (.status .ok [], enableDirect params mode t)) s)

/-- R183: `DM_DISABLE`. -/
def execDmDisable (s : State) : Outcome State Fault Refusal :=
  .next (issue none (fun t => (.status .ok [], disableDirect params t)) s)

/-- R185: `DM_TRANSCEIVE`. -/
def execDmTransceive (mode : Byte) (sendBytes : BitVec 16) (sendBitCount : Byte) (recvBytes : BitVec 16) (recvBits : Byte)
    (send : List Unit16) (s : State) : Outcome State Fault Refusal :=
  .next (issue (refusal (phyGuard s) (okTransceive mode sendBytes sendBitCount recvBits send))
    (fun t =>
      let r := transceive params (sendBits mode send sendBytes.toNat sendBitCount.toNat) (recvCap mode recvBytes recvBits) t
      (.status .ok (packResults mode r.1), r.2)) s)

/-! ### The modulation sequences, each by itself (R115, log entry 20)

That a sequence issued by itself hands back a status, `OK` with no results or the refusal, is the model's choice (DESIGN CHOICE,
log entry 20): R99 gives a response to host commands only. -/

/-- R115: `SEQ_X`, the pulse in slot 2. -/
def execSeqX (s : State) : Outcome State Fault Refusal :=
  .next (issue (refusal (phyGuard s) true) (fun t => (.status .ok [], emitSlots slotsX t)) s)

/-- R115: `SEQ_Y`, no pulse. -/
def execSeqY (s : State) : Outcome State Fault Refusal :=
  .next (issue (refusal (phyGuard s) true) (fun t => (.status .ok [], emitSlots slotsY t)) s)

/-- R115: `SEQ_Z`, the pulse in slot 0. -/
def execSeqZ (s : State) : Outcome State Fault Refusal :=
  .next (issue (refusal (phyGuard s) true) (fun t => (.status .ok [], emitSlots slotsZ t)) s)

end Sys2Proof.Machine
end

