-- ==== Sys2Proof/Machine/Seq.lean ====
section
/-! DEFINITION. The meanings of the SEQ operations (spec/40_seq.md R140 to R156) and of the SPI rows of the opcode table
(30_encoding.md R93, R98), each of which is the one transaction that its form is (log entry 19). -/

namespace Sys2Proof.Machine

open Host (Outcome)

/-- An operation of no results: `OK` alone (R99; for an SPI row by itself log entry 19). -/
def doneWith (s : State) : Response × State := (.status .ok [], s)

/-- R141: `CS_ASSERT`. -/
def execCsAssert (s : State) : Outcome State Fault Refusal :=
  .next (issue (refusal (seqGuard s) true) (fun t => doneWith (if t.cs then t else csLow t)) s)

/-- R142: `CS_DEASSERT`. -/
def execCsDeassert (s : State) : Outcome State Fault Refusal :=
  .next (issue (refusal (seqGuard s) true) (fun t => doneWith (if t.cs then csHigh t else t)) s)

/-- R144: `WRITE_REG`. -/
def execWriteReg (addr val : Byte) (s : State) : Outcome State Fault Refusal :=
  .next (issue (refusal (seqGuard s) (okAddr addr)) (fun t => doneWith (writeReg (low5 addr) val t)) s)

/-- R146: `READ_REG`. -/
def execReadReg (addr : Byte) (s : State) : Outcome State Fault Refusal :=
  .next (issue (refusal (seqGuard s) (okAddr addr))
    (fun t => (.status .ok [(readReg (low5 addr) t).1], (readReg (low5 addr) t).2)) s)

/-- R148: `WRITE_CONT`. -/
def execWriteCont (addr n : Byte) (data : List Byte) (s : State) : Outcome State Fault Refusal :=
  .next (issue (refusal (seqGuard s) (okWriteCont addr n data)) (fun t => doneWith (writeCont (low5 addr) data t)) s)

/-- R150: `READ_CONT`. -/
def execReadCont (addr n : Byte) (s : State) : Outcome State Fault Refusal :=
  .next (issue (refusal (seqGuard s) (okCont addr n))
    (fun t => (.status .ok (readCont (low5 addr) n.toNat t).1, (readCont (low5 addr) n.toNat t).2)) s)

/-- R152: `DIRECT_CMD`. -/
def execDirectCmd (code : Byte) (s : State) : Outcome State Fault Refusal :=
  .next (issue (refusal (seqGuard s) (okCode code)) (fun t => doneWith (directCmd (low5 code) t)) s)

/-- R154: how a FIFO write ends: a wait that returned another cause than `FIFO_LOW` raises `FIFO_REFILL_FAIL`. -/
def fifoWriteAnswer (r : Option IrqCause) : Response :=
  answer (match r with | none => .ok [] | some _ => .error .fifoRefillFail)

/-- R154: `FIFO_WRITE`. -/
def execFifoWrite (n : BitVec 16) (data : List Byte) (s : State) : Outcome State Fault Refusal :=
  .next (issue (refusal (seqGuard s) (okFifoWrite n data))
    (fun t => (fifoWriteAnswer (fifoWrite params data t).1, (fifoWrite params data t).2)) s)

/-- R156: `IRQ_WAIT`. -/
def execIrqWait (timeoutMs : BitVec 16) (s : State) : Outcome State Fault Refusal :=
  .next (issue (refusal (seqGuard s) true)
    (fun t => (.status .ok [causeCode (irqWait params timeoutMs t).1], (irqWait params timeoutMs t).2)) s)

/-! ### The SPI rows

What a row issued by itself hands back is the model's choice (DESIGN CHOICE, log entry 19): R99 gives a response to host commands
only. Here it is the response of the host operation whose transaction the row is: `OK` with the bytes read, if any, or the
refusal. -/

/-- R93: the single-write form, as `WRITE_REG` emits it (R144). -/
def execSpiWriteSingle (a : BitVec 5) (val : Byte) (s : State) : Outcome State Fault Refusal :=
  .next (issue (refusal (seqGuard s) true) (fun t => doneWith (writeReg a val t)) s)

/-- R93: the continuous-write form, as `WRITE_CONT` and `FIFO_WRITE` emit it (R148, R154); the span is that of R68. -/
def execSpiWriteCont (a : BitVec 5) (data : List Byte) (s : State) : Outcome State Fault Refusal :=
  .next (issue (refusal (seqGuard s) (okContSpan a.toNat data.length)) (fun t => doneWith (writeCont a data t)) s)

/-- R93: the single-read form, as `READ_REG` emits it (R146); that it answers `OK` with the byte is log entry 19. -/
def execSpiReadSingle (a : BitVec 5) (s : State) : Outcome State Fault Refusal :=
  .next (issue (refusal (seqGuard s) true) (fun t => (.status .ok [(readReg a t).1], (readReg a t).2)) s)

/-- R93: the continuous-read form, as `READ_CONT` emits it (R150); the span is that of R68; that it answers `OK` with the bytes
is log entry 19. -/
def execSpiReadCont (a : BitVec 5) (n : Byte) (s : State) : Outcome State Fault Refusal :=
  .next (issue (refusal (seqGuard s) (okContSpan a.toNat n.toNat))
    (fun t => (.status .ok (readCont a n.toNat t).1, (readCont a n.toNat t).2)) s)

/-- R93: the direct-command form, as `DIRECT_CMD` emits it (R152). -/
def execSpiDirectCmd (c : BitVec 5) (s : State) : Outcome State Fault Refusal :=
  .next (issue (refusal (seqGuard s) true) (fun t => doneWith (directCmd c t)) s)

/-- R98: `CMD_SOFT_INIT`. -/
def execCmdSoftInit (s : State) : Outcome State Fault Refusal :=
  .next (issue (refusal (seqGuard s) true) (fun t => doneWith (directCmd params.cmdSoftInit t)) s)

/-- R98: `CMD_RESET_FIFO`; the ring is not cleared (R332). -/
def execCmdResetFifo (s : State) : Outcome State Fault Refusal :=
  .next (issue (refusal (seqGuard s) true) (fun t => doneWith (directCmd params.cmdResetFifo t)) s)

/-- R98: `CMD_TX_NOCRC`. -/
def execCmdTxNocrc (s : State) : Outcome State Fault Refusal :=
  .next (issue (refusal (seqGuard s) true) (fun t => doneWith (directCmd params.cmdTxNocrc t)) s)

/-- R98: `CMD_TX_CRC`. -/
def execCmdTxCrc (s : State) : Outcome State Fault Refusal :=
  .next (issue (refusal (seqGuard s) true) (fun t => doneWith (directCmd params.cmdTxCrc t)) s)

end Sys2Proof.Machine
end

