-- ==== Sys2Proof/Machine/Utl.lean ====
section
/-! DEFINITION. UTL: parity and CRC over 16-bit units (spec/42_parity_crc.md R220 to R230). The operations read their operand
and return a result; they touch no block state, and no guard refuses them (R220). -/

namespace Sys2Proof.Machine

open Host (Outcome)

/-- R222: every unit rewritten with its odd parity. -/
def setParity (buf : List Unit16) : List Unit16 := buf.map fun u => parityUnit (payload u)

/-- R224: every unit's parity bit is that of its payload. -/
def checkParity (buf : List Unit16) : Bool := buf.all fun u => parityBit u == oddParity (payload u)

/-- R228: the units as given, then the CRC's low and high byte with their parity. -/
def appendCrc (buf : List Unit16) : List Unit16 :=
  let c := crcA (buf.map payload)
  buf ++ [parityUnit (c.setWidth 8), parityUnit ((c >>> 8).setWidth 8)]

/-- R230: the last two payload bytes are the CRC of those before, low byte first; false below two units. -/
def checkCrc (buf : List Unit16) : Bool :=
  let bytes := buf.map payload
  let c := crcA (bytes.take (bytes.length - 2))
  decide (2 ≤ bytes.length) && bytes.drop (bytes.length - 2) == [c.setWidth 8, (c >>> 8).setWidth 8]

/-- R224, R230: a Boolean result is the status. -/
def predicateAnswer (b : Bool) : Response := answer (if b then .ok [] else .error .false_)

/-- R222: `SET_PARITY`. -/
def execSetParity (n : BitVec 16) (buf : List Unit16) (s : State) : Outcome State Fault Refusal :=
  .next (issue (refusal none (okUnits n buf)) (fun t => (.status .ok (unitsBytes (setParity buf)), t)) s)

/-- R224: `CHECK_PARITY`. -/
def execCheckParity (n : BitVec 16) (buf : List Unit16) (s : State) : Outcome State Fault Refusal :=
  .next (issue (refusal none (okUnits n buf)) (fun t => (predicateAnswer (checkParity buf), t)) s)

/-- R228: `APPEND_CRC`. -/
def execAppendCrc (n : BitVec 16) (buf : List Unit16) (s : State) : Outcome State Fault Refusal :=
  .next (issue (refusal none (okAppendCrc n buf)) (fun t => (.status .ok (unitsBytes (appendCrc buf)), t)) s)

/-- R230: `CHECK_CRC`. -/
def execCheckCrc (n : BitVec 16) (buf : List Unit16) (s : State) : Outcome State Fault Refusal :=
  .next (issue (refusal none (okUnits n buf)) (fun t => (predicateAnswer (checkCrc buf), t)) s)

end Sys2Proof.Machine
end

