-- ==== Sys2Proof/Machine/Dispatch.lean ====
section
/-! DEFINITION. One arm per instruction, each a direct call of its meaning. -/

namespace Sys2Proof.Machine

-- SEQ, PHY, UTL, ACE (30_encoding.md R100), the SPI forms (R93, R98), the RF frames (R106 to R114), the sequences (R115)
def exec (i : Instr) (s : State) : Host.Outcome State Fault Refusal :=
  match i with
  | .csAssert => Sys2Proof.Machine.execCsAssert s
  | .csDeassert => Sys2Proof.Machine.execCsDeassert s
  | .writeReg addr val => Sys2Proof.Machine.execWriteReg addr val s
  | .readReg addr => Sys2Proof.Machine.execReadReg addr s
  | .writeCont addr n data => Sys2Proof.Machine.execWriteCont addr n data s
  | .readCont addr n => Sys2Proof.Machine.execReadCont addr n s
  | .directCmd code => Sys2Proof.Machine.execDirectCmd code s
  | .fifoWrite n data => Sys2Proof.Machine.execFifoWrite n data s
  | .irqWait timeoutMs => Sys2Proof.Machine.execIrqWait timeoutMs s
  | .dmEnable mode => Sys2Proof.Machine.execDmEnable mode s
  | .dmDisable => Sys2Proof.Machine.execDmDisable s
  | .dmTransceive mode sendBytes sendBits recvBytes recvBits send => Sys2Proof.Machine.execDmTransceive mode sendBytes sendBits recvBytes recvBits send s
  | .setParity n buf => Sys2Proof.Machine.execSetParity n buf s
  | .checkParity n buf => Sys2Proof.Machine.execCheckParity n buf s
  | .appendCrc n buf => Sys2Proof.Machine.execAppendCrc n buf s
  | .checkCrc n buf => Sys2Proof.Machine.execCheckCrc n buf s
  | .reqa cmd => Sys2Proof.Machine.execReqa cmd s
  | .doAnticol => Sys2Proof.Machine.execDoAnticol s
  | .selectFirst cmd => Sys2Proof.Machine.execSelectFirst cmd s
  | .selectNext cmd => Sys2Proof.Machine.execSelectNext cmd s
  | .select uidLen uid => Sys2Proof.Machine.execSelect uidLen uid s
  | .halt => Sys2Proof.Machine.execHalt s
  | .spiWriteSingle a val => Sys2Proof.Machine.execSpiWriteSingle a val s
  | .spiWriteCont a data => Sys2Proof.Machine.execSpiWriteCont a data s
  | .spiReadSingle a => Sys2Proof.Machine.execSpiReadSingle a s
  | .spiReadCont a n => Sys2Proof.Machine.execSpiReadCont a n s
  | .spiDirectCmd c => Sys2Proof.Machine.execSpiDirectCmd c s
  | .cmdSoftInit => Sys2Proof.Machine.execCmdSoftInit s
  | .cmdResetFifo => Sys2Proof.Machine.execCmdResetFifo s
  | .cmdTxNocrc => Sys2Proof.Machine.execCmdTxNocrc s
  | .cmdTxCrc => Sys2Proof.Machine.execCmdTxCrc s
  | .rfReqa => Sys2Proof.Machine.execRfReqa s
  | .rfWupa => Sys2Proof.Machine.execRfWupa s
  | .rfAnticollisionCl1 nvbByte known => Sys2Proof.Machine.execRfAnticollisionCl1 nvbByte known s
  | .rfAnticollisionCl2 nvbByte known => Sys2Proof.Machine.execRfAnticollisionCl2 nvbByte known s
  | .rfAnticollisionCl3 nvbByte known => Sys2Proof.Machine.execRfAnticollisionCl3 nvbByte known s
  | .rfSelectCl1 level => Sys2Proof.Machine.execRfSelectCl1 level s
  | .rfSelectCl2 level => Sys2Proof.Machine.execRfSelectCl2 level s
  | .rfSelectCl3 level => Sys2Proof.Machine.execRfSelectCl3 level s
  | .rfHlta => Sys2Proof.Machine.execRfHlta s
  | .seqX => Sys2Proof.Machine.execSeqX s
  | .seqY => Sys2Proof.Machine.execSeqY s
  | .seqZ => Sys2Proof.Machine.execSeqZ s

end Sys2Proof.Machine
end

