-- ==== Sys2Proof/Machine/Step.lean ====
section
/-! DEFINITION. One step: the head of the inputs is taken (spec/00_scope.md R8, 10_state.md R22). An operation's code word is
decoded and run to its end; an IRQ edge, a millisecond and the host's interrupt enable are steps of their own (R157, R163,
R33). With no input the block waits (log entries 2, 6, 24). -/

namespace Sys2Proof.Machine

/-- A code word taken from the inputs: the decoded instruction's `exec`; a reserved opcode and a malformed command are refused
by status (R103, R293); a word of the other formats that is no instruction stops the machine by name. -/
def runWord (w : CodeWord) (s : State) : Host.Outcome State Fault Refusal :=
  match decode w with
  | .ok i => exec i s
  | .error .illegalOp => .next (issueIllegal s)
  | .error (.badOperand op) => .next (issueMalformed op s)
  | .error .reservedSpi => .refused .reservedSpi
  | .error .unknownFrame => .refused .unknownFrame
  | .error .unknownSequence => .refused .unknownSequence

/-- One step of the machine. -/
def step (s : State) : Host.Outcome State Fault Refusal :=
  match s.inputs with
  | [] => .next s
  | .op w :: rest => runWord w { s with inputs := rest }
  | .irqEdge :: rest => .next (irqHandler { s with inputs := rest })
  | .msTick :: rest => .next (msTickStep { s with inputs := rest })
  | .hostIe on :: rest => .next { s with inputs := rest, hostIe := on }

/-- The state with an instruction as its next input, from its bits as spec/opcode_table.json numbers them (log entries 2,
3). -/
def State.withFetchWord (s : State) (nbits w : Nat) : State :=
  { s with inputs := .op (tableCode nbits w) :: s.inputs }

end Sys2Proof.Machine
end

