-- ==== Sys2Proof/Safety.lean ====
section
/-! DEFINITION. The terms claims are made in: when an operation may start, what an exchange may write, the invariant of the
block state (spec/10_state.md R25, R31, R34, R35, R45; 40_seq.md R160), runs without a fault mark (R45), and the sample stream
of a well-formed answer (30_encoding.md R120). -/

namespace Sys2Proof.Machine

/-- R23, R140: no operation runs and no session is open, so a SEQ or ACE operation may start. -/
abbrev State.SeqReady (s : State) : Prop := s.busy = false ∧ s.sessionOpen = false

/-- R23: the block with an operation running. -/
def State.running (s : State) : State := { s with busy := true }

/-- R292: the block with the operation at its end, its response handed back. -/
def State.ended (s : State) (r : Response) : State := ({ s with busy := false } : State).respond r

/-- R293: the instruction is refused with the status: nothing changes, nothing is emitted, the response is the status. -/
def RefusedIn (i : Instr) (s : State) (st : Status) : Prop := exec i s = .next (s.respond (.status st []))

/-- R140: the instruction is refused while the direct-mode session is open. -/
def SessionGuarded (i : Instr) : Prop :=
  ∀ s : State, s.busy = false → s.sessionOpen = true → RefusedIn i s .seqSessionOpen

/-- R45: the premise of a claim about a run. -/
def State.FaultFree (s : State) : Prop := s.faults = []

/-- R143: events inside a chip-select window of the transaction's own, or inside the one the host holds. -/
def inWindow (held : Bool) (es : List Event) : List Event := if held then es else .csLow :: es ++ [.csHigh]

/-- Nothing differs but what an IRQ wait, a FIFO write or an exchange may write (R156, R162): the IRQ and timeout flags, the
countdown, the ring with its overflow marks, the trace and the environment's answers. -/
def ExchangeWrites (s t : State) : Prop :=
  t = { s with irqFlag := t.irqFlag, timeoutFlag := t.timeoutFlag, countdown := t.countdown, ring := t.ring,
               fifoOvf := t.fifoOvf, faults := t.faults, trace := t.trace, env := t.env }

/-- R30, R44, R160: a ring of capacity `cap`. The indices are in range and its cells in canonical form; while nothing has
overflowed the write index is `count` cells after the read index, and every cell in use has been written. -/
structure Ring.Inv (cap : Nat) (overflowed : Bool) (r : Ring) : Prop where
  canonical : Memory.wf r.buf = true
  inside : ∀ c ∈ r.buf, c.1 < cap
  rd_lt : r.rd < cap
  wr_lt : r.wr < cap
  count_le : r.count ≤ cap
  linked : overflowed = false → r.wr = (r.rd + r.count) % cap
  live : overflowed = false → ∀ j, j < r.count → (Memory.read r.buf ((r.rd + j) % cap)).isSome = true

/-- R160: the bytes in the ring, oldest first. -/
def Ring.contents (cap : Nat) (r : Ring) : List Byte := (List.range r.count).map fun j => r.cell ((r.rd + j) % cap)

/-- R34, R35(c), R35(d): every marker is at a position below `bitPos`, and the UID bit there is 0. -/
structure AnticolState.Inv (st : AnticolState) : Prop where
  bitPos_le : st.bitPos ≤ 120
  marker_lt : ∀ p, st.collBit p = true → p < st.bitPos
  marker_zero : ∀ p, st.collBit p = true → st.uidBit p = false

/-- The invariant of the block state between operations: the session is open exactly while direct mode is enabled (R25), and
then the chip select is asserted and the RX pin an input (R181, R183); no wait is in progress (R306); the fault mark says what
the overflow flag says (R45); the ring and the anti-collision record keep their own invariants (R30, R35, R160). -/
structure State.Inv (s : State) : Prop where
  session : s.sessionOpen = s.dmEnabled
  window : s.sessionOpen = true → s.cs = true
  pin : s.rxPinMode = if s.dmEnabled then .gpioInput else .spiFunction
  noWait : s.countdown = 0
  mark : s.faults = if s.fifoOvf then [.fifoOverflow] else []
  ring : s.ring.Inv params.fifoMirrorCap s.fifoOvf
  acs : s.acs.Inv

/-- R101, R292: the response to a search: the UID with its length and the SAK, or the failure. -/
def searchAnswer : Except Status (List Byte × Byte) → Response
  | .ok (uid, sak) => .status .ok (BitVec.ofNat 8 uid.length :: uid ++ [sak])
  | .error e => .status e []

/-- R154: the loop that feeds the pieces of a FIFO write after the first: `FifoFeeds P rest s c t` says that with `rest` still
to send in `s` it ends in `t`, with no cause when all is sent and with the cause of the wait that was not `FIFO_LOW` when it
gives up. -/
inductive FifoFeeds (P : Params) : List Byte → State → Option IrqCause → State → Prop
  | done (s : State) : FifoFeeds P [] s none s
  | more (rest : List Byte) (s t : State) (c : Option IrqCause) (hne : rest ≠ [])
      (hlow : (irqWait P P.tTxMs s).1 = .fifoLow)
      (next : FifoFeeds P (rest.drop P.fifoRefill)
        (writeCont regFifo (rest.take P.fifoRefill) (irqWait P P.tTxMs s).2) c t) :
      FifoFeeds P rest s c t
  | fail (rest : List Byte) (s : State) (hne : rest ≠ []) (hlow : (irqWait P P.tTxMs s).1 ≠ .fifoLow) :
      FifoFeeds P rest s (some (irqWait P P.tTxMs s).1) (irqWait P P.tTxMs s).2

/-- R162: the receive loop, by the number `w` of `FIFO_HIGH` rounds already passed: `Receives P kind bb w s r t` says that from
`s` the answer is `r` and the state after it `t`. -/
inductive Receives (P : Params) (kind : ExchKind) (bb : Nat) : Nat → State → ExchResult → State → Prop
  /-- The bytes are in the ring, and the loop goes on. -/
  | high (w : Nat) (s t : State) (r : ExchResult) (hc : (irqWait P P.tRxMs s).1 = .fifoHigh)
      (hw : w + 1 ≤ P.fifoMirrorCap) (next : Receives P kind bb (w + 1) (irqWait P P.tRxMs s).2 r t) :
      Receives P kind bb w s r t
  /-- More `FIFO_HIGH` rounds than the ring has room for. -/
  | tooMany (w : Nat) (s : State) (hc : (irqWait P P.tRxMs s).1 = .fifoHigh) (hw : P.fifoMirrorCap < w + 1) :
      Receives P kind bb w s (.error .fifoHigh) (irqWait P P.tRxMs s).2
  /-- The whole answer is in the ring. -/
  | complete (w : Nat) (s t : State) (bytes : List Byte) (hc : (irqWait P P.tRxMs s).1 = .rxComplete)
      (hpop : ringPopAll P (irqWait P P.tRxMs s).2 = (bytes, t)) :
      Receives P kind bb w s (.frame (P.rxUnpack kind bb bytes) none) t
  /-- A collision: its position is read before the ring is emptied. -/
  | collision (w : Nat) (s u t : State) (raw : Byte) (bytes : List Byte) (hc : (irqWait P P.tRxMs s).1 = .collision)
      (hraw : readReg P.regCollPos (irqWait P P.tRxMs s).2 = (raw, u)) (hpop : ringPopAll P u = (bytes, t)) :
      Receives P kind bb w s (.frame (P.rxUnpack kind bb bytes) (some (P.collPosDecode kind raw))) t
  /-- Silence. -/
  | timeout (w : Nat) (s : State) (hc : (irqWait P P.tRxMs s).1 = .timeout) :
      Receives P kind bb w s .noResponse (irqWait P P.tRxMs s).2
  /-- "otherwise". -/
  | other (w : Nat) (s : State) (c : IrqCause) (hc : (irqWait P P.tRxMs s).1 = c)
      (hmem : c ∈ [IrqCause.protocolError, .txComplete, .fifoLow, .fieldChange]) :
      Receives P kind bb w s (.error c) (irqWait P P.tRxMs s).2

/-- R154, R162: the transmitted bytes: none, or the first 127 in one continuous write to the FIFO and the rest as `FifoFeeds`
says. -/
def FifoWrites (P : Params) (data : List Byte) (s : State) (c : Option IrqCause) (t : State) : Prop :=
  if data = [] then c = none ∧ t = s else FifoFeeds P (data.drop 127) (writeCont 0x1F (data.take 127) s) c t

/-- R162: the exchange, without the model's bounds: after its set-up the packed bits go to the FIFO, then the transmission is
waited for, then the answer if one is wanted. -/
inductive Exchanges (P : Params) (kind : ExchKind) (tx : List Bit) (wantRx : Bool) (s : State) : ExchResult → State → Prop
  /-- `FIFO_REFILL_FAIL`, turned into the error of its cause. -/
  | refillFails (c : IrqCause) (t : State) (hf : FifoWrites P (packLsb tx) (exchangeSetup P kind tx s) (some c) t) :
      Exchanges P kind tx wantRx s (.error c) t
  /-- The transmission did not complete. -/
  | notSent (t u : State) (c : IrqCause) (hf : FifoWrites P (packLsb tx) (exchangeSetup P kind tx s) none t)
      (hw : irqWait P P.tTxMs t = (c, u)) (hc : c ≠ .txComplete) :
      Exchanges P kind tx wantRx s (.error c) u
  /-- No answer is wanted, and none is waited for. -/
  | sent (t u : State) (hf : FifoWrites P (packLsb tx) (exchangeSetup P kind tx s) none t)
      (hw : irqWait P P.tTxMs t = (.txComplete, u)) (hrx : wantRx = false) :
      Exchanges P kind tx wantRx s .noResponse u
  /-- The answer is waited for. -/
  | answered (t u v : State) (r : ExchResult) (hf : FifoWrites P (packLsb tx) (exchangeSetup P kind tx s) none t)
      (hw : irqWait P P.tTxMs t = (.txComplete, u)) (hrx : wantRx = true)
      (next : Receives P kind (tx.length % 8) 0 u r v) :
      Exchanges P kind tx wantRx s r v

/-- R257: the formula of `Known(st, lvl)`. -/
def knownBits (lvl : Nat) (st : AnticolState) : Nat := min 40 (st.bitPos - 40 * (lvl - 1))

/-- R109: the formula of `NVB(k)`, on natural numbers. -/
def nvbByte (k : Nat) : Byte := BitVec.ofNat 8 (((2 + k / 8) <<< 4) ||| (k % 8))

/-- R255, R258 to R262: the search, without the model's bound on its rounds: `Search P lvl st s r st' t` says that at cascade
level `lvl`, with the record `st`, in `s`, it ends with `r`, the record `st'`, in `t`. -/
inductive Search (P : Params) :
    Nat → AnticolState → State → Except Status (List Byte × Byte) → AnticolState → State → Prop
  /-- "cascade level exceeds 3". -/
  | overflow (lvl : Nat) (st : AnticolState) (s : State) (hlvl : 3 < lvl) :
      Search P lvl st s (.error .cascadeOverflow) st s
  /-- An ANTICOLLISION round that fails: the record stays as the last successful round left it. -/
  | roundFails (lvl : Nat) (st : AnticolState) (s s' : State) (r : ExchResult) (e : Status) (hlvl : lvl ≤ 3)
      (hknown : knownBits lvl st < 40)
      (hx : exchangeSeq P .anticol (bits8 (P.rfSel lvl) ++ bits8 (nvbByte (knownBits lvl st)) ++
        (List.range (knownBits lvl st)).map fun i => st.uidBit (40 * (lvl - 1) + i)) true s = (r, s'))
      (he : (r = .noResponse ∧ e = .noResponse) ∨ ((∃ c, r = .error c) ∧ e = .frameError) ∨
        (∃ bits, r = .frame bits none ∧ mergeAll st (40 * (lvl - 1)) (knownBits lvl st) bits = .error e) ∨
        ∃ bits p, r = .frame bits (some p) ∧ mergeToCollision st (40 * (lvl - 1)) (knownBits lvl st) bits p = .error e) :
      Search P lvl st s (.error e) st s'
  /-- An ANTICOLLISION round whose answer is merged: the search stays at the level. -/
  | round (lvl : Nat) (st st1 st2 : AnticolState) (s s' t : State) (r : ExchResult)
      (u : Except Status (List Byte × Byte)) (hlvl : lvl ≤ 3) (hknown : knownBits lvl st < 40)
      (hx : exchangeSeq P .anticol (bits8 (P.rfSel lvl) ++ bits8 (nvbByte (knownBits lvl st)) ++
        (List.range (knownBits lvl st)).map fun i => st.uidBit (40 * (lvl - 1) + i)) true s = (r, s'))
      (hmerge : (∃ bits, r = .frame bits none ∧ mergeAll st (40 * (lvl - 1)) (knownBits lvl st) bits = .ok st1) ∨
        ∃ bits p, r = .frame bits (some p) ∧ mergeToCollision st (40 * (lvl - 1)) (knownBits lvl st) bits p = .ok st1)
      (next : Search P lvl st1 s' u st2 t) :
      Search P lvl st s u st2 t
  /-- A SELECT that fails. -/
  | selectFails (lvl : Nat) (st : AnticolState) (s s' : State) (r : ExchResult) (e : Status) (hlvl : lvl ≤ 3)
      (hknown : knownBits lvl st = 40)
      (hx : exchangeSeq P .standard (bits8 (P.rfSel lvl) ++ bits8 0x70 ++
        ((st.uid.toList.drop (5 * (lvl - 1))).take 5).flatMap bits8) true s = (r, s'))
      (he : (r = .noResponse ∧ e = .noResponse) ∨ ((∃ c, r = .error c) ∧ e = .frameError) ∨
        ((∃ bits p, r = .frame bits (some p)) ∧ e = .frameError) ∨
        ((∃ bits, r = .frame bits none ∧ bits.length ≠ 8) ∧ e = .badLength)) :
      Search P lvl st s (.error e) st s'
  /-- A SELECT whose SAK says "UID not complete". -/
  | selectMore (lvl : Nat) (st st2 : AnticolState) (s s' t : State) (sak : Byte)
      (u : Except Status (List Byte × Byte)) (hlvl : lvl ≤ 3) (hknown : knownBits lvl st = 40)
      (hx : exchangeSeq P .standard (bits8 (P.rfSel lvl) ++ bits8 0x70 ++
        ((st.uid.toList.drop (5 * (lvl - 1))).take 5).flatMap bits8) true s = (.frame (bits8 sak) none, s'))
      (hsak : sak.getLsbD 2 = true) (next : Search P (lvl + 1) st s' u st2 t) :
      Search P lvl st s u st2 t
  /-- A SELECT whose SAK ends the search. -/
  | selectLast (lvl : Nat) (st : AnticolState) (s s' : State) (sak : Byte) (hlvl : lvl ≤ 3) (hknown : knownBits lvl st = 40)
      (hx : exchangeSeq P .standard (bits8 (P.rfSel lvl) ++ bits8 0x70 ++
        ((st.uid.toList.drop (5 * (lvl - 1))).take 5).flatMap bits8) true s = (.frame (bits8 sak) none, s'))
      (hsak : sak.getLsbD 2 = false) :
      Search P lvl st s (.ok (assembleUid st lvl, sak)) st s'

/-- R120: the eight eighth-bit slots of a bit of an answer: sub-carrier in the first four for a 1, in the last four for a
0. -/
def answerBit (b : Bit) : List Bit := List.replicate 4 b ++ List.replicate 4 (!b)

/-- R120: the samples of a well-formed answer: the start bit of logic 1, then the data bits. -/
def answerSamples (bits : List Bit) : List Bit := (true :: bits).flatMap answerBit

/-- The instructions that run on SEQ: the SEQ and ACE operations (R140, R241), the SPI forms and the RF frames (log entries 18,
19). -/
def usesSeq : Instr → Bool
  | .csAssert | .csDeassert | .writeReg _ _ | .readReg _ | .writeCont _ _ _ | .readCont _ _ | .directCmd _
  | .fifoWrite _ _ | .irqWait _ => true
  | .dmEnable _ | .dmDisable | .dmTransceive _ _ _ _ _ _ => false
  | .setParity _ _ | .checkParity _ _ | .appendCrc _ _ | .checkCrc _ _ => false
  | .reqa _ | .doAnticol | .selectFirst _ | .selectNext _ | .select _ _ | .halt => true
  | .spiWriteSingle _ _ | .spiWriteCont _ _ | .spiReadSingle _ | .spiReadCont _ _ | .spiDirectCmd _
  | .cmdSoftInit | .cmdResetFifo | .cmdTxNocrc | .cmdTxCrc => true
  | .rfReqa | .rfWupa | .rfAnticollisionCl1 _ _ | .rfAnticollisionCl2 _ _ | .rfAnticollisionCl3 _ _
  | .rfSelectCl1 _ | .rfSelectCl2 _ | .rfSelectCl3 _ | .rfHlta => true
  | .seqX | .seqY | .seqZ => false

/-- R100: the host operation of an instruction; none for a row of another format. -/
def hostOp : Instr → Option HostOp
  | .csAssert => some .csAssert
  | .csDeassert => some .csDeassert
  | .writeReg _ _ => some .writeReg
  | .readReg _ => some .readReg
  | .writeCont _ _ _ => some .writeCont
  | .readCont _ _ => some .readCont
  | .directCmd _ => some .directCmd
  | .fifoWrite _ _ => some .fifoWrite
  | .irqWait _ => some .irqWait
  | .dmEnable _ => some .dmEnable
  | .dmDisable => some .dmDisable
  | .dmTransceive _ _ _ _ _ _ => some .dmTransceive
  | .setParity _ _ => some .setParity
  | .checkParity _ _ => some .checkParity
  | .appendCrc _ _ => some .appendCrc
  | .checkCrc _ _ => some .checkCrc
  | .reqa _ => some .reqa
  | .doAnticol => some .doAnticol
  | .selectFirst _ => some .selectFirst
  | .selectNext _ => some .selectNext
  | .select _ _ => some .select
  | .halt => some .halt
  | .spiWriteSingle _ _ | .spiWriteCont _ _ | .spiReadSingle _ | .spiReadCont _ _ | .spiDirectCmd _
  | .cmdSoftInit | .cmdResetFifo | .cmdTxNocrc | .cmdTxCrc => none
  | .rfReqa | .rfWupa | .rfAnticollisionCl1 _ _ | .rfAnticollisionCl2 _ _ | .rfAnticollisionCl3 _ _
  | .rfSelectCl1 _ | .rfSelectCl2 _ | .rfSelectCl3 _ | .rfHlta => none
  | .seqX | .seqY | .seqZ => none

end Sys2Proof.Machine
end

