-- ==== Sys2Proof/Certificates/Slice0/Obligations.lean ====
section
/-! DEFINITION. The statements about the model, each from the numbered rules of spec/ that its docstring names. -/

open Sys2Proof Sys2Proof.Machine

/-! ### Steps, encodings, refusals -/

/-- R22, R8: the operation that the host presents next is decoded and run, and taken from the inputs. That an SPI, RF or MOD row
can be presented is the model's choice (log entries 1, 2). -/
def Obligations.StepRunsDecodedInstruction : Prop :=
  ∀ (s : State) (w : CodeWord) (rest : List Input) (i : Instr),
    s.inputs = .op w :: rest → decode w = .ok i → step s = exec i { s with inputs := rest }

/-- R93, R98, R100, R101, R106, R114, R115: words written out from the encoding tables. -/
def Obligations.WrittenWordsDecode : Prop :=
  decode (.host [0x10]) = .ok .csAssert ∧
  decode (.host [0x12, 0x01, 0x88]) = .ok (.writeReg 0x01 0x88) ∧
  decode (.host [0x18, 0x2C, 0x01]) = .ok (.irqWait 300) ∧
  decode (.host [0x22, 0x00, 0x00, 0x00, 0x07, 0x02, 0x00, 0x00, 0x26]) = .ok (.dmTransceive 0 0 7 2 0 [0x26]) ∧
  decode (.host [0x30, 0x01, 0x00, 0x93, 0x01]) = .ok (.setParity 1 [0x193]) ∧
  decode (.host [0x44, 0x04, 0x12, 0x34, 0x56, 0x78]) = .ok (.select 4 [0x12, 0x34, 0x56, 0x78]) ∧
  decode (.spi [0x3D, 0x00, 0x0F] 0) = .ok (.spiWriteCont 0x1D [0x00, 0x0F]) ∧
  decode (.spi [0x4C] 1) = .ok (.spiReadSingle 0x0C) ∧
  decode (.spi [0x8F] 0) = .ok .cmdResetFifo ∧
  decode (.rf [false, true, true, false, false, true, false]) = .ok .rfReqa ∧
  decode (.mod [false, false, true, false]) = .ok .seqX

/-- R90 to R115: decoding the code word of an instruction whose operands fit its encoding gives the instruction back. -/
def Obligations.DecodeOfEncodeIsIdentity : Prop :=
  ∀ i : Instr, i.encodable = true → decode (encode i) = .ok i

/-- R90 to R115: a code word that decodes is the code word of what it decodes to, so no two words are one instruction and no
bit of a word is dropped. -/
def Obligations.EncodeOfDecodeIsIdentity : Prop :=
  ∀ (w : CodeWord) (i : Instr), decode w = .ok i → encode i = w ∧ i.encodable = true

/-- R103: an opcode byte that is not in R100 is refused with `ILLEGAL_OP`; nothing changes and nothing is emitted. -/
def Obligations.ReservedOpcodeIsRefused : Prop :=
  ∀ (s : State) (b : Byte) (operands : List Byte) (rest : List Input),
    b ∉ ([0x10, 0x11, 0x12, 0x13, 0x14, 0x15, 0x16, 0x17, 0x18, 0x20, 0x21, 0x22, 0x30, 0x31, 0x32, 0x33,
          0x40, 0x41, 0x42, 0x43, 0x44, 0x45] : List Byte) →
    s.inputs = .op (.host (b :: operands)) :: rest → s.busy = false →
    step s = .next (({ s with inputs := rest } : State).respond (.status .illegalOp []))

/-- R90, R103: the operand bytes of a host command decode exactly when there are as many as its opcode and counts say; a
command with more or fewer is refused with `BAD_OPERAND` where no guard refuses it first (R293). -/
def Obligations.MalformedCommandIsRefused : Prop :=
  ∀ (op : HostOp) (operands : List Byte),
    ((∃ i, decode (.host (opcodeOf op :: operands)) = .ok i) ↔ operands.length = operandLength op operands) ∧
    (operands.length ≠ operandLength op operands →
      ∀ (s : State) (rest : List Input), s.inputs = .op (.host (opcodeOf op :: operands)) :: rest → s.busy = false →
        step s = .next (({ s with inputs := rest } : State).respond
          (.status ((guardOf op s).getD .badOperand) [])))

/-- R23, R293: every host operation issued while another runs is refused with `BUSY`. That the 21 SPI, RF and MOD rows are issued
as operations, and hand this refusal back as a status, is the model's choice (log entries 1, 18, 19, 20). -/
def Obligations.BusyRefusesEveryInstruction : Prop :=
  ∀ (i : Instr) (s : State), s.busy = true → RefusedIn i s .busy

/-- R140: every SEQ and every ACE operation is refused with `SEQ_SESSION_OPEN` while the session is open. -/
def Obligations.OpenSessionRefusesSeqAndAce : Prop :=
  ∀ (i : Instr) (op : HostOp), hostOp i = some op →
    op ∈ ([.csAssert, .csDeassert, .writeReg, .readReg, .writeCont, .readCont, .directCmd, .fifoWrite, .irqWait,
           .reqa, .doAnticol, .selectFirst, .selectNext, .select, .halt] : List HostOp) →
    SessionGuarded i

/-- R103, R293: an operation with an operand outside the range its rule states (`Instr.wellFormed`) is refused with
`BAD_OPERAND` where no guard refuses it first. -/
def Obligations.OperandOutOfRangeIsRefused : Prop :=
  ∀ (i : Instr) (op : HostOp) (s : State), hostOp i = some op → i.wellFormed = false → s.busy = false →
    RefusedIn i s ((guardOf op s).getD .badOperand)

/-- R8, R15, R73, R99, R292, R294, R311: every instruction ends, in every state, and hands back exactly one response; it only
appends to the trace and takes no input. The bytes of a response are the status's code of R294 and then its results. R99 gives
a response to the 22 host operations; that the SPI, RF and MOD rows hand one back too is the model's choice (log entries 18, 19,
20). -/
def Obligations.EveryInstructionEndsWithOneResponse : Prop :=
  (∀ (i : Instr) (s : State), ∃ t r es,
    exec i s = .next t ∧ t.responses = s.responses ++ [r] ∧ t.trace = s.trace ++ es ∧ t.inputs = s.inputs) ∧
  ∀ results : List Byte, ∀ p ∈ ([(.ok, 0x00), (.false_, 0x01), (.illegalOp, 0x10), (.badOperand, 0x11), (.busy, 0x12),
      (.phyNotEnabled, 0x20), (.seqSessionOpen, 0x21), (.csHeld, 0x22), (.fifoRefillFail, 0x30), (.noResponse, 0x40),
      (.badLength, 0x41), (.badCollpos, 0x42), (.cascadeOverflow, 0x43), (.frameError, 0x44), (.noBacktrack, 0x45),
      (.uidLenMismatch, 0x46)] : List (Status × Byte)),
    responseBytes (.status p.1 results) = p.2 :: results

/-! ### SEQ -/

/-- R141. -/
def Obligations.CsAssertLowersChipSelect : Prop :=
  decode (.host [0x10]) = .ok .csAssert ∧ SessionGuarded .csAssert ∧
  ∀ s : State, s.SeqReady →
    exec .csAssert s = .next { s with
      cs := true, trace := s.trace ++ (if s.cs then [] else [.csLow]), responses := s.responses ++ [.status .ok []] }

/-- R142. -/
def Obligations.CsDeassertRaisesChipSelect : Prop :=
  decode (.host [0x11]) = .ok .csDeassert ∧ SessionGuarded .csDeassert ∧
  ∀ s : State, s.SeqReady →
    exec .csDeassert s = .next { s with
      cs := false, trace := s.trace ++ (if s.cs then [.csHigh] else []), responses := s.responses ++ [.status .ok []] }

/-- R144: the address, then the value, in a window of its own or in the host's (R143); an address above 0x1F is refused. -/
def Obligations.WriteRegSendsAddressAndValue : Prop :=
  (∀ addr val, decode (.host [0x12, addr, val]) = .ok (.writeReg addr val) ∧ SessionGuarded (.writeReg addr val)) ∧
  (∀ (addr val : Byte) (s : State), s.SeqReady → 0x1F#8 < addr → RefusedIn (.writeReg addr val) s .badOperand) ∧
  ∀ (addr val : Byte) (s : State), s.SeqReady → addr ≤ 0x1F#8 →
    exec (.writeReg addr val) s = .next { s with
      trace := s.trace ++ inWindow s.cs [.spiOut addr, .spiOut val], responses := s.responses ++ [.status .ok []] }

/-- R146: 0x40 or the address, then one byte drawn, which is the result. -/
def Obligations.ReadRegReturnsDrawnByte : Prop :=
  (∀ addr, decode (.host [0x13, addr]) = .ok (.readReg addr) ∧ SessionGuarded (.readReg addr)) ∧
  (∀ (addr : Byte) (s : State), s.SeqReady → 0x1F#8 < addr → RefusedIn (.readReg addr) s .badOperand) ∧
  ∀ (addr : Byte) (s : State), s.SeqReady → addr ≤ 0x1F#8 →
    exec (.readReg addr) s = .next { s with
      trace := s.trace ++ inWindow s.cs [.spiOut (0x40#8 ||| addr), .spiIn s.env.byte.1], env := s.env.byte.2,
      responses := s.responses ++ [.status .ok [s.env.byte.1]] }

/-- R148: 0x20 or the address, then the data bytes; an empty access and one that runs past 0x1F are refused. -/
def Obligations.WriteContSendsAddressAndData : Prop :=
  (∀ (addr n : Byte) (data : List Byte), data.length = n.toNat →
    decode (.host (0x14 :: addr :: n :: data)) = .ok (.writeCont addr n data) ∧ SessionGuarded (.writeCont addr n data)) ∧
  (∀ (addr n : Byte) (data : List Byte) (s : State), s.SeqReady →
    0x1F#8 < addr ∨ n = 0 ∨ (addr ≠ 0x1F#8 ∧ 0x1F < addr.toNat + n.toNat - 1) →
    RefusedIn (.writeCont addr n data) s .badOperand) ∧
  ∀ (addr n : Byte) (data : List Byte) (s : State), s.SeqReady → data.length = n.toNat → addr ≤ 0x1F#8 → n ≠ 0 →
    addr = 0x1F#8 ∨ addr.toNat + n.toNat - 1 ≤ 0x1F →
    exec (.writeCont addr n data) s = .next { s with
      trace := s.trace ++ inWindow s.cs (.spiOut (0x20#8 ||| addr) :: data.map .spiOut),
      responses := s.responses ++ [.status .ok []] }

/-- R150: 0x60 or the address, then `n` bytes drawn, which are the result; refused as R148. -/
def Obligations.ReadContReturnsDrawnBytes : Prop :=
  (∀ addr n, decode (.host [0x15, addr, n]) = .ok (.readCont addr n) ∧ SessionGuarded (.readCont addr n)) ∧
  (∀ (addr n : Byte) (s : State), s.SeqReady →
    0x1F#8 < addr ∨ n = 0 ∨ (addr ≠ 0x1F#8 ∧ 0x1F < addr.toNat + n.toNat - 1) → RefusedIn (.readCont addr n) s .badOperand) ∧
  ∀ (addr n : Byte) (s : State), s.SeqReady → addr ≤ 0x1F#8 → n ≠ 0 → addr = 0x1F#8 ∨ addr.toNat + n.toNat - 1 ≤ 0x1F →
    (s.env.bytes n.toNat).1.length = n.toNat ∧
    exec (.readCont addr n) s = .next { s with
      trace := s.trace ++ inWindow s.cs (.spiOut (0x60#8 ||| addr) :: (s.env.bytes n.toNat).1.map .spiIn),
      env := (s.env.bytes n.toNat).2, responses := s.responses ++ [.status .ok (s.env.bytes n.toNat).1] }

/-- R152: one byte, 0x80 or the code; the ring is not touched, whatever the code. -/
def Obligations.DirectCmdSendsOneByte : Prop :=
  (∀ code, decode (.host [0x16, code]) = .ok (.directCmd code) ∧ SessionGuarded (.directCmd code)) ∧
  (∀ (code : Byte) (s : State), s.SeqReady → 0x1F#8 < code → RefusedIn (.directCmd code) s .badOperand) ∧
  ∀ (code : Byte) (s : State), s.SeqReady → code ≤ 0x1F#8 →
    exec (.directCmd code) s = .next { s with
      trace := s.trace ++ inWindow s.cs [.spiOut (0x80#8 ||| code)], responses := s.responses ++ [.status .ok []] }

/-- R93, R98 and log entry 19 (the model's choice: a row of the SPI format by itself is the transaction it stands for, guarded
as R140, and answers `OK` with the bytes read): the five forms, the four named direct commands with the default codes of R98 (log entry 13). Every row is refused
while the session is open, and a continuous access of no bytes or past 0x1F (R68) is refused with `BAD_OPERAND`. -/
def Obligations.SpiRowsAreTheirTransactions : Prop :=
  (∀ (a : BitVec 5) (val n : Byte) (data : List Byte),
    ∀ i ∈ [Instr.spiWriteSingle a val, .spiWriteCont a data, .spiReadSingle a, .spiReadCont a n, .spiDirectCmd a,
      .cmdSoftInit, .cmdResetFifo, .cmdTxNocrc, .cmdTxCrc], SessionGuarded i) ∧
  ∀ s : State, s.SeqReady →
    (∀ (a : BitVec 5) (data : List Byte), data = [] ∨ (a ≠ 0x1F#5 ∧ 0x20 < a.toNat + data.length) →
      RefusedIn (.spiWriteCont a data) s .badOperand) ∧
    (∀ (a : BitVec 5) (n : Byte), n = 0 ∨ (a ≠ 0x1F#5 ∧ 0x20 < a.toNat + n.toNat) →
      RefusedIn (.spiReadCont a n) s .badOperand) ∧
    (∀ a val, exec (.spiWriteSingle a val) s = .next { s with
      trace := s.trace ++ inWindow s.cs [.spiOut (spiWriteByte a), .spiOut val],
      responses := s.responses ++ [.status .ok []] }) ∧
    (∀ (a : BitVec 5) (data : List Byte), data ≠ [] → a = 0x1F#5 ∨ a.toNat + data.length ≤ 0x20 →
      exec (.spiWriteCont a data) s = .next { s with
        trace := s.trace ++ inWindow s.cs (.spiOut (spiWriteContByte a) :: data.map .spiOut),
        responses := s.responses ++ [.status .ok []] }) ∧
    (∀ a, exec (.spiReadSingle a) s = .next { s with
      trace := s.trace ++ inWindow s.cs [.spiOut (spiReadByte a), .spiIn s.env.byte.1], env := s.env.byte.2,
      responses := s.responses ++ [.status .ok [s.env.byte.1]] }) ∧
    (∀ (a : BitVec 5) (n : Byte), n ≠ 0 → a = 0x1F#5 ∨ a.toNat + n.toNat ≤ 0x20 →
      exec (.spiReadCont a n) s = .next { s with
        trace := s.trace ++ inWindow s.cs (.spiOut (spiReadContByte a) :: (s.env.bytes n.toNat).1.map .spiIn),
        env := (s.env.bytes n.toNat).2, responses := s.responses ++ [.status .ok (s.env.bytes n.toNat).1] }) ∧
    (∀ c, exec (.spiDirectCmd c) s = .next { s with
      trace := s.trace ++ inWindow s.cs [.spiOut (spiDirectByte c)], responses := s.responses ++ [.status .ok []] }) ∧
    (∀ p ∈ ([(.cmdSoftInit, 0x83), (.cmdResetFifo, 0x8F), (.cmdTxNocrc, 0x90), (.cmdTxCrc, 0x91)] : List (Instr × Byte)),
      exec p.1 s = .next { s with
        trace := s.trace ++ inWindow s.cs [.spiOut p.2], responses := s.responses ++ [.status .ok []] })

/-- R154: at most 127 bytes go to the FIFO in one transaction, and none at all emits nothing. -/
def Obligations.FifoWriteOfOnePiece : Prop :=
  ∀ (n : BitVec 16) (data : List Byte) (s : State), s.SeqReady → data.length = n.toNat → data.length ≤ 127 →
    exec (.fifoWrite n data) s = .next { s with
      trace := s.trace ++ (if data = [] then [] else inWindow s.cs (.spiOut 0x3F :: data.map .spiOut)),
      responses := s.responses ++ [.status .ok []] }

/-- R154: the first 127 bytes, then the rest by `FIFO_REFILL` bytes after each wait that returns `FIFO_LOW`; any other cause
ends it with `FIFO_REFILL_FAIL`, the bytes already written stay written. The loop is stated without the model's bound. -/
def Obligations.FifoWriteFeedsThePieces : Prop :=
  (∀ (n : BitVec 16) (data : List Byte), data.length = n.toNat →
    decode (.host (0x17 :: (u16Bytes n ++ data))) = .ok (.fifoWrite n data) ∧ SessionGuarded (.fifoWrite n data)) ∧
  (∀ (n : BitVec 16) (data : List Byte) (s : State), s.SeqReady → data.length = n.toNat → data ≠ [] →
    ∃ c t, FifoFeeds params (data.drop 127) (writeCont 0x1F (data.take 127) s.running) c t ∧
      exec (.fifoWrite n data) s = .next (t.ended (.status (if c = none then .ok else .fifoRefillFail) [])) ∧
      ExchangeWrites s.running t) ∧
  ∀ s : State, s.SeqReady → exec (.fifoWrite 0 []) s = .next (s.respond (.status .ok []))

/-- R156: with the flag already set the wait ends at once: the flag is consumed, the IRQ status register is read and
classified, and after `RX_COMPLETE`, `FIFO_HIGH` and `COLLISION` the FIFO is drained. -/
def Obligations.IrqWaitConsumesPendingFlag : Prop :=
  ∀ (ms : BitVec 16) (s : State), s.SeqReady → s.irqFlag = true →
    let cause := params.irqClassify s.env.byte.1
    let u : State := { s.running with
      irqFlag := false, countdown := 0, timeoutFlag := (ms == 0),
      trace := s.trace ++ inWindow s.cs [.spiOut (spiReadByte params.regIrqStatus), .spiIn s.env.byte.1],
      env := s.env.byte.2 }
    exec (.irqWait ms) s = .next
      ((if cause = .rxComplete ∨ cause = .fifoHigh ∨ cause = .collision then drain params u else u).ended
        (.status .ok [causeCode cause]))

/-- R323 (item 1), R156, R157, R163: with the host's interrupt enable off a wait that does not find the flag set ends in
`TIMEOUT` after its milliseconds, whatever the environment presents; nothing is sent. -/
def Obligations.IrqWaitTimesOutWhileMasked : Prop :=
  ∀ (ms : BitVec 16) (s : State), s.SeqReady → s.irqFlag = false → s.hostIe = false →
    ∃ e : Env, e.spiIn = s.env.spiIn ∧ e.samples = s.env.samples ∧
      exec (.irqWait ms) s = .next { s with
        timeoutFlag := true, countdown := 0, env := e, responses := s.responses ++ [.status .ok [0x00]] }

/-- R156, R295, R306: a wait always ends, with the code of one of the eight causes as its result, the flag consumed and no
countdown in progress, and writes no more than its rule lists. -/
def Obligations.IrqWaitAlwaysEnds : Prop :=
  (∀ (ms : BitVec 16) (s : State), s.SeqReady →
    ∃ c t, exec (.irqWait ms) s = .next t ∧ t.countdown = 0 ∧ t.irqFlag = false ∧
      ExchangeWrites (s.respond (.status .ok [causeCode c])) t) ∧
  ∀ p ∈ ([(.timeout, 0x00), (.txComplete, 0x01), (.rxComplete, 0x02), (.fifoHigh, 0x03), (.fifoLow, 0x04),
      (.protocolError, 0x05), (.collision, 0x06), (.fieldChange, 0x07)] : List (IrqCause × Byte)), causeCode p.1 = p.2

/-- R156, R157, R163 under log entry 5 (an edge is drawn at each poll, one poll a millisecond and one after the last): an edge at
poll `k`, not later than the countdown's end, ends the wait there with the flag set, `k` milliseconds gone; at the very end both
flags are set and the IRQ wins. With no edge at any poll the wait ends in `TIMEOUT` after its milliseconds, whatever the host's
interrupt enable is, and nothing is sent. Both as the procedure, inside other operations, and as the operation `IRQ_WAIT`. -/
def Obligations.IrqWaitEndsAtTheEdge : Prop :=
  ∀ (ms : BitVec 16) (rest : List Bool) (s : State), s.irqFlag = false →
    (∀ k : Nat, s.hostIe = true → k ≤ ms.toNat → s.env.edges = List.replicate k false ++ true :: rest →
      let ended (t : State) : State := { t with
        countdown := 0, timeoutFlag := decide (k = ms.toNat), env := { t.env with edges := rest } }
      let taken (P : Params) (u : State) : State :=
        if drains (P.irqClassify u.env.byte.1) then drain P (readReg P.regIrqStatus u).2 else (readReg P.regIrqStatus u).2
      (∀ P : Params, irqWait P ms s = (P.irqClassify (ended s).env.byte.1, taken P (ended s))) ∧
      (s.SeqReady → exec (.irqWait ms) s = .next ((taken params (ended s.running)).ended
        (.status .ok [causeCode (params.irqClassify (ended s).env.byte.1)])))) ∧
    (s.env.edges = List.replicate (ms.toNat + 1) false ++ rest →
      let timedOut : State := { s with countdown := 0, timeoutFlag := true, env := { s.env with edges := rest } }
      (∀ P : Params, irqWait P ms s = (.timeout, timedOut)) ∧
      (s.SeqReady → exec (.irqWait ms) s = .next (timedOut.respond (.status .ok [0x00]))))

/-! ### The ring -/

/-- R160: bytes pushed into a ring with room come out by `RingPop`, after those already there and in their order; the ring is
then empty and nothing but the ring has changed. -/
def Obligations.RingIsFirstInFirstOut : Prop :=
  ∀ (P : Params) (l : List Byte) (s : State), P.InRange → s.fifoOvf = false → s.ring.Inv P.fifoMirrorCap false →
    s.ring.count + l.length ≤ P.fifoMirrorCap →
    ∃ q : Ring, q.count = 0 ∧
      ringPopAll P (l.foldl (fun t b => ringPush P b t) s) =
        (s.ring.contents P.fifoMirrorCap ++ l, { s with ring := q })

/-- R31, R45, R160: a push into a full ring sets the overflow flag and the fault mark and logs it; a push into a ring with room
does none of it; and no step of the machine clears the flag or the mark. -/
def Obligations.OverflowIsMarkedAndSticky : Prop :=
  (∀ (P : Params) (b : Byte) (s : State), s.fifoOvf = false → s.ring.count = P.fifoMirrorCap →
    ∃ r e, ringPush P b s = { s with
      fifoOvf := true, faults := if .fifoOverflow ∈ s.faults then s.faults else s.faults ++ [.fifoOverflow], ring := r,
      env := e, trace := s.trace ++ [.log "fifo mirror overflow"] }) ∧
  (∀ (P : Params) (b : Byte) (s : State), s.fifoOvf = false → s.ring.count < P.fifoMirrorCap →
    ∃ r : Ring, r.count = s.ring.count + 1 ∧ ringPush P b s = { s with ring := r }) ∧
  ∀ s t : State, step s = .next t → (s.fifoOvf = true → t.fifoOvf = true) ∧ ∀ f ∈ s.faults, f ∈ t.faults

/-! ### PHY -/

/-- R181. -/
def Obligations.DmEnableOpensTheSession : Prop :=
  (∀ mode, decode (.host [0x20, mode]) = .ok (.dmEnable mode)) ∧
  (∀ mode (s : State), s.busy = false → s.dmEnabled = true → exec (.dmEnable mode) s = .next (s.respond (.status .ok []))) ∧
  (∀ mode (s : State), s.busy = false → s.dmEnabled = false → s.cs = true → RefusedIn (.dmEnable mode) s .csHeld) ∧
  ∀ mode (s : State), s.busy = false → s.dmEnabled = false → s.cs = false →
    let e := params.dmEnterSeq mode
    exec (.dmEnable mode) s = .next { s with
      cs := true, sessionOpen := true, rxPinMode := .gpioInput, dmCfg := mode, dmEnabled := true,
      trace := s.trace ++ e.pre.flatMap (fun w => [.csLow, .spiOut (spiWriteByte w.1), .spiOut w.2, .csHigh]) ++
        (.csLow :: .spiOut (spiWriteContByte e.addr) :: e.data.map .spiOut) ++ [.pinMode .gpioInput],
      responses := s.responses ++ [.status .ok []] }

/-- R183, R184: the session is closed, the pin restored, and the transceiver re-initialised, the FIFO reset first; with direct
mode not enabled nothing happens. That last clause is the model's choice where the spec contradicts itself (DEDUCED, log entry
28): R183 and R184 are followed against R323 item 2, by which `DM_DISABLE` as the first operation re-initialises. -/
def Obligations.DmDisableClosesTheSession : Prop :=
  decode (.host [0x21]) = .ok .dmDisable ∧
  (∀ s : State, s.busy = false → s.dmEnabled = false → exec .dmDisable s = .next (s.respond (.status .ok []))) ∧
  ∀ s : State, s.busy = false → s.dmEnabled = true →
    exec .dmDisable s = .next { s with
      cs := false, sessionOpen := false, rxPinMode := .spiFunction, dmEnabled := false,
      trace := s.trace ++ [.csHigh, .pinMode .spiFunction,
        .csLow, .spiOut (spiDirectByte params.cmdResetFifo), .csHigh,
        .csLow, .spiOut (spiDirectByte params.cmdSoftInit), .csHigh] ++
        params.iso14443aRegInit.flatMap
          (fun w => [.csLow, .spiOut (spiWriteByte w.1), .spiOut w.2, .csHigh]),
      responses := s.responses ++ [.status .ok []] }

/-- R185, R186, R190, R202, R203: inside the interrupt mask the frame's slots go out, and then `receive` takes samples up to the
capacity, or nothing is sampled where there is nothing to store; what it received is the result, the host's enable is back at
its value, nothing else has changed, and the status is `OK` whatever came. Outside: not enabled is `PHY_NOT_ENABLED`, and the
operands that R186 lists are `BAD_OPERAND`. That an element of an OPAQUE `send` is a byte is log entry 26. -/
def Obligations.DmTransceiveSendsThenReceives : Prop :=
  ∀ (mode sendBitCount recvBits : Byte) (sendBytes recvBytes : BitVec 16) (send : List Unit16) (s : State),
    s.busy = false →
    (s.dmEnabled = false →
      RefusedIn (.dmTransceive mode sendBytes sendBitCount recvBytes recvBits send) s .phyNotEnabled) ∧
    (s.dmEnabled = true →
      (mode ≠ 0 ∧ mode ≠ 1) ∨ (mode = 0 ∧ (7#8 < sendBitCount ∨ 7#8 < recvBits)) ∨
        (mode = 1 ∧ (8#8 < sendBitCount ∨ 8#8 < recvBits)) ∨
        send.length ≠ sendBytes.toNat + (if sendBitCount = 0 then 0 else 1) →
      RefusedIn (.dmTransceive mode sendBytes sendBitCount recvBytes recvBits send) s .badOperand) ∧
    (s.dmEnabled = true →
      (mode = 0 ∧ sendBitCount ≤ 7#8 ∧ recvBits ≤ 7#8 ∧ ∀ u ∈ send, u < 0x100#16) ∨
        (mode = 1 ∧ sendBitCount ≤ 8#8 ∧ recvBits ≤ 8#8) →
      send.length = sendBytes.toNat + (if sendBitCount = 0 then 0 else 1) →
      let cap := recvBytes.toNat * (if mode = 0 then 8 else 9) + recvBits.toNat
      let sent : State := { s.running with
        hostIe := false,
        trace := s.trace ++ [.intMask true] ++
          (frameSlots params (sendBits mode send sendBytes.toNat sendBitCount.toNat)).map .mod }
      let r := if cap = 0 then ([], sent) else receive params cap sent
      exec (.dmTransceive mode sendBytes sendBitCount recvBytes recvBits send) s =
        .next (({ r.2 with hostIe := s.hostIe, trace := r.2.trace ++ [.intMask false] } : State).ended
          (.status .ok (packResults mode r.1))) ∧
      r.1.length ≤ cap ∧
      ∃ (samples : List Bit) (e : Env), e.spiIn = s.env.spiIn ∧ e.edges = s.env.edges ∧
        r.2 = { sent with env := e, trace := sent.trace ++ samples.map .sample })

/-- R188 with R115, R116, R117, R118, R119: the slots of a frame of at least one bit are the start sequence when there is one,
for each bit the sequence its predecessor and it choose, a 0 after the last bit, and Y: four slots each. An empty frame has
none. -/
def Obligations.FrameIsItsSequences : Prop :=
  (∀ prev, seqSlots .source prev true = [false, false, true, false]) ∧
  (∀ prev, seqSlots .iso prev true = [false, false, true, false]) ∧
  seqSlots .source none false = [true, false, false, false] ∧
  seqSlots .source (some true) false = [true, false, false, false] ∧
  seqSlots .source (some false) false = [false, false, false, false] ∧
  seqSlots .iso none false = [true, false, false, false] ∧
  seqSlots .iso (some true) false = [false, false, false, false] ∧
  seqSlots .iso (some false) false = [true, false, false, false] ∧
  ∀ P : Params, frameSlots P [] = [] ∧
    ∀ tx : List Bit, tx ≠ [] →
      frameSlots P tx =
        (if P.txSof then [true, false, false, false] else []) ++
          (List.zipWith (seqSlots P.millerRule) (none :: tx.map some) (tx ++ [false])).flatten ++
          [false, false, false, false] ∧
      (frameSlots P tx).length = 4 * (tx.length + 2 + (if P.txSof then 1 else 0))

/-- R192: a pin that stays silent for `RX_START_TIMEOUT` samples gives no bits; exactly those samples are taken. -/
def Obligations.SilentPinGivesNoBits : Prop :=
  ∀ (P : Params) (cap : Nat) (rest : List Bit) (s : State),
    s.env.samples = List.replicate P.rxStartTimeout false ++ rest →
    receive P cap s =
      ([], { s with
        env := { s.env with samples := rest },
        trace := s.trace ++ List.replicate P.rxStartTimeout (.sample false) })

/-- R200 with R9, R120, R192, R201: with the reference decoder, whatever the OPEN parameters in their ranges are, a well-formed
answer that begins within `RX_START_TIMEOUT` samples is received exactly, its start bit dropped, cut at the capacity. An answer
shorter than the capacity ends with the sixteenth sample of 0 in a row, of which a last bit 1 holds four itself; one that fills
it ends at the middle of the bit that does, and nothing after is sampled. The machine's decoder is the reference one (log entry
15). -/
def Obligations.ReceiverDecodesWellFormedAnswers : Prop :=
  params.rxDecode = rxDecodeReference params.rxIgnore ∧
  ∀ (P : Params) (cap lead : Nat) (bits rest : List Bit) (s : State), P.InRange → 0 < cap → lead < P.rxStartTimeout →
    s.env.samples = List.replicate lead false ++ answerSamples bits ++ List.replicate 16 false ++ rest →
    let r := receive { P with rxDecode := rxDecodeReference P.rxIgnore } cap s
    r.1 = bits.take cap ∧
    (bits.length < cap →
      r.2.env.samples = (if (true :: bits).getLast? = some true then List.replicate 4 false else []) ++ rest) ∧
    (cap ≤ bits.length → r.2.env.samples = s.env.samples.drop (lead + 8 * cap + 5))

/-- R13, R187, R202: what goes out is the elements' low 8 or 9 bits in order and then the low bits of the next element; what
comes in is packed the same way, the last element's unused bits 0. -/
def Obligations.ElementsHoldTheirBits : Prop :=
  ∀ mode : Byte, mode = 0 ∨ mode = 1 →
    (∀ (send : List Unit16) (nB nb : Nat), nB ≤ send.length → nb ≤ unitBits mode → (0 < nb → nB < send.length) →
      (sendBits mode send nB nb).length = nB * unitBits mode + nb ∧
      ∀ i < nB * unitBits mode + nb,
        (sendBits mode send nB nb)[i]? = some ((send.getD (i / unitBits mode) 0).getLsbD (i % unitBits mode))) ∧
    ∀ rx : List Bit,
      (packUnits (unitBits mode) rx).length = (rx.length + unitBits mode - 1) / unitBits mode ∧
      (∀ i j, ((packUnits (unitBits mode) rx).getD i 0).getLsbD j =
        (decide (j < unitBits mode) && rx.getD (unitBits mode * i + j) false)) ∧
      packResults mode rx =
        u16Bytes (BitVec.ofNat 16 (rx.length / unitBits mode)) ++ BitVec.ofNat 8 (rx.length % unitBits mode) ::
          (if mode = 0 then (packUnits 8 rx).map payload else unitsBytes (packUnits 9 rx))

/-- R115 and log entry 20 (the model's choice: a row of the MOD format by itself is its four slots, answered with `OK` and
no results, and refused as R185 while direct mode is disabled). -/
def Obligations.SequenceRowsEmitTheirSlots : Prop :=
  ∀ p ∈ ([(.seqX, [false, false, true, false]), (.seqY, [false, false, false, false]),
      (.seqZ, [true, false, false, false])] : List (Instr × List Bit)),
    decode (.mod p.2) = .ok p.1 ∧
    ∀ s : State, s.busy = false →
      (s.dmEnabled = false → RefusedIn p.1 s .phyNotEnabled) ∧
      (s.dmEnabled = true → exec p.1 s = .next { s with
        trace := s.trace ++ p.2.map .mod, responses := s.responses ++ [.status .ok []] })

/-! ### UTL -/

/-- R222 with R110, R221: every unit keeps its payload byte, gets bits 15..9 zero and a parity bit that makes the number of
ones odd; nothing else changes, and no session refuses it. -/
def Obligations.SetParityMakesEveryUnitOdd : Prop :=
  ∀ (n : BitVec 16) (buf : List Unit16), buf.length = n.toNat →
    decode (.host (0x30 :: (u16Bytes n ++ unitsBytes buf))) = .ok (.setParity n buf) ∧
    ∃ out : List Unit16, out.length = buf.length ∧
      (∀ i < buf.length, payload (out.getD i 0) = payload (buf.getD i 0) ∧ out.getD i 0 < 0x200#16 ∧
        (popcount (payload (out.getD i 0)) + (parityBit (out.getD i 0)).toNat) % 2 = 1) ∧
      ∀ s : State, s.busy = false → exec (.setParity n buf) s = .next (s.respond (.status .ok (unitsBytes out)))

/-- R224: `OK` when every unit's payload ones and parity bit make an odd number, else `FALSE`; bits 15..9 are ignored. -/
def Obligations.CheckParityTestsEveryUnit : Prop :=
  ∀ (n : BitVec 16) (buf : List Unit16), buf.length = n.toNat →
    decode (.host (0x31 :: (u16Bytes n ++ unitsBytes buf))) = .ok (.checkParity n buf) ∧
    ∀ s : State, s.busy = false →
      ((∀ u ∈ buf, (popcount (payload u) + (parityBit u).toNat) % 2 = 1) →
        exec (.checkParity n buf) s = .next (s.respond (.status .ok []))) ∧
      ((∃ u ∈ buf, (popcount (payload u) + (parityBit u).toNat) % 2 = 0) →
        exec (.checkParity n buf) s = .next (s.respond (.status .false_ [])))

/-- R228: the units as given, then the CRC of their payload bytes, low byte first, each with its odd parity; more than 65533
units are refused. -/
def Obligations.AppendCrcAppendsTwoUnits : Prop :=
  ∀ (n : BitVec 16) (buf : List Unit16), buf.length = n.toNat →
    decode (.host (0x32 :: (u16Bytes n ++ unitsBytes buf))) = .ok (.appendCrc n buf) ∧
    ∀ s : State, s.busy = false →
      (65533 < n.toNat → RefusedIn (.appendCrc n buf) s .badOperand) ∧
      (n.toNat ≤ 65533 →
        ∃ lo hi : Unit16, payload lo = (crcA (buf.map payload)).setWidth 8 ∧
          payload hi = (crcA (buf.map payload) >>> 8).setWidth 8 ∧
          (∀ u ∈ [lo, hi], u < 0x200#16 ∧ (popcount (payload u) + (parityBit u).toNat) % 2 = 1) ∧
          exec (.appendCrc n buf) s = .next (s.respond (.status .ok (unitsBytes buf ++ u16Bytes lo ++ u16Bytes hi))))

/-- R230: `OK` when there are at least two units and the last two payload bytes are the low and the high byte of the CRC of
those before, else `FALSE`; the equivalent test of the rule, that the CRC over all the bytes is 0, agrees. -/
def Obligations.CheckCrcComparesTheLastTwo : Prop :=
  ∀ (n : BitVec 16) (buf : List Unit16), buf.length = n.toNat →
    decode (.host (0x33 :: (u16Bytes n ++ unitsBytes buf))) = .ok (.checkCrc n buf) ∧
    ∀ s : State, s.busy = false →
      (n.toNat < 2 → exec (.checkCrc n buf) s = .next (s.respond (.status .false_ []))) ∧
      ∀ (before : List Unit16) (x y : Unit16), buf = before ++ [x, y] →
        exec (.checkCrc n buf) s = .next (s.respond (.status
          (if (payload x).toNat = (crcA (before.map payload)).toNat % 256 ∧
              (payload y).toNat = (crcA (before.map payload)).toNat / 256 then .ok else .false_) [])) ∧
        (checkCrc buf = true ↔ crcA (buf.map payload) = 0)

/-- R226: the seed, the first steps, and the equivalent byte-at-a-time form that the rule derives. -/
def Obligations.CrcBytewiseFormAgrees : Prop :=
  crcA [] = 0x6363#16 ∧
  (∀ (bytes : List Byte) (b : Byte), crcA (bytes ++ [b]) = crcByte (crcA bytes) b) ∧
  ∀ (crc : BitVec 16) (b : Byte),
    let t0 : Byte := b ^^^ crc.setWidth 8
    let t : BitVec 16 := (t0 ^^^ (t0 <<< 4)).setWidth 16
    crcByte crc b = (crc >>> 8) ^^^ (t <<< 8) ^^^ (t <<< 3) ^^^ (t >>> 4)

/-- R232: what is appended checks; flipping any one payload bit of the message or of its CRC makes the check fail; the check
looks at payload bits only; and parity that is set checks. -/
def Obligations.CrcAndParityProperties : Prop :=
  ∀ buf : List Unit16,
    checkCrc (appendCrc buf) = true ∧
    (∀ i j, i < buf.length + 2 → j < 8 →
      checkCrc ((appendCrc buf).set i ((appendCrc buf).getD i 0 ^^^ (1#16 <<< j))) = false) ∧
    (∀ other : List Unit16, other.map payload = buf.map payload → checkCrc other = checkCrc buf) ∧
    checkParity (setParity buf) = true ∧ setParity (setParity buf) = setParity buf

/-! ### The exchange -/

/-- R162 with R97, up to the transmitted data: the ISO control value of the kind, the FIFO reset with the ring emptied, the
transmit command of the kind, the two length bytes. -/
def Obligations.ExchangeSetUpBeforeData : Prop :=
  ∀ (P : Params) (kind : ExchKind) (tx : List Bit) (s : State), s.fifoOvf = false →
    exchangeSetup P kind tx s = { s with
      ring := { s.ring with rd := 0, wr := 0, count := 0 },
      trace := s.trace ++
        inWindow s.cs [.spiOut (spiWriteByte P.regIsoControl),
          .spiOut (if kind = .standard then P.isoctlARxCrc else P.isoctlANoRxCrc)] ++
        inWindow s.cs [.spiOut (spiDirectByte P.cmdResetFifo)] ++
        inWindow s.cs [.spiOut (spiDirectByte (if kind = .standard then P.cmdTxCrc else P.cmdTxNocrc))] ++
        inWindow s.cs [.spiOut 0x3D, .spiOut (BitVec.ofNat 8 (tx.length / 128)),
          .spiOut (BitVec.ofNat 8 (tx.length / 8 % 16 * 16 + tx.length % 8 * 2 + (if tx.length % 8 = 0 then 0 else 1)))] }

/-- R154, R159, R162: every exchange is one that the rule's steps allow, without the model's bounds on its loops (`Exchanges`): it
ends as the rule says for every cause of its waits. And end to end over a scripted environment: a frame of at most 127 bytes is
sent after the set-up, the transmit wait returns `TX_COMPLETE`, and the receive wait returns `RX_COMPLETE` or `COLLISION` with
`l` bytes in the FIFO, as the low seven bits of its status say. The result is the frame unpacked from `l`, with the decoded
position after a collision; every scripted byte and edge is used, the ring is left empty, and the trace is the set-up's, the
packed bits to the FIFO, and the reads. -/
def Obligations.ExchangeReturnsTheAnswer : Prop :=
  (∀ (P : Params) (kind : ExchKind) (tx : List Bit) (wantRx : Bool) (s : State), P.InRange →
    Exchanges P kind tx wantRx s (exchangeSeq P kind tx wantRx s).1 (exchangeSeq P kind tx wantRx s).2) ∧
  ∀ (P : Params) (kind : ExchKind) (tx : List Bit) (l : List Byte) (b1 b2 level raw : Byte) (s : State),
    P.InRange → tx ≠ [] → tx.length ≤ 8 * 127 → (level &&& 0x7F#8).toNat = l.length → l.length ≤ P.fifoMirrorCap →
    s.irqFlag = false → s.hostIe = true → s.fifoOvf = false → Memory.wf s.ring.buf = true →
    P.irqClassify b1 = .txComplete → s.env.edges = [true, true] →
    let traceRead := (exchangeSetup P kind tx s).trace ++
      inWindow s.cs (.spiOut 0x3F :: (packLsb tx).map .spiOut) ++
      inWindow s.cs [.spiOut (spiReadByte P.regIrqStatus), .spiIn b1] ++
      inWindow s.cs [.spiOut (spiReadByte P.regIrqStatus), .spiIn b2] ++
      inWindow s.cs [.spiOut (spiReadByte P.regFifoStatus), .spiIn level] ++
      (if l = [] then [] else inWindow s.cs (.spiOut 0x7F :: l.map .spiIn))
    (P.irqClassify b2 = .rxComplete → s.env.spiIn = [b1, b2, level] ++ l →
      ∃ t : State, exchangeSeq P kind tx true s = (.frame (P.rxUnpack kind (tx.length % 8) l) none, t) ∧
        ExchangeWrites s t ∧ t.env.spiIn = [] ∧ t.env.edges = [] ∧ t.ring.count = 0 ∧ t.irqFlag = false ∧
        t.fifoOvf = false ∧ t.trace = traceRead) ∧
    (P.irqClassify b2 = .collision → s.env.spiIn = [b1, b2, level] ++ l ++ [raw] →
      ∃ t : State, exchangeSeq P kind tx true s =
          (.frame (P.rxUnpack kind (tx.length % 8) l) (some (P.collPosDecode kind raw)), t) ∧
        ExchangeWrites s t ∧ t.env.spiIn = [] ∧ t.env.edges = [] ∧ t.ring.count = 0 ∧ t.irqFlag = false ∧
        t.fifoOvf = false ∧ t.trace = traceRead ++ inWindow s.cs [.spiOut (spiReadByte P.regCollPos), .spiIn raw])

/-- R106, R108, R109, R114, R245 and log entry 18 (the model's choice: a row of the RFA format by itself is the exchange that
carries its frame, and the exchange's result is its response). An anti-collision frame whose NVB byte does not count its known
bits, fewer than 40, and a SELECT frame without the five bytes of a level are refused with `BAD_OPERAND` (R103), and every row
is refused while the session is open (R140). -/
def Obligations.FrameRowsAreTheirExchanges : Prop :=
  (∀ (nvb : Byte) (known : List Bit) (level : List Byte),
    ∀ i ∈ [Instr.rfReqa, .rfWupa, .rfAnticollisionCl1 nvb known, .rfAnticollisionCl2 nvb known, .rfAnticollisionCl3 nvb known,
      .rfSelectCl1 level, .rfSelectCl2 level, .rfSelectCl3 level, .rfHlta], SessionGuarded i) ∧
  ∀ s : State, s.SeqReady →
    ∀ (nvb : Byte) (known : List Bit) (level : List Byte),
    (known.length < 40 → nvb = nvbByte known.length → level.length = 5 →
      ∀ p ∈ ([(.rfReqa, .short, bitsN 7 0x26#7 7, true), (.rfWupa, .short, bitsN 7 0x52#7 7, true),
          (.rfAnticollisionCl1 nvb known, .anticol, bits8 0x93 ++ bits8 nvb ++ known, true),
          (.rfAnticollisionCl2 nvb known, .anticol, bits8 0x95 ++ bits8 nvb ++ known, true),
          (.rfAnticollisionCl3 nvb known, .anticol, bits8 0x97 ++ bits8 nvb ++ known, true),
          (.rfSelectCl1 level, .standard, bits8 0x93 ++ bits8 0x70 ++ level.flatMap bits8, true),
          (.rfSelectCl2 level, .standard, bits8 0x95 ++ bits8 0x70 ++ level.flatMap bits8, true),
          (.rfSelectCl3 level, .standard, bits8 0x97 ++ bits8 0x70 ++ level.flatMap bits8, true),
          (.rfHlta, .standard, bits8 0x50 ++ bits8 0x00, false)] : List (Instr × ExchKind × List Bit × Bool)),
        let r := exchangeSeq params p.2.1 p.2.2.1 p.2.2.2 s.running
        exec p.1 s = .next (r.2.ended (.exchange r.1)) ∧ ExchangeWrites s.running r.2) ∧
    (40 ≤ known.length ∨ nvb ≠ nvbByte known.length →
      ∀ i ∈ [Instr.rfAnticollisionCl1 nvb known, .rfAnticollisionCl2 nvb known, .rfAnticollisionCl3 nvb known],
        RefusedIn i s .badOperand) ∧
    (level.length ≠ 5 →
      ∀ i ∈ [Instr.rfSelectCl1 level, .rfSelectCl2 level, .rfSelectCl3 level], RefusedIn i s .badOperand)

/-! ### ACE -/

/-- R250: the 7 bits are sent as a short frame, and what comes back decides the result. -/
def Obligations.ReqaAnswersByItsExchange : Prop :=
  (∀ cmd, decode (.host [0x40, cmd]) = .ok (.reqa cmd) ∧ SessionGuarded (.reqa cmd)) ∧
  (∀ (cmd : Byte) (s : State), s.SeqReady → 0x7F#8 < cmd → RefusedIn (.reqa cmd) s .badOperand) ∧
  ∀ (cmd : Byte) (s : State), s.SeqReady → cmd ≤ 0x7F#8 →
    let r := exchangeSeq params .short (bitsN 8 cmd 7) true s.running
    ExchangeWrites s.running r.2 ∧
    exec (.reqa cmd) s = .next (r.2.ended (match r.1 with
      | .noResponse => .status .noResponse []
      | .error _ => .status .frameError []
      | .frame bits none =>
        if bits.length ≠ 16 then .status .badLength []
        else if (packLsb bits).getD 0 0 &&& 0x1F#8 = 0 then .status .false_ []
        else .status .ok (packLsb bits)
      | .frame bits (some p) =>
        let atqa := packLsb ((bits ++ List.replicate 16 false).take 16)
        if p < 5 ∨ atqa.getD 0 0 &&& 0x1F#8 ≠ 0 then .status .ok atqa else .status .false_ []))

/-- R258, R259: a round without a collision resolves the level: the answer's bits at the positions after the known ones, no
other bit, no marker. A round with a collision at `p` takes the bits before it, a 0 at it and a marker there, and resolves up
to it. A wrong length and a position out of range fail. -/
def Obligations.RoundsMergeIntoTheRecord : Prop :=
  ∀ (st : AnticolState) (base known : Nat) (bits : List Bit), base + 40 ≤ 120 → known ≤ 40 →
    (bits.length ≠ 40 - known → mergeAll st base known bits = .error .badLength) ∧
    (bits.length = 40 - known → ∃ st', mergeAll st base known bits = .ok st' ∧ st'.bitPos = base + 40 ∧ st'.coll = st.coll ∧
      ∀ q, st'.uidBit q =
        if base + known ≤ q ∧ q < base + 40 then bits.getD (q - (base + known)) false else st.uidBit q) ∧
    ∀ p : Nat,
      (p < known ∨ 39 < p → mergeToCollision st base known bits p = .error .badCollpos) ∧
      (known ≤ p → p ≤ 39 → bits.length < p - known → mergeToCollision st base known bits p = .error .badLength) ∧
      (known ≤ p → p ≤ 39 → p - known ≤ bits.length →
        ∃ st', mergeToCollision st base known bits p = .ok st' ∧ st'.bitPos = base + p + 1 ∧
          (∀ q, st'.collBit q = (q == base + p || st.collBit q)) ∧
          ∀ q, st'.uidBit q =
            if q = base + p then false
            else if base + known ≤ q ∧ q < base + p then bits.getD (q - (base + known)) false else st.uidBit q)

/-- R263, R257: every round that does not fail makes more of the level known, `Known` by the formula of R257 (`knownBits`), and
the rounds of a level end with all 40 bits known or with a failure; the model's bound of 40 rounds is never what ends them. -/
def Obligations.RoundsEndWithTheLevelKnown : Prop :=
  ∀ (P : Params) (lvl : Nat) (st : AnticolState),
    (∀ r st', knownBits lvl st < 40 → mergeAnswer st lvl r = .ok st' → knownBits lvl st < knownBits lvl st') ∧
    ∀ (s t : State) (st' : AnticolState), anticolRounds P lvl 40 st s = (.ok (), st', t) → knownBits lvl st' = 40

/-- R255, R257, R260, R261: the search is the rule's loop, without the model's bound on its rounds: one ANTICOLLISION exchange
and merge after another until a level's 40 bits are known, then the SELECT, level after level; and its failures are the five of
R261. -/
def Obligations.SearchFollowsItsRule : Prop :=
  (∀ (P : Params) (st : AnticolState) (s : State),
    Search P 1 st s (doAnticol P st s).1 (doAnticol P st s).2.1 (doAnticol P st s).2.2) ∧
  ∀ (P : Params) (st : AnticolState) (s : State) (e : Status), (doAnticol P st s).1 = .error e →
    e ∈ [Status.cascadeOverflow, .badLength, .badCollpos, .noResponse, .frameError]

/-- R262, R255: the UID of a search that succeeds is assembled from the levels, without cascade tags and check bytes, and has
4, 7 or 10 bytes; the SAK it ends with has bit 2 clear. -/
def Obligations.SearchAssemblesTheUid : Prop :=
  (∀ st : AnticolState,
    assembleUid st 1 = st.uid.toList.take 4 ∧
    assembleUid st 2 = (st.uid.toList.take 4).drop 1 ++ (st.uid.toList.drop 5).take 4 ∧
    assembleUid st 3 =
      (st.uid.toList.take 4).drop 1 ++ ((st.uid.toList.drop 5).take 4).drop 1 ++ (st.uid.toList.drop 10).take 4) ∧
  ∀ (P : Params) (st : AnticolState) (s : State) (uid : List Byte) (sak : Byte), (doAnticol P st s).1 = .ok (uid, sak) →
    sak.getLsbD 2 = false ∧ (uid.length = 4 ∨ uid.length = 7 ∨ uid.length = 10) ∧
    uid = assembleUid (doAnticol P st s).2.1 ((uid.length - 4) / 3 + 1)

/-- R255, R258, R260, R262: one card with a 4-byte UID whose ANTICOLLISION answer has no collision: one ANTICOLLISION and one
SELECT exchange find it, whatever the record held beyond its position. -/
def Obligations.OneCardIsFound : Prop :=
  ∀ (P : Params) (st : AnticolState) (s s1 s2 : State) (level : List Byte) (sak : Byte),
    st.bitPos = 0 → level.length = 5 → sak.getLsbD 2 = false →
    exchangeSeq P .anticol (bits8 (P.rfSel 1) ++ bits8 0x20) true s = (.frame (level.flatMap bits8) none, s1) →
    exchangeSeq P .standard (bits8 (P.rfSel 1) ++ bits8 0x70 ++ level.flatMap bits8) true s1 = (.frame (bits8 sak) none, s2) →
    ∃ st', doAnticol P st s = (.ok (level.take 4, sak), st', s2) ∧ st'.bitPos = 40 ∧ st'.coll = st.coll ∧
      st'.uid.toList = level ++ st.uid.toList.drop 5

/-- R255: as a host operation the search runs on the singleton, which keeps what the search made of it, failed or not; a
success answers the UID with its length, and the SAK (R101). -/
def Obligations.DoAnticolRunsOnTheSingleton : Prop :=
  decode (.host [0x41]) = .ok .doAnticol ∧ SessionGuarded .doAnticol ∧
  ∀ s : State, s.SeqReady →
    let q := doAnticol params s.acs s.running
    ExchangeWrites s.running q.2.2 ∧
    exec .doAnticol s = .next (({ q.2.2 with acs := q.2.1 } : State).ended (searchAnswer q.1))

/-- R265: the record is zeroed first, whatever then happens; a REQA that does not succeed ends it with its status and the
record zero, without a search; else the search runs on the zeroed record. -/
def Obligations.SelectFirstStartsFromZero : Prop :=
  (∀ cmd, decode (.host [0x42, cmd]) = .ok (.selectFirst cmd) ∧ SessionGuarded (.selectFirst cmd)) ∧
  (∀ (cmd : Byte) (s : State), s.SeqReady → 0x7F#8 < cmd → RefusedIn (.selectFirst cmd) s .badOperand) ∧
  ∀ (cmd : Byte) (s : State), s.SeqReady → cmd ≤ 0x7F#8 →
    let zeroed : State := { s.running with acs := .zero }
    let r := reqa params (cmd.setWidth 7) zeroed
    let q := doAnticol params .zero r.2
    ExchangeWrites zeroed r.2 ∧ ExchangeWrites r.2 q.2.2 ∧
    exec (.selectFirst cmd) s = .next (match r.1 with
      | .error e => r.2.ended (.status e [])
      | .ok _ => ({ q.2.2 with acs := q.2.1 } : State).ended (searchAnswer q.1))

/-- R268: with no marker below `bitPos` it ends in `NO_BACKTRACK` and nothing has changed; else the highest marker is taken:
after a REQA that succeeds (one that does not leaves the record as it was) its bit becomes 1, the marker is cleared, the
positions from there on are open again, and the search runs. -/
def Obligations.SelectNextTakesTheNearestMarker : Prop :=
  (∀ cmd, decode (.host [0x43, cmd]) = .ok (.selectNext cmd) ∧ SessionGuarded (.selectNext cmd)) ∧
  (∀ (cmd : Byte) (s : State), s.SeqReady → 0x7F#8 < cmd → RefusedIn (.selectNext cmd) s .badOperand) ∧
  (∀ (cmd : Byte) (s : State), s.SeqReady → cmd ≤ 0x7F#8 → (∀ p < s.acs.bitPos, s.acs.collBit p = false) →
    exec (.selectNext cmd) s = .next (s.respond (.status .noBacktrack []))) ∧
  ∀ (cmd : Byte) (s : State) (p : Nat), s.SeqReady → cmd ≤ 0x7F#8 →
    p < s.acs.bitPos → s.acs.collBit p = true → (∀ q < s.acs.bitPos, p < q → s.acs.collBit q = false) →
    ∃ branch : AnticolState, branch.bitPos = p + 1 ∧
      (∀ k, branch.uidBit k = (k == p || s.acs.uidBit k)) ∧ (∀ k, branch.collBit k = (k != p && s.acs.collBit k)) ∧
      let r := reqa params (cmd.setWidth 7) s.running
      let turned : State := { r.2 with acs := branch }
      let q := doAnticol params branch turned
      ExchangeWrites s.running r.2 ∧ ExchangeWrites turned q.2.2 ∧
      exec (.selectNext cmd) s = .next (match r.1 with
        | .error e => r.2.ended (.status e [])
        | .ok _ => ({ q.2.2 with acs := q.2.1 } : State).ended (searchAnswer q.1))

/-- R272 with R111, R112: a WUPA, then the search on a local record that holds the cascade levels of the UID, all known; the
singleton stays as it is (R335), and a UID of another length is `UID_LEN_MISMATCH`. -/
def Obligations.SelectUsesALocalRecord : Prop :=
  (∀ (uidLen : Byte) (uid : List Byte), uid.length = uidLen.toNat →
    decode (.host (0x44 :: uidLen :: uid)) = .ok (.select uidLen uid) ∧ SessionGuarded (.select uidLen uid)) ∧
  (∀ (uidLen : Byte) (uid : List Byte) (s : State), s.SeqReady → uidLen ≠ 4 → uidLen ≠ 7 → uidLen ≠ 10 →
    RefusedIn (.select uidLen uid) s .badOperand) ∧
  ∀ (uidLen : Byte) (uid : List Byte) (s : State), s.SeqReady → uid.length = uidLen.toNat →
    uidLen = 4 ∨ uidLen = 7 ∨ uidLen = 10 →
    ∃ st : AnticolState, (∀ p, st.collBit p = false) ∧
      (uidLen = 4 → st.bitPos = 40 ∧ ∃ b0 b1 b2 b3, uid = [b0, b1, b2, b3] ∧
        st.uid.toList = [b0, b1, b2, b3, b0 ^^^ b1 ^^^ b2 ^^^ b3] ++ List.replicate 10 0) ∧
      (uidLen = 7 → st.bitPos = 80 ∧ ∃ b0 b1 b2 b3 b4 b5 b6, uid = [b0, b1, b2, b3, b4, b5, b6] ∧
        st.uid.toList = [0x88, b0, b1, b2, 0x88 ^^^ b0 ^^^ b1 ^^^ b2, b3, b4, b5, b6, b3 ^^^ b4 ^^^ b5 ^^^ b6] ++
          List.replicate 5 0) ∧
      (uidLen = 10 → st.bitPos = 120 ∧ ∃ b0 b1 b2 b3 b4 b5 b6 b7 b8 b9, uid = [b0, b1, b2, b3, b4, b5, b6, b7, b8, b9] ∧
        st.uid.toList = [0x88, b0, b1, b2, 0x88 ^^^ b0 ^^^ b1 ^^^ b2, 0x88, b3, b4, b5, 0x88 ^^^ b3 ^^^ b4 ^^^ b5,
          b6, b7, b8, b9, b6 ^^^ b7 ^^^ b8 ^^^ b9]) ∧
      let r := reqa params params.rfWupa s.running
      let q := doAnticol params st r.2
      ExchangeWrites s.running r.2 ∧ ExchangeWrites r.2 q.2.2 ∧
      exec (.select uidLen uid) s = .next (match r.1 with
        | .error e => r.2.ended (.status e [])
        | .ok _ => q.2.2.ended (match q.1 with
          | .error e => .status e []
          | .ok (found, sak) =>
            if found.length = uid.length then .status .ok [sak] else .status .uidLenMismatch []))

/-- R276: HLTA is sent with CRC and no answer is waited for; only a transmission that did not complete fails. -/
def Obligations.HaltSendsHlta : Prop :=
  decode (.host [0x45]) = .ok .halt ∧ SessionGuarded .halt ∧
  ∀ s : State, s.SeqReady →
    let r := exchangeSeq params .standard (bits8 0x50 ++ bits8 0x00) false s.running
    ExchangeWrites s.running r.2 ∧
    exec .halt s = .next (r.2.ended (match r.1 with
      | .error _ => .status .frameError []
      | .noResponse => .status .ok []
      | .frame _ _ => .status .ok []))

/-! ### Reset, agents, whole-machine rules -/

/-- R44, R320, R322: the reset value of every field that the rule gives one; the trace is empty. -/
def Obligations.ResetValues : Prop :=
  State.reset.busy = false ∧ State.reset.cs = false ∧ State.reset.sessionOpen = false ∧
  State.reset.rxPinMode = .spiFunction ∧ State.reset.irqFlag = false ∧ State.reset.timeoutFlag = false ∧
  State.reset.countdown = 0 ∧ State.reset.ring.rd = 0 ∧ State.reset.ring.wr = 0 ∧ State.reset.ring.count = 0 ∧
  State.reset.fifoOvf = false ∧ State.reset.faults = [] ∧ State.reset.dmEnabled = false ∧
  State.reset.acs.uid.toList = List.replicate 15 0 ∧ State.reset.acs.coll.toList = List.replicate 15 0 ∧
  State.reset.acs.bitPos = 0 ∧ State.reset.trace = []

/-- The invariant of `StepKeepsTheInvariant` holds right after reset. -/
def Obligations.ResetMeetsTheInvariant : Prop := State.reset.Inv

/-- R25, R30, R31, R35, R45, R160, R181, R183, R306: between operations the session is open exactly while direct mode is
enabled, and then the chip select is asserted and the RX pin an input; no countdown is in progress; the fault mark says what
the overflow flag says; the ring's indices, count and cells agree; every marker is below `bitPos` at a UID bit that is 0. Every
step keeps it, those that run an SPI, RF or MOD row too (log entry 1). -/
def Obligations.StepKeepsTheInvariant : Prop :=
  ∀ s t : State, s.Inv → step s = .next t → t.Inv

/-- R157, R163, R33: an edge sets the flag if the host's enable is on and does nothing else; a millisecond counts down and sets
the timeout flag at 0; the host's own write of its enable writes nothing else. -/
def Obligations.AgentStepsWriteTheirFlags : Prop :=
  (∀ (s : State) (rest : List Input), s.inputs = .irqEdge :: rest →
    step s = .next { s with inputs := rest, irqFlag := s.irqFlag || s.hostIe }) ∧
  (∀ (s : State) (rest : List Input), s.inputs = .msTick :: rest →
    step s = .next { s with
      inputs := rest, countdown := BitVec.ofNat 16 (s.countdown.toNat - 1),
      timeoutFlag := s.timeoutFlag || s.countdown == 1 }) ∧
  ∀ (s : State) (on : Bool) (rest : List Input), s.inputs = .hostIe on :: rest →
    step s = .next { s with inputs := rest, hostIe := on }

/-- R25, R26, R32, R33, R38, and for the SPI, RF and MOD rows, whose effect as instructions is the model's choice, log entries 18,
19 and 20: no instruction changes the host's interrupt enable; only `DM_ENABLE` and `DM_DISABLE` change the
session, direct mode and the RX pin; besides them only `CS_ASSERT` and `CS_DEASSERT` leave the chip select changed. -/
def Obligations.OnlyDirectModeChangesTheSession : Prop :=
  ∀ (i : Instr) (s t : State), exec i s = .next t →
    t.hostIe = s.hostIe ∧
    ((∀ mode, i ≠ .dmEnable mode) → i ≠ .dmDisable →
      t.sessionOpen = s.sessionOpen ∧ t.dmEnabled = s.dmEnabled ∧ t.dmCfg = s.dmCfg ∧ t.rxPinMode = s.rxPinMode ∧
      (i ≠ .csAssert → i ≠ .csDeassert → t.cs = s.cs))

/-- R36, R38, and for the SPI, RF and MOD rows, whose effect as instructions is the model's choice, log entries 18, 19 and 20:
only `DO_ANTICOL`, `SELECT_FIRST` and `SELECT_NEXT` touch the anti-collision record; only instructions that wait
touch the IRQ flag, the countdown and the ring: no UTL or PHY operation, no chip select or register access does. -/
def Obligations.OnlySearchChangesTheRecord : Prop :=
  ∀ (i : Instr) (s t : State), exec i s = .next t →
    (i ≠ .doAnticol → (∀ cmd, i ≠ .selectFirst cmd) → (∀ cmd, i ≠ .selectNext cmd) → t.acs = s.acs) ∧
    (∀ op, hostOp i = some op →
      op ∈ ([.csAssert, .csDeassert, .writeReg, .readReg, .writeCont, .readCont, .directCmd, .dmEnable, .dmDisable,
             .dmTransceive, .setParity, .checkParity, .appendCrc, .checkCrc] : List HostOp) →
      t.irqFlag = s.irqFlag ∧ t.timeoutFlag = s.timeoutFlag ∧ t.countdown = s.countdown ∧ t.ring = s.ring ∧
      t.fifoOvf = s.fifoOvf ∧ t.faults = s.faults)
end

