-- ==== Sys2Proof/Laws/Memory.lean ====
section
/-! SUPPORT. The laws of the ring's cells (log entry 10): a byte is read back where it was written, nowhere else, and every
write keeps the canonical form; and of the anti-collision record's bits (R256). -/

namespace Sys2Proof.Machine

/-! ### Cells -/

/-- The canonical form as a proposition. -/
theorem Memory.wf_iff (m : Memory) : Memory.wf m = true ↔ m.Pairwise (·.1 < ·.1) := by simp [Memory.wf]

/-- Nothing listed is in canonical form. -/
theorem Memory.wf_nil : Memory.wf [] = true := rfl

/-- Memory right after reset is in canonical form. -/
theorem reset_memory_wf : Memory.wf State.reset.ring.buf = true := rfl

@[simp] theorem Memory.read_nil (a : Nat) : Memory.read [] a = none := rfl

theorem Memory.read_cons (c : Host.Cell) (m : Memory) (a : Nat) :
    Memory.read (c :: m) a = if c.1 = a then some c.2 else Memory.read m a := by
  by_cases h : c.1 = a <;> simp [Memory.read, h]

/-- Every cell of a write is the new one or an old one. -/
theorem Memory.mem_write {m : Memory} {a : Nat} {b : Byte} {c : Host.Cell} (h : c ∈ Memory.write m a b) :
    c = (a, b) ∨ c ∈ m := by
  induction m with
  | nil => simp_all [Memory.write]
  | cons d m ih =>
    unfold Memory.write at h
    split at h
    · simpa using h
    · split at h
      · rcases List.mem_cons.1 h with h | h <;> simp [h]
      · rcases List.mem_cons.1 h with h | h
        · simp [h]
        · rcases ih h with h | h <;> simp [h]

/-- A write keeps the canonical form. -/
theorem Memory.wf_write {m : Memory} (h : Memory.wf m = true) (a : Nat) (b : Byte) :
    Memory.wf (Memory.write m a b) = true := by
  rw [Memory.wf_iff] at *
  induction m with
  | nil => simp [Memory.write]
  | cons d m ih =>
    obtain ⟨hd, hm⟩ := List.pairwise_cons.1 h
    unfold Memory.write
    split
    · next hlt =>
      refine List.pairwise_cons.2 ⟨fun c hc => ?_, h⟩
      rcases List.mem_cons.1 hc with rfl | hc
      · exact hlt
      · exact hlt.trans (hd c hc)
    · split
      · next heq => exact List.pairwise_cons.2 ⟨fun c hc => heq ▸ hd c hc, hm⟩
      · next hge hne =>
        refine List.pairwise_cons.2 ⟨fun c hc => ?_, ih hm⟩
        rcases Memory.mem_write hc with rfl | hc
        · simp only; omega
        · exact hd c hc

/-- In canonical form nothing is listed below the first cell. -/
theorem Memory.read_lt {d : Host.Cell} {m : Memory} (h : (d :: m).Pairwise (·.1 < ·.1)) {a : Nat} (ha : a < d.1) :
    Memory.read m a = none := by
  have hd := (List.pairwise_cons.1 h).1
  simp only [Memory.read, Option.map_eq_none_iff, List.find?_eq_none, beq_iff_eq]
  intro c hc
  have := hd c hc
  omega

/-- A byte is read back where it was written, and every other address reads as before. -/
theorem Memory.read_write {m : Memory} (h : Memory.wf m = true) (a x : Nat) (b : Byte) :
    Memory.read (Memory.write m a b) x = if x = a then some b else Memory.read m x := by
  rw [Memory.wf_iff] at h
  induction m with
  | nil => simp [Memory.write, Memory.read_cons, eq_comm]
  | cons d m ih =>
    unfold Memory.write
    split
    · next hlt => simp [Memory.read_cons, eq_comm]
    · split
      · next heq =>
        simp only [Memory.read_cons, heq]
        by_cases hx : x = d.1 <;> simp [hx, eq_comm]
      · next hge hne =>
        simp only [Memory.read_cons, ih (List.pairwise_cons.1 h).2]
        by_cases hx : d.1 = x
        · subst hx; simp [Ne.symm hne]
        · simp [hx]

/-- The cells of `l`, listed from address 0 on, are in canonical form. -/
theorem Memory.wf_range (n : Nat) (f : Nat → Byte) : Memory.wf ((List.range n).map fun i => (i, f i)) = true := by
  rw [Memory.wf_iff, List.pairwise_map]
  exact List.pairwise_lt_range

/-! ### Bits of the anti-collision record -/

theorem setByteBit_getLsbD (b : Byte) (i j : Nat) (hj : j < 8) (x : Bit) :
    (setByteBit b i x).getLsbD j = if i = j then x else b.getLsbD j := by
  unfold setByteBit
  by_cases h : i = j
  · subst h
    cases x
    · simp [hj]
    · simp [hj]
  · rcases Nat.lt_or_gt_of_ne h with h' | h'
    · have : j - i ≠ 0 := by omega
      cases x
      · simp [h, hj, this]
      · simp [h, hj, this]
    · cases x
      · simp [h, hj, h']
      · simp [h, hj, h']

/-- R256: writing bit `p` of an array of the record writes that bit and no other. -/
theorem bitAt_setBitAt (v : Vector Byte 15) (p q : Nat) (x : Bit) :
    bitAt (setBitAt v p x) q = if p = q ∧ p < 120 then x else bitAt v q := by
  unfold bitAt setBitAt
  rw [Vector.toList_setIfInBounds]
  simp only [List.getD_eq_getElem?_getD, List.getElem?_set, Vector.length_toList]
  by_cases hd : p / 8 = q / 8
  · by_cases hb : q / 8 < 15
    · have hb' : p / 8 < 15 := by omega
      simp only [hd, hb, if_true, Option.getD_some]
      rw [setByteBit_getLsbD _ _ _ (Nat.mod_lt _ (by decide))]
      by_cases hm : p % 8 = q % 8
      · have : p = q := by omega
        subst this
        have : p < 120 := by omega
        simp [this]
      · have : p ≠ q := fun h => hm (by rw [h])
        simp [hm, this]
    · have : ¬ p < 120 := by omega
      simp [hd, hb, this]
  · have : p ≠ q := fun h => hd (by rw [h])
    simp [hd, this]

@[simp] theorem AnticolState.setUidBit_uidBit (st : AnticolState) (p q : Nat) (x : Bit) :
    (st.setUidBit p x).uidBit q = if p = q ∧ p < 120 then x else st.uidBit q := bitAt_setBitAt _ _ _ _
@[simp] theorem AnticolState.setCollBit_collBit (st : AnticolState) (p q : Nat) (x : Bit) :
    (st.setCollBit p x).collBit q = if p = q ∧ p < 120 then x else st.collBit q := bitAt_setBitAt _ _ _ _
@[simp] theorem AnticolState.setUidBit_collBit (st : AnticolState) (p q : Nat) (x : Bit) :
    (st.setUidBit p x).collBit q = st.collBit q := rfl
@[simp] theorem AnticolState.setCollBit_uidBit (st : AnticolState) (p q : Nat) (x : Bit) :
    (st.setCollBit p x).uidBit q = st.uidBit q := rfl
@[simp] theorem AnticolState.setUidBit_bitPos (st : AnticolState) (p : Nat) (x : Bit) :
    (st.setUidBit p x).bitPos = st.bitPos := rfl
@[simp] theorem AnticolState.setCollBit_bitPos (st : AnticolState) (p : Nat) (x : Bit) :
    (st.setCollBit p x).bitPos = st.bitPos := rfl

/-- R256: all bits of a record right after reset are 0. -/
theorem AnticolState.zero_uidBit (p : Nat) : AnticolState.zero.uidBit p = false := by
  simp only [AnticolState.uidBit, bitAt, AnticolState.zero, Vector.toList_replicate, List.getD_eq_getElem?_getD,
    List.getElem?_replicate]
  split <;> simp

theorem AnticolState.zero_collBit (p : Nat) : AnticolState.zero.collBit p = false := AnticolState.zero_uidBit p

/-- R258, R259: a run of bits written from position `p` on. -/
theorem AnticolState.setUidBits_uidBit (st : AnticolState) (p : Nat) (l : List Bit) (h : p + l.length ≤ 120) (q : Nat) :
    (st.setUidBits p l).uidBit q = if p ≤ q ∧ q < p + l.length then l.getD (q - p) false else st.uidBit q := by
  induction l generalizing st p with
  | nil => simp only [AnticolState.setUidBits, List.length_nil]; split <;> [omega; rfl]
  | cons b l ih =>
    simp only [List.length_cons] at h
    rw [AnticolState.setUidBits, ih _ _ (by omega), List.length_cons, AnticolState.setUidBit_uidBit]
    by_cases h1 : q = p
    · subst h1
      rw [if_neg (by omega), if_pos ⟨rfl, by omega⟩, if_pos (by omega)]
      simp
    · by_cases h2 : p + 1 ≤ q ∧ q < p + 1 + l.length
      · rw [if_pos h2, if_pos (by omega)]
        obtain ⟨k, rfl⟩ : ∃ k, q = p + 1 + k := ⟨q - p - 1, by omega⟩
        rw [show p + 1 + k - (p + 1) = k by omega, show p + 1 + k - p = k + 1 by omega, List.getD_cons_succ]
      · rw [if_neg h2, if_neg (by omega), if_neg (by omega)]

@[simp] theorem AnticolState.setUidBits_collBit (st : AnticolState) (p q : Nat) (l : List Bit) :
    (st.setUidBits p l).collBit q = st.collBit q := by
  induction l generalizing st p with
  | nil => rfl
  | cons b l ih => rw [AnticolState.setUidBits, ih]; rfl

@[simp] theorem AnticolState.setUidBits_bitPos (st : AnticolState) (p : Nat) (l : List Bit) :
    (st.setUidBits p l).bitPos = st.bitPos := by
  induction l generalizing st p with
  | nil => rfl
  | cons b l ih => rw [AnticolState.setUidBits, ih]; rfl

end Sys2Proof.Machine
end

