-- ==== Sys2Proof/Laws/State.lean ====
section
/-! SUPPORT. One lemma per field for each update of the state that the operations are made of: `emit`, `respond`, `csLow`,
`csHigh`. -/

namespace Sys2Proof.Machine

@[simp] theorem State.emit_busy (s : State) (es : List Event) : (s.emit es).busy = s.busy := rfl
@[simp] theorem State.emit_cs (s : State) (es : List Event) : (s.emit es).cs = s.cs := rfl
@[simp] theorem State.emit_sessionOpen (s : State) (es : List Event) : (s.emit es).sessionOpen = s.sessionOpen := rfl
@[simp] theorem State.emit_rxPinMode (s : State) (es : List Event) : (s.emit es).rxPinMode = s.rxPinMode := rfl
@[simp] theorem State.emit_irqFlag (s : State) (es : List Event) : (s.emit es).irqFlag = s.irqFlag := rfl
@[simp] theorem State.emit_timeoutFlag (s : State) (es : List Event) : (s.emit es).timeoutFlag = s.timeoutFlag := rfl
@[simp] theorem State.emit_countdown (s : State) (es : List Event) : (s.emit es).countdown = s.countdown := rfl
@[simp] theorem State.emit_ring (s : State) (es : List Event) : (s.emit es).ring = s.ring := rfl
@[simp] theorem State.emit_fifoOvf (s : State) (es : List Event) : (s.emit es).fifoOvf = s.fifoOvf := rfl
@[simp] theorem State.emit_faults (s : State) (es : List Event) : (s.emit es).faults = s.faults := rfl
@[simp] theorem State.emit_dmEnabled (s : State) (es : List Event) : (s.emit es).dmEnabled = s.dmEnabled := rfl
@[simp] theorem State.emit_dmCfg (s : State) (es : List Event) : (s.emit es).dmCfg = s.dmCfg := rfl
@[simp] theorem State.emit_hostIe (s : State) (es : List Event) : (s.emit es).hostIe = s.hostIe := rfl
@[simp] theorem State.emit_acs (s : State) (es : List Event) : (s.emit es).acs = s.acs := rfl
@[simp] theorem State.emit_trace (s : State) (es : List Event) : (s.emit es).trace = s.trace ++ es := rfl
@[simp] theorem State.emit_responses (s : State) (es : List Event) : (s.emit es).responses = s.responses := rfl
@[simp] theorem State.emit_inputs (s : State) (es : List Event) : (s.emit es).inputs = s.inputs := rfl
@[simp] theorem State.emit_env (s : State) (es : List Event) : (s.emit es).env = s.env := rfl

@[simp] theorem State.respond_busy (s : State) (r : Response) : (s.respond r).busy = s.busy := rfl
@[simp] theorem State.respond_cs (s : State) (r : Response) : (s.respond r).cs = s.cs := rfl
@[simp] theorem State.respond_sessionOpen (s : State) (r : Response) : (s.respond r).sessionOpen = s.sessionOpen := rfl
@[simp] theorem State.respond_rxPinMode (s : State) (r : Response) : (s.respond r).rxPinMode = s.rxPinMode := rfl
@[simp] theorem State.respond_irqFlag (s : State) (r : Response) : (s.respond r).irqFlag = s.irqFlag := rfl
@[simp] theorem State.respond_timeoutFlag (s : State) (r : Response) : (s.respond r).timeoutFlag = s.timeoutFlag := rfl
@[simp] theorem State.respond_countdown (s : State) (r : Response) : (s.respond r).countdown = s.countdown := rfl
@[simp] theorem State.respond_ring (s : State) (r : Response) : (s.respond r).ring = s.ring := rfl
@[simp] theorem State.respond_fifoOvf (s : State) (r : Response) : (s.respond r).fifoOvf = s.fifoOvf := rfl
@[simp] theorem State.respond_faults (s : State) (r : Response) : (s.respond r).faults = s.faults := rfl
@[simp] theorem State.respond_dmEnabled (s : State) (r : Response) : (s.respond r).dmEnabled = s.dmEnabled := rfl
@[simp] theorem State.respond_dmCfg (s : State) (r : Response) : (s.respond r).dmCfg = s.dmCfg := rfl
@[simp] theorem State.respond_hostIe (s : State) (r : Response) : (s.respond r).hostIe = s.hostIe := rfl
@[simp] theorem State.respond_acs (s : State) (r : Response) : (s.respond r).acs = s.acs := rfl
@[simp] theorem State.respond_trace (s : State) (r : Response) : (s.respond r).trace = s.trace := rfl
@[simp] theorem State.respond_responses (s : State) (r : Response) : (s.respond r).responses = s.responses ++ [r] := rfl
@[simp] theorem State.respond_inputs (s : State) (r : Response) : (s.respond r).inputs = s.inputs := rfl
@[simp] theorem State.respond_env (s : State) (r : Response) : (s.respond r).env = s.env := rfl

@[simp] theorem csLow_busy (s : State) : (csLow s).busy = s.busy := rfl
@[simp] theorem csLow_cs (s : State) : (csLow s).cs = true := rfl
@[simp] theorem csLow_sessionOpen (s : State) : (csLow s).sessionOpen = s.sessionOpen := rfl
@[simp] theorem csLow_rxPinMode (s : State) : (csLow s).rxPinMode = s.rxPinMode := rfl
@[simp] theorem csLow_irqFlag (s : State) : (csLow s).irqFlag = s.irqFlag := rfl
@[simp] theorem csLow_timeoutFlag (s : State) : (csLow s).timeoutFlag = s.timeoutFlag := rfl
@[simp] theorem csLow_countdown (s : State) : (csLow s).countdown = s.countdown := rfl
@[simp] theorem csLow_ring (s : State) : (csLow s).ring = s.ring := rfl
@[simp] theorem csLow_fifoOvf (s : State) : (csLow s).fifoOvf = s.fifoOvf := rfl
@[simp] theorem csLow_faults (s : State) : (csLow s).faults = s.faults := rfl
@[simp] theorem csLow_dmEnabled (s : State) : (csLow s).dmEnabled = s.dmEnabled := rfl
@[simp] theorem csLow_dmCfg (s : State) : (csLow s).dmCfg = s.dmCfg := rfl
@[simp] theorem csLow_hostIe (s : State) : (csLow s).hostIe = s.hostIe := rfl
@[simp] theorem csLow_acs (s : State) : (csLow s).acs = s.acs := rfl
@[simp] theorem csLow_trace (s : State) : (csLow s).trace = s.trace ++ [.csLow] := rfl
@[simp] theorem csLow_responses (s : State) : (csLow s).responses = s.responses := rfl
@[simp] theorem csLow_inputs (s : State) : (csLow s).inputs = s.inputs := rfl
@[simp] theorem csLow_env (s : State) : (csLow s).env = s.env := rfl

@[simp] theorem csHigh_busy (s : State) : (csHigh s).busy = s.busy := rfl
@[simp] theorem csHigh_cs (s : State) : (csHigh s).cs = false := rfl
@[simp] theorem csHigh_sessionOpen (s : State) : (csHigh s).sessionOpen = s.sessionOpen := rfl
@[simp] theorem csHigh_rxPinMode (s : State) : (csHigh s).rxPinMode = s.rxPinMode := rfl
@[simp] theorem csHigh_irqFlag (s : State) : (csHigh s).irqFlag = s.irqFlag := rfl
@[simp] theorem csHigh_timeoutFlag (s : State) : (csHigh s).timeoutFlag = s.timeoutFlag := rfl
@[simp] theorem csHigh_countdown (s : State) : (csHigh s).countdown = s.countdown := rfl
@[simp] theorem csHigh_ring (s : State) : (csHigh s).ring = s.ring := rfl
@[simp] theorem csHigh_fifoOvf (s : State) : (csHigh s).fifoOvf = s.fifoOvf := rfl
@[simp] theorem csHigh_faults (s : State) : (csHigh s).faults = s.faults := rfl
@[simp] theorem csHigh_dmEnabled (s : State) : (csHigh s).dmEnabled = s.dmEnabled := rfl
@[simp] theorem csHigh_dmCfg (s : State) : (csHigh s).dmCfg = s.dmCfg := rfl
@[simp] theorem csHigh_hostIe (s : State) : (csHigh s).hostIe = s.hostIe := rfl
@[simp] theorem csHigh_acs (s : State) : (csHigh s).acs = s.acs := rfl
@[simp] theorem csHigh_trace (s : State) : (csHigh s).trace = s.trace ++ [.csHigh] := rfl
@[simp] theorem csHigh_responses (s : State) : (csHigh s).responses = s.responses := rfl
@[simp] theorem csHigh_inputs (s : State) : (csHigh s).inputs = s.inputs := rfl
@[simp] theorem csHigh_env (s : State) : (csHigh s).env = s.env := rfl

/-- Events emitted in two goes are events emitted in one. -/
@[simp] theorem State.emit_emit (s : State) (es fs : List Event) : (s.emit es).emit fs = s.emit (es ++ fs) := by
  simp [State.emit]

@[simp] theorem State.emit_nil (s : State) : s.emit [] = s := by simp [State.emit]

end Sys2Proof.Machine
end

