-- ==== Sys2Proof/Laws/Ops.lean ====
section
/-! SUPPORT. What each shared operation can do, said once: the draws, the SPI transaction and the register accesses, the start
and end of an operation, and what an IRQ wait, a FIFO write and an exchange may write. -/

namespace Sys2Proof.Machine

/-! ### Draws -/

@[simp] theorem Env.bytes_zero (e : Env) : e.bytes 0 = ([], e) := rfl

/-- R14: `n` bytes are drawn when `n` are asked for. -/
@[simp] theorem Env.bytes_length (n : Nat) (e : Env) : (e.bytes n).1.length = n := by
  induction n generalizing e with
  | zero => rfl
  | succ n ih => simp [Env.bytes, ih]

/-- A script of at least `n` bytes gives its first `n`. -/
theorem Env.bytes_script (l rest : List Byte) (e : Env) (h : e.spiIn = l ++ rest) :
    e.bytes l.length = (l, { e with spiIn := rest }) := by
  induction l generalizing e with
  | nil => simp_all; cases e; simp_all
  | cons b l ih =>
    have hb : e.byte = (b, { e with spiIn := l ++ rest }) := by simp [Env.byte, h]
    simp [Env.bytes, hb, ih { e with spiIn := l ++ rest } rfl]

/-! ### Starting and ending an operation -/

/-- R23: an operation issued while another runs. -/
theorem issue_busy {refused : Option Status} {body : State → Response × State} {s : State} (h : s.busy = true) :
    issue refused body s = s.respond (.status .busy []) := by simp [issue, h]

/-- R293: a refused operation. -/
theorem issue_refused {st : Status} {body : State → Response × State} {s : State} (h : s.busy = false) :
    issue (some st) body s = s.respond (.status st []) := by simp [issue, h]

/-- R292: an operation that starts runs its body and answers. -/
theorem issue_runs {body : State → Response × State} {s : State} (h : s.busy = false) :
    issue none body s =
      ({ (body { s with busy := true }).2 with busy := false } : State).respond (body { s with busy := true }).1 := by
  simp [issue, h]

@[simp] theorem refusal_some (st : Status) (b : Bool) : refusal (some st) b = some st := rfl
@[simp] theorem refusal_none_true : refusal none true = none := rfl
@[simp] theorem refusal_none_false : refusal none false = some .badOperand := rfl

/-- R293: an operation with an operand out of range is refused by its guard, else with `BAD_OPERAND`. -/
theorem issue_badOperand {g : Option Status} {body : State → Response × State} {s : State} (h : s.busy = false) :
    issue (refusal g false) body s = s.respond (.status (g.getD .badOperand) []) := by
  cases g <;> simp [issue, h, refusal]

/-- R292: an operation that nothing refuses runs its body and ends. -/
theorem issue_starts {body : State → Response × State} {s : State} (h : s.busy = false) :
    issue (refusal none true) body s = (body s.running).2.ended (body s.running).1 := issue_runs h

@[simp] theorem State.ended_responses (s : State) (r : Response) : (s.ended r).responses = s.responses ++ [r] := rfl
@[simp] theorem State.running_env (s : State) : s.running.env = s.env := rfl
@[simp] theorem State.running_cs (s : State) : s.running.cs = s.cs := rfl
@[simp] theorem State.running_trace (s : State) : s.running.trace = s.trace := rfl

/-- R140: the guard of SEQ and ACE lets an operation through when no session is open. -/
theorem seqGuard_closed {s : State} (h : s.sessionOpen = false) : seqGuard s = none := by simp [seqGuard, h]

/-- R140: and refuses it when one is. -/
theorem seqGuard_open {s : State} (h : s.sessionOpen = true) : seqGuard s = some .seqSessionOpen := by simp [seqGuard, h]

/-! ### The SPI transaction -/

/-- R143: everything a transaction does: its events, in a window of its own or in the host's, and the bytes drawn. -/
theorem txn_eq (cmd : Byte) (out : List Byte) (nin : Nat) (s : State) :
    txn cmd out nin s =
      ((s.env.bytes nin).1,
        { s with
          trace := s.trace ++
            inWindow s.cs (.spiOut cmd :: out.map .spiOut ++ (s.env.bytes nin).1.map .spiIn),
          env := (s.env.bytes nin).2 }) := by
  cases s with
  | mk busy cs =>
    cases cs <;> simp [txn, spiRead, csLow, csHigh, State.emit, inWindow]

/-- R144: a single write. -/
theorem writeReg_eq (a : BitVec 5) (v : Byte) (s : State) :
    writeReg a v s =
      { s with trace := s.trace ++ inWindow s.cs [.spiOut (spiWriteByte a), .spiOut v] } := by
  simp [writeReg, txn_eq]

/-- R148: a continuous write. -/
theorem writeCont_eq (a : BitVec 5) (data : List Byte) (s : State) :
    writeCont a data s =
      { s with trace := s.trace ++ inWindow s.cs (.spiOut (spiWriteContByte a) :: data.map .spiOut) } := by
  simp [writeCont, txn_eq]

/-- R152: a direct command. -/
theorem directCmd_eq (c : BitVec 5) (s : State) :
    directCmd c s = { s with trace := s.trace ++ inWindow s.cs [.spiOut (spiDirectByte c)] } := by
  simp [directCmd, txn_eq]

/-- R146: a single read. -/
theorem readReg_eq (a : BitVec 5) (s : State) :
    readReg a s =
      (s.env.byte.1,
        { s with
          trace := s.trace ++ inWindow s.cs [.spiOut (spiReadByte a), .spiIn s.env.byte.1], env := s.env.byte.2 }) := by
  simp [readReg, txn_eq, Env.bytes]

/-- R150: a continuous read. -/
theorem readCont_eq (a : BitVec 5) (n : Nat) (s : State) :
    readCont a n s =
      ((s.env.bytes n).1,
        { s with
          trace := s.trace ++
            inWindow s.cs (.spiOut (spiReadContByte a) :: (s.env.bytes n).1.map .spiIn),
          env := (s.env.bytes n).2 }) := by
  simp [readCont, txn_eq]

/-- R181, R183: a list of register writes. -/
theorem writeRegs_eq (l : List (BitVec 5 × Byte)) (s : State) :
    writeRegs l s =
      { s with
        trace := s.trace ++
          l.flatMap fun w => inWindow s.cs [.spiOut (spiWriteByte w.1), .spiOut w.2] } := by
  induction l generalizing s with
  | nil => simp [writeRegs]
  | cons w l ih =>
    have : writeRegs (w :: l) s = writeRegs l (writeReg w.1 w.2 s) := rfl
    simp [this, ih, writeReg_eq]

/-! ### What an exchange may write -/

theorem ExchangeWrites.refl (s : State) : ExchangeWrites s s := rfl

/-- What two operations that write no more than an exchange write together is no more than an exchange writes. -/
theorem ExchangeWrites.trans {s t u : State} (h : ExchangeWrites s t) (k : ExchangeWrites t u) : ExchangeWrites s u := by
  unfold ExchangeWrites at *
  rw [k, h]

/-- Closes `ExchangeWrites` for an update of its own fields. -/
theorem ExchangeWrites.of_fields {s t : State} (hb : t.busy = s.busy) (hc : t.cs = s.cs)
    (hs : t.sessionOpen = s.sessionOpen) (hp : t.rxPinMode = s.rxPinMode) (he : t.dmEnabled = s.dmEnabled)
    (hg : t.dmCfg = s.dmCfg) (hi : t.hostIe = s.hostIe) (ha : t.acs = s.acs) (hr : t.responses = s.responses)
    (hn : t.inputs = s.inputs) : ExchangeWrites s t := by
  cases s; cases t; simp_all [ExchangeWrites]

theorem txn_writes (cmd : Byte) (out : List Byte) (nin : Nat) (s : State) : ExchangeWrites s (txn cmd out nin s).2 := by
  rw [txn_eq]; rfl

theorem writeReg_writes (a : BitVec 5) (v : Byte) (s : State) : ExchangeWrites s (writeReg a v s) := txn_writes _ _ _ _

theorem writeCont_writes (a : BitVec 5) (data : List Byte) (s : State) : ExchangeWrites s (writeCont a data s) :=
  txn_writes _ _ _ _

theorem directCmd_writes (c : BitVec 5) (s : State) : ExchangeWrites s (directCmd c s) := txn_writes _ _ _ _

theorem readReg_writes (a : BitVec 5) (s : State) : ExchangeWrites s (readReg a s).2 := txn_writes _ _ _ _

theorem readCont_writes (a : BitVec 5) (n : Nat) (s : State) : ExchangeWrites s (readCont a n s).2 := txn_writes _ _ _ _

theorem ringUnspecified_writes (P : Params) (s : State) : ExchangeWrites s (ringUnspecified P s) := by
  unfold ringUnspecified; split <;> rfl

theorem ringPushCore_writes (P : Params) (b : Byte) (s : State) : ExchangeWrites s (ringPushCore P b s) := by
  unfold ringPushCore; split <;> rfl

theorem ringPush_writes (P : Params) (b : Byte) (s : State) : ExchangeWrites s (ringPush P b s) :=
  ((ringUnspecified_writes P s).trans (ringPushCore_writes P b _)).trans (ringUnspecified_writes P _)

theorem ringPopCore_writes (P : Params) (s : State) : ExchangeWrites s (ringPopCore P s).2 := by
  unfold ringPopCore; split <;> rfl

theorem ringPopN_writes (P : Params) (n : Nat) (s : State) : ExchangeWrites s (ringPopN P n s).2 := by
  induction n generalizing s with
  | zero => exact .refl s
  | succ n ih =>
    have h := ringPopCore_writes P s
    unfold ringPopN
    split
    · next t hq => rw [hq] at h; exact h
    · next b t hq => rw [hq] at h; exact h.trans (ih t)

theorem ringPopAll_writes (P : Params) (s : State) : ExchangeWrites s (ringPopAll P s).2 :=
  ((ringUnspecified_writes P s).trans (ringPopN_writes P _ _)).trans (ringUnspecified_writes P _)

theorem ringClear_writes (P : Params) (s : State) : ExchangeWrites s (ringClear P s) :=
  ExchangeWrites.trans (t := { s with ring := { s.ring with rd := 0, wr := 0, count := 0 } }) rfl
    (ringUnspecified_writes P _)

theorem ringPushes_writes (P : Params) (l : List Byte) (s : State) :
    ExchangeWrites s (l.foldl (fun t b => ringPush P b t) s) := by
  induction l generalizing s with
  | nil => exact .refl s
  | cons b l ih => exact (ringPush_writes P b s).trans (ih _)

theorem drain_writes (P : Params) (s : State) : ExchangeWrites s (drain P s) := by
  unfold drain
  dsimp only
  split
  · exact readReg_writes _ _
  · exact ((readReg_writes _ _).trans (readCont_writes _ _ _)).trans (ringPushes_writes _ _ _)

theorem irqHandler_writes (s : State) : ExchangeWrites s (irqHandler s) := by
  unfold irqHandler; split <;> rfl

theorem msTickStep_writes (s : State) : ExchangeWrites s (msTickStep s) := by
  unfold msTickStep; split <;> rfl

theorem pollEdge_writes (s : State) : ExchangeWrites s (pollEdge s) := by
  unfold pollEdge
  dsimp only
  split
  · exact ExchangeWrites.trans (t := { s with env := s.env.edge.2 }) rfl (irqHandler_writes _)
  · rfl

theorem waitLoop_writes (n : Nat) (s : State) : ExchangeWrites s (waitLoop n s) := by
  induction n generalizing s with
  | zero => unfold waitLoop; split; exacts [.refl s, pollEdge_writes s]
  | succ n ih =>
    unfold waitLoop
    dsimp only
    split
    · exact .refl s
    · split
      · exact pollEdge_writes s
      · exact ((pollEdge_writes s).trans (msTickStep_writes _)).trans (ih _)

/-- R156: a wait writes no more than an exchange. -/
theorem irqWait_writes (P : Params) (ms : BitVec 16) (s : State) : ExchangeWrites s (irqWait P ms s).2 := by
  have hw : ExchangeWrites s (waitLoop ms.toNat { s with timeoutFlag := ms == 0, countdown := ms }) :=
    ExchangeWrites.trans (t := { s with timeoutFlag := ms == 0, countdown := ms }) rfl (waitLoop_writes _ _)
  unfold irqWait
  dsimp only
  generalize waitLoop ms.toNat { s with timeoutFlag := ms == 0, countdown := ms } = w at hw ⊢
  split
  · have hr : ExchangeWrites s (readReg P.regIrqStatus { w with irqFlag := false, countdown := 0 }).2 :=
      hw.trans (ExchangeWrites.trans (t := { w with irqFlag := false, countdown := 0 }) rfl (readReg_writes _ _))
    dsimp only
    split
    · exact hr.trans (drain_writes _ _)
    · exact hr
  · exact hw

theorem fifoFeed_writes (P : Params) (n : Nat) (rest : List Byte) (s : State) :
    ExchangeWrites s (fifoFeed P n rest s).2 := by
  induction n generalizing rest s with
  | zero => exact .refl s
  | succ n ih =>
    unfold fifoFeed
    dsimp only
    split
    · exact .refl s
    · split
      · exact ((irqWait_writes P _ s).trans (writeCont_writes _ _ _)).trans (ih _ _)
      · exact irqWait_writes P _ s

/-- R154: a FIFO write writes no more than an exchange. -/
theorem fifoWrite_writes (P : Params) (data : List Byte) (s : State) : ExchangeWrites s (fifoWrite P data s).2 := by
  unfold fifoWrite
  split
  · exact .refl s
  · exact (writeCont_writes _ _ _).trans (fifoFeed_writes _ _ _ _)

theorem receiveLoop_writes (P : Params) (kind : ExchKind) (bb n : Nat) (s : State) :
    ExchangeWrites s (receiveLoop P kind bb n s).2 := by
  induction n generalizing s with
  | zero =>
    unfold receiveLoop
    dsimp only
    split
    all_goals first
      | exact irqWait_writes P _ s
      | exact (irqWait_writes P _ s).trans (ringPopAll_writes _ _)
      | exact ((irqWait_writes P _ s).trans (readReg_writes _ _)).trans (ringPopAll_writes _ _)
  | succ n ih =>
    unfold receiveLoop
    dsimp only
    split
    all_goals first
      | exact irqWait_writes P _ s
      | exact (irqWait_writes P _ s).trans (ih _)
      | exact (irqWait_writes P _ s).trans (ringPopAll_writes _ _)
      | exact ((irqWait_writes P _ s).trans (readReg_writes _ _)).trans (ringPopAll_writes _ _)

theorem exchangeSetup_writes (P : Params) (kind : ExchKind) (tx : List Bit) (s : State) :
    ExchangeWrites s (exchangeSetup P kind tx s) :=
  ((((writeReg_writes _ _ _).trans (directCmd_writes _ _)).trans (ringClear_writes _ _)).trans (directCmd_writes _ _)).trans
    (writeCont_writes _ _ _)

/-- R162: what an exchange may write, whatever its result. -/
theorem exchangeSeq_writes (P : Params) (kind : ExchKind) (tx : List Bit) (wantRx : Bool) (s : State) :
    ExchangeWrites s (exchangeSeq P kind tx wantRx s).2 := by
  have hf := (exchangeSetup_writes P kind tx s).trans (fifoWrite_writes P (packLsb tx) _)
  unfold exchangeSeq
  dsimp only
  split
  · exact hf
  · split
    · split
      · exact (hf.trans (irqWait_writes P _ _)).trans (receiveLoop_writes _ _ _ _ _)
      · exact hf.trans (irqWait_writes P _ _)
    · exact hf.trans (irqWait_writes P _ _)

end Sys2Proof.Machine
end

