-- ==== Sys2Proof/Laws/Ring.lean ====
section
/-! SUPPORT. The parameters of this model are in the ranges of spec/00_scope.md R10, and the laws of the ring (40_seq.md R160):
every ring operation keeps `Ring.Inv`, and what a push, a pop and a clear make of the bytes in the ring. -/

namespace Sys2Proof.Machine

/-- R10: the parameters are in range, whatever the OPEN ones are. -/
theorem params_inRange : params.InRange where
  rxIgnore := by unfold params rxIgnoreWindow; cases Config.rxIgnoreIsSix <;> simp
  rxStartTimeout := Nat.succ_pos _
  rxMaxSamples _ := Nat.le_add_right _ _
  fifoRefill := ⟨Nat.succ_pos _, Config.fifoRefillPred.isLt⟩
  fifoMirrorCap := Nat.succ_pos _

/-! ### The invariant -/

/-- R44: the ring right after reset. -/
theorem Ring.inv_reset (cap : Nat) (h : 0 < cap) : Ring.Inv cap false State.reset.ring where
  canonical := rfl
  inside := by simp [State.reset]
  rd_lt := h
  wr_lt := h
  count_le := Nat.zero_le _
  linked _ := by simp [State.reset]
  live _ j hj := absurd hj (by simp [State.reset])

/-- After an overflow the invariant asks less (U3). -/
theorem Ring.Inv.overflowed {cap : Nat} {o : Bool} {r : Ring} (h : r.Inv cap o) : r.Inv cap true :=
  { canonical := h.canonical, inside := h.inside, rd_lt := h.rd_lt, wr_lt := h.wr_lt, count_le := h.count_le
    linked := fun k => absurd k (by simp), live := fun k => absurd k (by simp) }

/-- R160: `RingClear` keeps the invariant. -/
theorem Ring.Inv.clear {cap : Nat} {o : Bool} {r : Ring} (h : r.Inv cap o) :
    Ring.Inv cap o { r with rd := 0, wr := 0, count := 0 } where
  canonical := h.canonical
  inside := h.inside
  rd_lt := Nat.zero_lt_of_lt h.rd_lt
  wr_lt := Nat.zero_lt_of_lt h.rd_lt
  count_le := Nat.zero_le _
  linked _ := by simp
  live _ j hj := absurd hj (Nat.not_lt_zero j)

/-- R160: a push into a ring with room keeps the invariant. -/
theorem Ring.Inv.push {cap : Nat} {o : Bool} {r : Ring} (h : r.Inv cap o) (hc : r.count < cap) (b : Byte) :
    Ring.Inv cap o { r with buf := Memory.write r.buf r.wr b, wr := (r.wr + 1) % cap, count := r.count + 1 } where
  canonical := Memory.wf_write h.canonical _ _
  inside c hm := by
    rcases Memory.mem_write hm with rfl | hm
    · exact h.wr_lt
    · exact h.inside c hm
  rd_lt := h.rd_lt
  wr_lt := Nat.mod_lt _ (Nat.zero_lt_of_lt h.rd_lt)
  count_le := hc
  linked k := by simp only [h.linked k]; rw [Nat.mod_add_mod]; rfl
  live k j hj := by
    simp only
    rw [Memory.read_write h.canonical]
    split
    · rfl
    · next hne =>
      refine h.live k j (Nat.lt_of_le_of_ne (Nat.lt_succ_iff.1 hj) fun e => hne ?_)
      rw [e, h.linked k]

/-- R160: a pop from a ring that is not empty keeps the invariant. -/
theorem Ring.Inv.pop {cap : Nat} {o : Bool} {r : Ring} (h : r.Inv cap o) (hc : r.count ≠ 0) :
    Ring.Inv cap o { r with rd := (r.rd + 1) % cap, count := r.count - 1 } where
  canonical := h.canonical
  inside := h.inside
  rd_lt := Nat.mod_lt _ (Nat.zero_lt_of_lt h.rd_lt)
  wr_lt := h.wr_lt
  count_le := (Nat.sub_le _ _).trans h.count_le
  linked k := by
    simp only [Nat.mod_add_mod, h.linked k]
    congr 1
    omega
  live k j hj := by
    simp only [Nat.mod_add_mod] at *
    have := h.live k (j + 1) (by omega)
    rwa [show r.rd + 1 + j = r.rd + (j + 1) by omega]

/-- U3: any ring keeps what is left of the invariant. -/
theorem ringHavoc_inv (P : Params) (hP : 0 < P.fifoMirrorCap) (s : State) :
    (ringHavoc P s).ring.Inv P.fifoMirrorCap true where
  canonical := Memory.wf_range _ _
  inside c hc := by
    simp only [ringHavoc, List.mem_map, List.mem_range] at hc
    obtain ⟨i, hi, rfl⟩ := hc
    exact hi
  rd_lt := Nat.mod_lt _ hP
  wr_lt := Nat.mod_lt _ hP
  count_le := Nat.lt_succ_iff.1 (Nat.mod_lt _ (Nat.succ_pos _))
  linked k := absurd k (by simp)
  live k := absurd k (by simp)

/-- What the ring operations keep: the ring's invariant, and that the mark says what the flag says (R45). -/
structure RingOk (P : Params) (s : State) : Prop where
  ring : s.ring.Inv P.fifoMirrorCap s.fifoOvf
  mark : s.faults = if s.fifoOvf then [.fifoOverflow] else []

theorem ringUnspecified_ok {P : Params} (hP : P.InRange) {s : State} (h : RingOk P s) : RingOk P (ringUnspecified P s) := by
  unfold ringUnspecified
  split
  · next ho =>
    refine ⟨?_, h.mark⟩
    have := ringHavoc_inv P hP.fifoMirrorCap s
    rwa [← ho] at this
  · exact h

theorem ringPushCore_ok {P : Params} {s : State} (b : Byte) (h : RingOk P s) : RingOk P (ringPushCore P b s) := by
  unfold ringPushCore
  split
  · refine ⟨h.ring.overflowed, ?_⟩
    have := h.mark
    cases ho : s.fifoOvf <;> simp_all [State.emit]
  · next hne => exact ⟨h.ring.push (Nat.lt_of_le_of_ne h.ring.count_le hne) b, h.mark⟩

/-- R160: `RingPush` keeps the ring. -/
theorem ringPush_ok {P : Params} (hP : P.InRange) {s : State} (b : Byte) (h : RingOk P s) : RingOk P (ringPush P b s) :=
  ringUnspecified_ok hP (ringPushCore_ok b (ringUnspecified_ok hP h))

theorem ringPopCore_ok {P : Params} {s : State} (h : RingOk P s) : RingOk P (ringPopCore P s).2 := by
  unfold ringPopCore
  split
  · exact h
  · next hne => exact ⟨h.ring.pop hne, h.mark⟩

theorem ringPopN_ok {P : Params} (n : Nat) {s : State} (h : RingOk P s) : RingOk P (ringPopN P n s).2 := by
  induction n generalizing s with
  | zero => exact h
  | succ n ih =>
    have hk := ringPopCore_ok h
    unfold ringPopN
    split
    · next t hq => rw [hq] at hk; exact hk
    · next b t hq => rw [hq] at hk; exact ih hk

/-- R162: `PopAll` keeps the ring. -/
theorem ringPopAll_ok {P : Params} (hP : P.InRange) {s : State} (h : RingOk P s) : RingOk P (ringPopAll P s).2 :=
  ringUnspecified_ok hP (ringPopN_ok _ (ringUnspecified_ok hP h))

/-- R160: `RingClear` keeps the ring. -/
theorem ringClear_ok {P : Params} (hP : P.InRange) {s : State} (h : RingOk P s) : RingOk P (ringClear P s) :=
  ringUnspecified_ok hP ⟨h.ring.clear, h.mark⟩

/-! ### The bytes in the ring -/

/-- R160: a push appends its byte to the bytes in the ring. -/
theorem Ring.contents_push {cap : Nat} {r : Ring} (h : r.Inv cap false) (hc : r.count < cap) (b : Byte) :
    Ring.contents cap { r with buf := Memory.write r.buf r.wr b, wr := (r.wr + 1) % cap, count := r.count + 1 } =
      r.contents cap ++ [b] := by
  simp only [Ring.contents, List.range_succ, List.map_append, List.map_cons, List.map_nil]
  congr 1
  · refine List.map_congr_left fun j hj => ?_
    have hj := List.mem_range.1 hj
    simp only [Ring.cell, Memory.read_write h.canonical, h.linked rfl]
    have hlt : (r.rd + j) % cap ≠ (r.rd + r.count) % cap := by
      intro e
      have := h.rd_lt
      have : (r.rd + j) ≡ (r.rd + r.count) [MOD cap] := e
      have := Nat.ModEq.add_left_cancel' _ this
      rw [Nat.ModEq, Nat.mod_eq_of_lt (by omega), Nat.mod_eq_of_lt hc] at this
      omega
    rw [if_neg hlt]
  · simp [Ring.cell, Memory.read_write h.canonical, h.linked rfl]

/-- R160: a pop takes the oldest of the bytes in the ring. -/
theorem Ring.contents_pop {cap : Nat} {r : Ring} (hc : r.count ≠ 0) (hr : r.rd < cap) :
    r.contents cap = r.cell r.rd :: Ring.contents cap { r with rd := (r.rd + 1) % cap, count := r.count - 1 } := by
  obtain ⟨n, hn⟩ := Nat.exists_eq_succ_of_ne_zero hc
  simp only [Ring.contents, hn, Nat.succ_eq_add_one, List.range_succ_eq_map, List.map_cons, List.map_map, Nat.add_zero,
    Nat.mod_eq_of_lt hr, Nat.add_sub_cancel, List.cons.injEq, true_and]
  refine List.map_congr_left fun j _ => ?_
  simp only [Function.comp, Ring.cell, Nat.mod_add_mod, Nat.succ_eq_add_one]
  rw [show r.rd + (j + 1) = r.rd + 1 + j by omega]

@[simp] theorem Ring.contents_length (cap : Nat) (r : Ring) : (r.contents cap).length = r.count := by simp [Ring.contents]

end Sys2Proof.Machine
end

