-- ==== Sys2Proof/Laws/Ace.lean ====
section
/-! SUPPORT. What the procedures of ACE and the sampler of PHY can do, said once: a search writes to the block no more than its
exchanges do (43_iso14443a.md R255), the marker it goes back to is the highest (R268), a round keeps the record's invariant
(10_state.md R35), and a receive only samples (41_phy.md R191). -/

namespace Sys2Proof.Machine

/-- R250: REQA writes no more than its exchange. -/
theorem reqa_writes (P : Params) (cmd : BitVec 7) (s : State) : ExchangeWrites s (reqa P cmd s).2 :=
  exchangeSeq_writes _ _ _ _ _

/-- R276: so does HALT. -/
theorem halt_writes (P : Params) (s : State) : ExchangeWrites s (halt P s).2 := exchangeSeq_writes _ _ _ _ _

/-- R255: the rounds of a level write no more than exchanges. -/
theorem anticolRounds_writes (P : Params) (lvl n : Nat) (st : AnticolState) (s : State) :
    ExchangeWrites s (anticolRounds P lvl n st s).2.2 := by
  induction n generalizing st s with
  | zero => exact .refl s
  | succ n ih =>
    unfold anticolRounds
    split
    · dsimp only
      split
      · exact exchangeSeq_writes _ _ _ _ _
      · exact (exchangeSeq_writes _ _ _ _ _).trans (ih _ _)
    · exact .refl s

theorem searchLevels_writes (P : Params) (n lvl : Nat) (st : AnticolState) (s : State) :
    ExchangeWrites s (searchLevels P n lvl st s).2.2 := by
  induction n generalizing lvl st s with
  | zero => exact .refl s
  | succ n ih =>
    have h := anticolRounds_writes P lvl levelBits st s
    unfold searchLevels
    split
    · next hq => rw [hq] at h; exact h
    · next st1 s1 hq =>
      rw [hq] at h
      have h2 : ExchangeWrites s (selectExchange P lvl st1 s1).2 := h.trans (exchangeSeq_writes _ _ _ _ _)
      dsimp only
      split
      · exact h2
      · split
        · exact h2.trans (ih _ _ _)
        · exact h2

/-- R255: a search writes no more than exchanges; the record is its argument and its result. -/
theorem doAnticol_writes (P : Params) (st : AnticolState) (s : State) : ExchangeWrites s (doAnticol P st s).2.2 :=
  searchLevels_writes _ _ _ _ _

/-- R268: the marker nearest below `n` is the highest one below `n`. -/
theorem AnticolState.markerBelow_eq_some {st : AnticolState} {n p : Nat} :
    st.markerBelow n = some p ↔ p < n ∧ st.collBit p = true ∧ ∀ q < n, p < q → st.collBit q = false := by
  induction n with
  | zero => simp [AnticolState.markerBelow]
  | succ n ih =>
    unfold AnticolState.markerBelow
    by_cases h : st.collBit n = true
    · simp only [h, if_true, Option.some.injEq]
      constructor
      · rintro rfl
        exact ⟨Nat.lt_succ_self _, h, fun q h1 h2 => by omega⟩
      · rintro ⟨h1, -, h3⟩
        rcases Nat.lt_or_ge p n with hp | hp
        · rw [h3 n (Nat.lt_succ_self n) hp] at h; cases h
        · omega
    · have h' : st.collBit n = false := by simpa using h
      simp only [h', Bool.false_eq_true, if_false, ih]
      constructor
      · rintro ⟨h1, h2, h3⟩
        refine ⟨by omega, h2, fun q hq hpq => ?_⟩
        rcases Nat.lt_or_ge q n with hlt | hge
        · exact h3 q hlt hpq
        · rw [show q = n by omega, h']
      · rintro ⟨h1, h2, h3⟩
        refine ⟨?_, h2, fun q hq hpq => h3 q (by omega) hpq⟩
        rcases Nat.lt_or_ge p n with hlt | hge
        · exact hlt
        · rw [show p = n by omega, h'] at h2; cases h2

/-- R268: there is none when no position below `n` is marked. -/
theorem AnticolState.markerBelow_eq_none {st : AnticolState} {n : Nat} :
    st.markerBelow n = none ↔ ∀ p < n, st.collBit p = false := by
  induction n with
  | zero => simp [AnticolState.markerBelow]
  | succ n ih =>
    unfold AnticolState.markerBelow
    by_cases h : st.collBit n = true
    · simp only [h, if_true]
      constructor
      · intro h'; cases h'
      · intro h'; rw [h' n (Nat.lt_succ_self n)] at h; cases h
    · have h' : st.collBit n = false := by simpa using h
      simp only [h', Bool.false_eq_true, if_false, ih]
      refine ⟨fun k p hp => ?_, fun k p hp => k p (by omega)⟩
      rcases Nat.lt_or_ge p n with hlt | hge
      · exact k p hlt
      · rw [show p = n by omega, h']

/-- Beyond the 120 bits of the arrays nothing is set. -/
theorem AnticolState.collBit_lt {st : AnticolState} {p : Nat} (h : st.collBit p = true) : p < 120 := by
  by_contra hp
  have : ¬ p / 8 < 15 := by omega
  simp [AnticolState.collBit, bitAt, this] at h

/-! ### The record's invariant (R35) -/

theorem AnticolState.inv_zero : AnticolState.zero.Inv where
  bitPos_le := by simp [AnticolState.zero]
  marker_lt p h := by rw [AnticolState.zero_collBit] at h; cases h
  marker_zero p h := by rw [AnticolState.zero_collBit] at h; cases h

/-- R258: a round without a collision keeps the invariant. -/
theorem mergeAll_inv {st st' : AnticolState} {lvl : Nat} {bits : List Bit} (hl : levelBase lvl + 40 ≤ 120)
    (hk : st.known lvl < levelBits) (h : st.Inv) (hm : mergeAll st (levelBase lvl) (st.known lvl) bits = .ok st') :
    st'.Inv := by
  unfold mergeAll at hm
  split at hm
  · cases hm
  · next hlen =>
    have hlen : bits.length = levelBits - st.known lvl := by simpa using hlen
    have hb : st.bitPos ≤ levelBase lvl + st.known lvl := by
      simp only [AnticolState.known, levelBits] at hk ⊢; omega
    obtain rfl := Except.ok.inj hm
    simp only [levelBits] at *
    refine ⟨by simp only; omega, fun p hp => ?_, fun p hp => ?_⟩
    · have hp' : st.collBit p = true := by
        rw [← AnticolState.setUidBits_collBit st (levelBase lvl + st.known lvl) p bits]; exact hp
      have := h.marker_lt p hp'
      simp only; omega
    · have hp' : st.collBit p = true := by
        rw [← AnticolState.setUidBits_collBit st (levelBase lvl + st.known lvl) p bits]; exact hp
      have := h.marker_lt p hp'
      have := AnticolState.setUidBits_uidBit st (levelBase lvl + st.known lvl) bits (by omega) p
      simp only [AnticolState.uidBit] at this ⊢
      rw [this, if_neg (by omega)]
      exact h.marker_zero p hp'

/-- R259: a round with a collision keeps the invariant. -/
theorem mergeToCollision_inv {st st' : AnticolState} {lvl p : Nat} {bits : List Bit} (hl : levelBase lvl + 40 ≤ 120)
    (hk : st.known lvl < levelBits) (h : st.Inv)
    (hm : mergeToCollision st (levelBase lvl) (st.known lvl) bits p = .ok st') : st'.Inv := by
  unfold mergeToCollision at hm
  split at hm
  · cases hm
  · next hp =>
    split at hm
    · cases hm
    · next hlen =>
      have hb : st.bitPos ≤ levelBase lvl + st.known lvl := by
        simp only [AnticolState.known, levelBits] at hk ⊢; omega
      obtain rfl := Except.ok.inj hm
      have hlt : (bits.take (p - st.known lvl)).length = p - st.known lvl := by simp; omega
      have coll : ∀ q, AnticolState.collBit
          { (((st.setUidBits (levelBase lvl + st.known lvl) (bits.take (p - st.known lvl))).setUidBit
            (levelBase lvl + p) false).setCollBit (levelBase lvl + p) true) with bitPos := levelBase lvl + p + 1 } q =
            if levelBase lvl + p = q ∧ levelBase lvl + p < 120 then true else st.collBit q := by
        intro q
        have := AnticolState.setCollBit_collBit ((st.setUidBits (levelBase lvl + st.known lvl)
          (bits.take (p - st.known lvl))).setUidBit (levelBase lvl + p) false) (levelBase lvl + p) q true
        rw [AnticolState.setUidBit_collBit, AnticolState.setUidBits_collBit] at this
        exact this
      refine ⟨by simp only; omega, fun q hq => ?_, fun q hq => ?_⟩
      · rw [coll] at hq
        simp only
        split at hq
        · omega
        · have := h.marker_lt q hq; omega
      · rw [coll] at hq
        have hu := AnticolState.setUidBit_uidBit (st.setUidBits (levelBase lvl + st.known lvl)
          (bits.take (p - st.known lvl))) (levelBase lvl + p) q false
        have hv := AnticolState.setUidBits_uidBit st (levelBase lvl + st.known lvl) (bits.take (p - st.known lvl))
          (by omega) q
        simp only [AnticolState.uidBit, AnticolState.setCollBit] at hu hv ⊢
        rw [hu]
        split at hq
        · next hq' => rw [if_pos hq']
        · next hq' =>
          have := h.marker_lt q hq
          rw [if_neg hq', hv, if_neg (by omega)]
          exact h.marker_zero q hq

/-- R255: so does what an answer makes of the record. -/
theorem mergeAnswer_inv {st st' : AnticolState} {lvl : Nat} {r : ExchResult} (hl : levelBase lvl + 40 ≤ 120)
    (hk : st.known lvl < levelBits) (h : st.Inv) (hm : mergeAnswer st lvl r = .ok st') : st'.Inv := by
  unfold mergeAnswer at hm
  split at hm
  · cases hm
  · cases hm
  · exact mergeAll_inv hl hk h hm
  · exact mergeToCollision_inv hl hk h hm

theorem anticolRounds_inv {P : Params} {lvl : Nat} (hl : levelBase lvl + 40 ≤ 120) (n : Nat) {st : AnticolState} (h : st.Inv)
    (s : State) : (anticolRounds P lvl n st s).2.1.Inv := by
  induction n generalizing st s with
  | zero => exact h
  | succ n ih =>
    unfold anticolRounds
    split
    · next hk =>
      dsimp only
      split
      · exact h
      · next st' hm => exact ih (mergeAnswer_inv hl hk h hm) _
    · exact h

/-- R255: a search keeps the record's invariant, whether it succeeds or fails. -/
theorem searchLevels_inv {P : Params} (n lvl : Nat) (hn : lvl + n ≤ 4) {st : AnticolState} (h : st.Inv) (s : State) :
    (searchLevels P n lvl st s).2.1.Inv := by
  induction n generalizing lvl st s with
  | zero => exact h
  | succ n ih =>
    have h1 := anticolRounds_inv (P := P) (lvl := lvl) (by simp only [levelBase, levelBits]; omega) levelBits h s
    unfold searchLevels
    split
    · next hq => rw [hq] at h1; exact h1
    · next hq =>
      rw [hq] at h1
      dsimp only
      split
      · exact h1
      · split
        · exact ih _ (by omega) h1 _
        · exact h1

theorem doAnticol_inv {P : Params} {st : AnticolState} (h : st.Inv) (s : State) : (doAnticol P st s).2.1.Inv :=
  searchLevels_inv _ _ (by decide) h s

/-- R268: going back to the highest marker keeps the invariant. -/
theorem takeBranch_inv {st : AnticolState} {p : Nat} (h : st.Inv) (hp : st.markerBelow st.bitPos = some p) :
    (takeBranch st p).Inv := by
  obtain ⟨h1, h2, h3⟩ := AnticolState.markerBelow_eq_some.1 hp
  have hlt := AnticolState.collBit_lt h2
  have hc : ∀ q, (takeBranch st p).collBit q = if p = q ∧ p < 120 then false else st.collBit q := fun q =>
    AnticolState.setCollBit_collBit (st.setUidBit p true) p q false
  have hu : ∀ q, (takeBranch st p).uidBit q = if p = q ∧ p < 120 then true else st.uidBit q := fun q =>
    AnticolState.setUidBit_uidBit st p q true
  have hb := h.bitPos_le
  refine ⟨by simp only [takeBranch]; omega, fun q hq => ?_, fun q hq => ?_⟩
  · rw [hc] at hq
    split at hq
    · cases hq
    · have hqb := h.marker_lt q hq
      simp only [takeBranch]
      by_contra hge
      rw [h3 q hqb (by omega)] at hq
      cases hq
  · rw [hc] at hq
    split at hq
    · cases hq
    · next hne => rw [hu, if_neg hne]; exact h.marker_zero q hq

/-! ### Sampling (R191) -/

/-- A receive only samples: nothing but the trace and the environment's answers change. -/
def SamplesOnly (s t : State) : Prop :=
  ∃ (l : List Bit) (e : Env), e.spiIn = s.env.spiIn ∧ e.edges = s.env.edges ∧
    t = { s with trace := s.trace ++ l.map .sample, env := e }

theorem SamplesOnly.refl (s : State) : SamplesOnly s s := ⟨[], s.env, rfl, rfl, by simp⟩

theorem SamplesOnly.trans {s t u : State} (h : SamplesOnly s t) (k : SamplesOnly t u) : SamplesOnly s u := by
  obtain ⟨l, e, h1, h2, rfl⟩ := h
  obtain ⟨m, f, k1, k2, rfl⟩ := k
  exact ⟨l ++ m, f, k1.trans h1, k2.trans h2, by simp⟩

theorem sampleStep_samplesOnly (s : State) : SamplesOnly s (sampleStep s).2 := by
  refine ⟨[(sampleStep s).1], s.env.sample.2, ?_, ?_, rfl⟩ <;> (unfold Env.sample; split <;> rfl)

theorem startWait_samplesOnly (n : Nat) (s : State) : SamplesOnly s (startWait n s).2 := by
  induction n generalizing s with
  | zero => exact .refl s
  | succ n ih =>
    unfold startWait
    dsimp only
    split
    · exact sampleStep_samplesOnly s
    · exact (sampleStep_samplesOnly s).trans (ih _)

theorem rxLoop_samplesOnly (P : Params) (cap n sil : Nat) (taken : List Bit) (s : State) :
    SamplesOnly s (rxLoop P cap n sil taken s).2 := by
  induction n generalizing sil taken s with
  | zero => exact .refl s
  | succ n ih =>
    unfold rxLoop
    dsimp only
    split
    · exact sampleStep_samplesOnly s
    · exact (sampleStep_samplesOnly s).trans (ih _ _ _)

theorem rxLoop_length_le (P : Params) (cap n sil : Nat) (taken : List Bit) (s : State) :
    (rxLoop P cap n sil taken s).1.length ≤ cap := by
  induction n generalizing sil taken s with
  | zero => exact List.length_take_le _ _
  | succ n ih =>
    unfold rxLoop
    dsimp only
    split
    · exact List.length_take_le _ _
    · exact ih _ _ _

/-- R202: no more than the capacity is stored, whatever the decoder. -/
theorem receive_length_le (P : Params) (cap : Nat) (s : State) : (receive P cap s).1.length ≤ cap := by
  unfold receive
  dsimp only
  split
  · exact rxLoop_length_le _ _ _ _ _ _
  · exact Nat.zero_le _

/-- R200: a receive only samples. -/
theorem receive_samplesOnly (P : Params) (cap : Nat) (s : State) : SamplesOnly s (receive P cap s).2 := by
  unfold receive
  dsimp only
  split
  · exact (startWait_samplesOnly _ s).trans (rxLoop_samplesOnly _ _ _ _ _ _)
  · exact startWait_samplesOnly _ s

end Sys2Proof.Machine
end

