-- ==== Sys2Proof/Laws/PerInstr.lean ====
section
/-! SUPPORT. The family `FixedBits` of LAWS.json: the code word of an encodable instruction carries the fixed bits of its row of
spec/opcode_table.json (its mask and match), one lemma per instruction. -/

namespace Sys2Proof.Laws

open Sys2Proof.Machine

/-- The number of bits, the mask and the match of the instruction's row of spec/opcode_table.json. -/
def FixedBits.row : Instr → Nat × Nat × Nat
  | .csAssert => (8, 0xFF, 0x10)
  | .csDeassert => (8, 0xFF, 0x11)
  | .writeReg _ _ => (8, 0xFF, 0x12)
  | .readReg _ => (8, 0xFF, 0x13)
  | .writeCont _ _ _ => (8, 0xFF, 0x14)
  | .readCont _ _ => (8, 0xFF, 0x15)
  | .directCmd _ => (8, 0xFF, 0x16)
  | .fifoWrite _ _ => (8, 0xFF, 0x17)
  | .irqWait _ => (8, 0xFF, 0x18)
  | .dmEnable _ => (8, 0xFF, 0x20)
  | .dmDisable => (8, 0xFF, 0x21)
  | .dmTransceive _ _ _ _ _ _ => (8, 0xFF, 0x22)
  | .setParity _ _ => (8, 0xFF, 0x30)
  | .checkParity _ _ => (8, 0xFF, 0x31)
  | .appendCrc _ _ => (8, 0xFF, 0x32)
  | .checkCrc _ _ => (8, 0xFF, 0x33)
  | .reqa _ => (8, 0xFF, 0x40)
  | .doAnticol => (8, 0xFF, 0x41)
  | .selectFirst _ => (8, 0xFF, 0x42)
  | .selectNext _ => (8, 0xFF, 0x43)
  | .select _ _ => (8, 0xFF, 0x44)
  | .halt => (8, 0xFF, 0x45)
  | .spiWriteSingle _ _ => (8, 0xE0, 0x00)
  | .spiWriteCont _ _ => (8, 0xE0, 0x20)
  | .spiReadSingle _ => (8, 0xE0, 0x40)
  | .spiReadCont _ _ => (8, 0xE0, 0x60)
  | .spiDirectCmd _ => (8, 0xE0, 0x80)
  | .cmdSoftInit => (8, 0xFF, 0x83)
  | .cmdResetFifo => (8, 0xFF, 0x8F)
  | .cmdTxNocrc => (8, 0xFF, 0x90)
  | .cmdTxCrc => (8, 0xFF, 0x91)
  | .rfReqa => (7, 0x7F, 0x26)
  | .rfWupa => (7, 0x7F, 0x52)
  | .rfAnticollisionCl1 _ _ => (16, 0xFF00, 0x9300)
  | .rfAnticollisionCl2 _ _ => (16, 0xFF00, 0x9500)
  | .rfAnticollisionCl3 _ _ => (16, 0xFF00, 0x9700)
  | .rfSelectCl1 _ => (16, 0xFFFF, 0x9370)
  | .rfSelectCl2 _ => (16, 0xFFFF, 0x9570)
  | .rfSelectCl3 _ => (16, 0xFFFF, 0x9770)
  | .rfHlta => (16, 0xFFFF, 0x5000)
  | .seqX => (4, 0xF, 0x2)
  | .seqY => (4, 0xF, 0x0)
  | .seqZ => (4, 0xF, 0x8)

/-- The first `n` bits of a code word as the table numbers them: a command's first byte; a short frame's seven bits, first bit
lowest; the first two bytes of a longer frame, the first in the high half; the four slots, `q0` highest. -/
def FixedBits.word (n : Nat) : CodeWord → Nat
  | .host bytes => (bytes.headD 0).toNat
  | .spi out _ => (out.headD 0).toNat
  | .rf bits =>
    if n = 7 then bitsToNat bits else bitsToNat (bits.take 8) * 256 + bitsToNat ((bits.drop 8).take 8)
  | .mod slots => bitsToNat slots.reverse

/-- The instruction's code word carries its row's fixed bits. -/
def FixedBits.Statement (i : Instr) : Prop :=
  i.encodable = true →
    (FixedBits.word (FixedBits.row i).1 (encode i)) &&& (FixedBits.row i).2.1 = (FixedBits.row i).2.2

theorem FixedBits.bits8_toNat : ∀ b : Byte, bitsToNat (bits8 b) = b.toNat := by decide

/-- The low eight bits of two bytes are masked out. -/
theorem FixedBits.and_high (a b : Nat) (ha : a < 2 ^ 8) (hb : b < 2 ^ 8) : (a * 256 + b) &&& 0xFF00 = a * 256 := by
  refine Nat.eq_of_testBit_eq fun i => ?_
  rw [Nat.testBit_and, show a * 256 + b = 2 ^ 8 * a + b by omega, show 0xFF00 = 2 ^ 8 * (2 ^ 8 - 1) + 0 from rfl,
    show a * 256 = 2 ^ 8 * a + 0 by omega, Nat.testBit_two_pow_mul_add _ hb, Nat.testBit_two_pow_mul_add _ (by decide),
    Nat.testBit_two_pow_mul_add _ (by decide), Nat.testBit_two_pow_sub_one]
  split
  · simp
  · by_cases h : i - 8 < 8
    · simp [h]
    · simp [h, Nat.testBit_lt_two_pow (Nat.lt_of_lt_of_le ha (Nat.pow_le_pow_right (by decide) (Nat.le_of_not_lt h)))]

/-- R108: of an anti-collision frame's first two bytes, only the first is fixed. -/
theorem FixedBits.anticol (sel b : Byte) (known : List Bit) :
    FixedBits.word 16 (.rf (anticolFrame sel b known)) &&& 0xFF00 = sel.toNat * 256 := by
  have h1 : (anticolFrame sel b known).take 8 = bits8 sel := rfl
  have h2 : ((anticolFrame sel b known).drop 8).take 8 = bits8 b := rfl
  simp only [FixedBits.word, h1, h2, FixedBits.bits8_toNat]
  exact FixedBits.and_high _ _ sel.isLt b.isLt

/-- R99: a host command's first byte is its opcode. -/
theorem FixedBits.host (op : HostOp) (ops : List Byte) (m : Nat) (h : (opcodeOf op).toNat &&& 0xFF = m) :
    FixedBits.word 8 (hostWord op ops) &&& 0xFF = m := h

/-- R114: a SELECT frame's first two bytes are fixed. -/
theorem FixedBits.select_frame (sel : Byte) (level : List Byte) (m : Nat)
    (h : (sel.toNat * 256 + nvbFull.toNat) &&& 0xFFFF = m) :
    FixedBits.word 16 (.rf (selectFrame sel level)) &&& 0xFFFF = m := by
  have h1 : (selectFrame sel level).take 8 = bits8 sel := rfl
  have h2 : ((selectFrame sel level).drop 8).take 8 = bits8 nvbFull := rfl
  simp only [FixedBits.word, h1, h2, FixedBits.bits8_toNat]
  exact h

/-- R93: a command byte's top three bits do not depend on its address. -/
theorem FixedBits.spi_top : ∀ a : BitVec 5,
    (spiWriteByte a).toNat &&& 0xE0 = 0x00 ∧ (spiWriteContByte a).toNat &&& 0xE0 = 0x20 ∧
    (spiReadByte a).toNat &&& 0xE0 = 0x40 ∧ (spiReadContByte a).toNat &&& 0xE0 = 0x60 ∧
    (spiDirectByte a).toNat &&& 0xE0 = 0x80 := by decide

theorem FixedBits.csAssert : FixedBits.Statement .csAssert := fun _ => FixedBits.host _ _ 0x10 (by decide)
theorem FixedBits.csDeassert : FixedBits.Statement .csDeassert := fun _ => FixedBits.host _ _ 0x11 (by decide)
theorem FixedBits.writeReg (addr : Byte) (val : Byte) :
    FixedBits.Statement (.writeReg addr val) := fun _ => FixedBits.host _ _ 0x12 (by decide)
theorem FixedBits.readReg (addr : Byte) :
    FixedBits.Statement (.readReg addr) := fun _ => FixedBits.host _ _ 0x13 (by decide)
theorem FixedBits.writeCont (addr : Byte) (n : Byte) (data : List Byte) :
    FixedBits.Statement (.writeCont addr n data) := fun _ => FixedBits.host _ _ 0x14 (by decide)
theorem FixedBits.readCont (addr : Byte) (n : Byte) :
    FixedBits.Statement (.readCont addr n) := fun _ => FixedBits.host _ _ 0x15 (by decide)
theorem FixedBits.directCmd (code : Byte) :
    FixedBits.Statement (.directCmd code) := fun _ => FixedBits.host _ _ 0x16 (by decide)
theorem FixedBits.fifoWrite (n : BitVec 16) (data : List Byte) :
    FixedBits.Statement (.fifoWrite n data) := fun _ => FixedBits.host _ _ 0x17 (by decide)
theorem FixedBits.irqWait (timeoutMs : BitVec 16) :
    FixedBits.Statement (.irqWait timeoutMs) := fun _ => FixedBits.host _ _ 0x18 (by decide)
theorem FixedBits.dmEnable (mode : Byte) :
    FixedBits.Statement (.dmEnable mode) := fun _ => FixedBits.host _ _ 0x20 (by decide)
theorem FixedBits.dmDisable : FixedBits.Statement .dmDisable := fun _ => FixedBits.host _ _ 0x21 (by decide)
theorem FixedBits.dmTransceive (mode : Byte) (sendBytes : BitVec 16) (sendBits : Byte)
    (recvBytes : BitVec 16) (recvBits : Byte) (send : List Unit16) :
    FixedBits.Statement (.dmTransceive mode sendBytes sendBits recvBytes recvBits send) :=
  fun _ => FixedBits.host _ _ 0x22 (by decide)
theorem FixedBits.setParity (n : BitVec 16) (buf : List Unit16) :
    FixedBits.Statement (.setParity n buf) := fun _ => FixedBits.host _ _ 0x30 (by decide)
theorem FixedBits.checkParity (n : BitVec 16) (buf : List Unit16) :
    FixedBits.Statement (.checkParity n buf) := fun _ => FixedBits.host _ _ 0x31 (by decide)
theorem FixedBits.appendCrc (n : BitVec 16) (buf : List Unit16) :
    FixedBits.Statement (.appendCrc n buf) := fun _ => FixedBits.host _ _ 0x32 (by decide)
theorem FixedBits.checkCrc (n : BitVec 16) (buf : List Unit16) :
    FixedBits.Statement (.checkCrc n buf) := fun _ => FixedBits.host _ _ 0x33 (by decide)
theorem FixedBits.reqa (cmd : Byte) : FixedBits.Statement (.reqa cmd) := fun _ => FixedBits.host _ _ 0x40 (by decide)
theorem FixedBits.doAnticol : FixedBits.Statement .doAnticol := fun _ => FixedBits.host _ _ 0x41 (by decide)
theorem FixedBits.selectFirst (cmd : Byte) :
    FixedBits.Statement (.selectFirst cmd) := fun _ => FixedBits.host _ _ 0x42 (by decide)
theorem FixedBits.selectNext (cmd : Byte) :
    FixedBits.Statement (.selectNext cmd) := fun _ => FixedBits.host _ _ 0x43 (by decide)
theorem FixedBits.select (uidLen : Byte) (uid : List Byte) :
    FixedBits.Statement (.select uidLen uid) := fun _ => FixedBits.host _ _ 0x44 (by decide)
theorem FixedBits.halt : FixedBits.Statement .halt := fun _ => FixedBits.host _ _ 0x45 (by decide)
theorem FixedBits.spiWriteSingle (a : BitVec 5) (val : Byte) :
    FixedBits.Statement (.spiWriteSingle a val) := fun _ => (FixedBits.spi_top a).1
theorem FixedBits.spiWriteCont (a : BitVec 5) (data : List Byte) :
    FixedBits.Statement (.spiWriteCont a data) := fun _ => (FixedBits.spi_top a).2.1
theorem FixedBits.spiReadSingle (a : BitVec 5) :
    FixedBits.Statement (.spiReadSingle a) := fun _ => (FixedBits.spi_top a).2.2.1
theorem FixedBits.spiReadCont (a : BitVec 5) (n : Byte) :
    FixedBits.Statement (.spiReadCont a n) := fun _ => (FixedBits.spi_top a).2.2.2.1
theorem FixedBits.spiDirectCmd (c : BitVec 5) :
    FixedBits.Statement (.spiDirectCmd c) := fun _ => (FixedBits.spi_top c).2.2.2.2
theorem FixedBits.cmdSoftInit : FixedBits.Statement .cmdSoftInit := fun _ => rfl
theorem FixedBits.cmdResetFifo : FixedBits.Statement .cmdResetFifo := fun _ => rfl
theorem FixedBits.cmdTxNocrc : FixedBits.Statement .cmdTxNocrc := fun _ => rfl
theorem FixedBits.cmdTxCrc : FixedBits.Statement .cmdTxCrc := fun _ => rfl
theorem FixedBits.rfReqa : FixedBits.Statement .rfReqa := fun _ => by decide
theorem FixedBits.rfWupa : FixedBits.Statement .rfWupa := fun _ => by decide
theorem FixedBits.rfAnticollisionCl1 (nvb : Byte) (known : List Bit) :
    FixedBits.Statement (.rfAnticollisionCl1 nvb known) := fun _ => FixedBits.anticol _ _ _
theorem FixedBits.rfAnticollisionCl2 (nvb : Byte) (known : List Bit) :
    FixedBits.Statement (.rfAnticollisionCl2 nvb known) := fun _ => FixedBits.anticol _ _ _
theorem FixedBits.rfAnticollisionCl3 (nvb : Byte) (known : List Bit) :
    FixedBits.Statement (.rfAnticollisionCl3 nvb known) := fun _ => FixedBits.anticol _ _ _
theorem FixedBits.rfSelectCl1 (level : List Byte) :
    FixedBits.Statement (.rfSelectCl1 level) := fun _ => FixedBits.select_frame _ _ 0x9370 (by decide)
theorem FixedBits.rfSelectCl2 (level : List Byte) :
    FixedBits.Statement (.rfSelectCl2 level) := fun _ => FixedBits.select_frame _ _ 0x9570 (by decide)
theorem FixedBits.rfSelectCl3 (level : List Byte) :
    FixedBits.Statement (.rfSelectCl3 level) := fun _ => FixedBits.select_frame _ _ 0x9770 (by decide)
theorem FixedBits.rfHlta : FixedBits.Statement .rfHlta := fun _ => by decide
theorem FixedBits.seqX : FixedBits.Statement .seqX := fun _ => by decide
theorem FixedBits.seqY : FixedBits.Statement .seqY := fun _ => by decide
theorem FixedBits.seqZ : FixedBits.Statement .seqZ := fun _ => by decide

end Sys2Proof.Laws
end

