-- ==== Sys2Proof/Tests/Slice0.lean ====
section
/-! SUPPORT. Small tests, with their sources in spec/, and for every statement with hypotheses a named theorem that meets them.
Expected values are those of spec/95_test_vectors.md and of the rules' own examples. -/

namespace Sys2Proof.Tests

-- One theorem after another: the kernel evaluations of this file do not run side by side.
set_option Elab.async false

open Sys2Proof.Machine

/-! ### Helpers -/

/-- Concrete parameters: the defaults of the spec, and values in range for the OPEN ones. -/
def testParams : Params :=
  { params with
    rxIgnore := 5, rxDecode := rxDecodeReference 5, rxStartTimeout := 64, rxMaxSamples := fun cap => 16 + 8 * (cap + 2), fifoRefill := 64,
    fifoMirrorCap := 32, tTxMs := 2, tRxMs := 3, irqClassify := irqClassifyDefault, collPosDecode := collPosDecodeDefault,
    dmEnterSeq := fun _ => { pre := [], addr := 0, data := [0x61] }, iso14443aRegInit := [(0x01, 0x88)] }

theorem testParams_inRange : testParams.InRange where
  rxIgnore := .inl rfl
  rxStartTimeout := by decide
  rxMaxSamples _ := Nat.le_refl _
  fifoRefill := by decide
  fifoMirrorCap := by decide

/-- Right after reset, with scripts for the environment. -/
def scripted (spiIn : List Byte) (edges : List Bool) (samples : List Bit) : State :=
  { State.reset with env := { spiIn := spiIn, samples := samples, edges := edges, drawn := 0 } }

/-- Right after reset, with direct mode enabled (R181). -/
def direct : State :=
  { State.reset with cs := true, sessionOpen := true, rxPinMode := .gpioInput, dmEnabled := true }

/-- What a step added to an empty trace and an empty list of responses. -/
def shown : Host.Outcome State Fault Refusal → List Event × List Response
  | .next s => (s.trace, s.responses)
  | .fault _ => ([], [])
  | .refused _ => ([], [])

/-! ### Ill-formed terms are refused by each check -/

theorem test_wf_address : (Instr.writeReg 0x20 0).wellFormed = false ∧ (Instr.readReg 0x20).wellFormed = false := by decide
theorem test_wf_code : (Instr.directCmd 0x20).wellFormed = false := by decide
theorem test_wf_count : (Instr.writeCont 0 2 [0]).wellFormed = false ∧ (Instr.fifoWrite 2 [0]).wellFormed = false := by
  decide
theorem test_wf_span : (Instr.writeCont 0x1E 3 [0, 0, 0]).wellFormed = false ∧ (Instr.writeCont 0 0 []).wellFormed = false ∧
    (Instr.readCont 0x1E 3).wellFormed = false ∧ (Instr.readCont 0x1F 0).wellFormed = false := by decide
theorem test_wf_transceive : (Instr.dmTransceive 2 0 0 0 0 []).wellFormed = false ∧
    (Instr.dmTransceive 0 0 8 0 0 [0]).wellFormed = false ∧ (Instr.dmTransceive 1 0 0 0 9 []).wellFormed = false ∧
    (Instr.dmTransceive 0 1 0 0 0 []).wellFormed = false ∧ (Instr.dmTransceive 0 1 0 0 0 [0x100]).wellFormed = false := by
  decide
theorem test_wf_units : (Instr.setParity 1 []).wellFormed = false ∧ (Instr.checkParity 1 []).wellFormed = false ∧
    (Instr.appendCrc 1 []).wellFormed = false ∧ (Instr.checkCrc 0 [0]).wellFormed = false := by decide
theorem test_wf_appendCrc (buf : List Unit16) : (Instr.appendCrc 65534 buf).wellFormed = false := by
  have h : okAppendCrc 65534 buf = false := Bool.and_false _
  show (_ && okAppendCrc _ _) = false
  rw [h, Bool.and_false]
theorem test_wf_short : (Instr.reqa 0x80).wellFormed = false ∧ (Instr.selectFirst 0x80).wellFormed = false ∧
    (Instr.selectNext 0x80).wellFormed = false := by decide
theorem test_wf_select : (Instr.select 5 [0, 0, 0, 0, 0]).wellFormed = false ∧
    (Instr.select 4 [0, 0, 0]).wellFormed = false := by decide
theorem test_wf_spi : (Instr.spiWriteCont 0 []).wellFormed = false ∧ (Instr.spiReadCont 0x1E 3).wellFormed = false ∧
    (Instr.spiDirectCmd 0x0F).wellFormed = false := by decide
theorem test_wf_anticollision : (Instr.rfAnticollisionCl1 0x70 []).wellFormed = false ∧
    (Instr.rfAnticollisionCl2 0x21 []).wellFormed = false ∧ (Instr.rfAnticollisionCl3 0x20 [true]).wellFormed = false := by
  decide
theorem test_wf_selectFrame : (Instr.rfSelectCl1 [0, 0, 0, 0]).wellFormed = false ∧
    (Instr.rfSelectCl2 []).wellFormed = false ∧ (Instr.rfSelectCl3 [0]).wellFormed = false := by decide

/-! ### Words written out from the encoding tables -/

/-- R100, R101, SEQ. -/
theorem test_decode_seq :
    decode (.host [0x10]) = .ok .csAssert ∧ decode (.host [0x11]) = .ok .csDeassert ∧
    decode (.host [0x12, 0x01, 0x88]) = .ok (.writeReg 0x01 0x88) ∧ decode (.host [0x13, 0x0C]) = .ok (.readReg 0x0C) ∧
    decode (.host [0x14, 0x1D, 0x02, 0x00, 0x0F]) = .ok (.writeCont 0x1D 2 [0x00, 0x0F]) ∧
    decode (.host [0x15, 0x1F, 0x02]) = .ok (.readCont 0x1F 2) ∧ decode (.host [0x16, 0x0F]) = .ok (.directCmd 0x0F) ∧
    decode (.host [0x17, 0x01, 0x00, 0x26]) = .ok (.fifoWrite 1 [0x26]) ∧
    decode (.host [0x18, 0x00, 0x01]) = .ok (.irqWait 256) := by decide
/-- R100, R101, PHY and UTL. -/
theorem test_decode_phy_utl :
    decode (.host [0x20, 0x05]) = .ok (.dmEnable 5) ∧ decode (.host [0x21]) = .ok .dmDisable ∧
    decode (.host [0x22, 0x01, 0x01, 0x00, 0x00, 0x02, 0x00, 0x03, 0x93, 0x01]) = .ok (.dmTransceive 1 1 0 2 3 [0x193]) ∧
    decode (.host [0x22, 0x00, 0x01, 0x00, 0x02, 0x00, 0x01, 0x03, 0x93, 0x01]) =
      .ok (.dmTransceive 0 1 2 256 3 [0x93, 0x01]) ∧
    decode (.host [0x30, 0x01, 0x00, 0x26, 0x00]) = .ok (.setParity 1 [0x26]) ∧
    decode (.host [0x31, 0x00, 0x00]) = .ok (.checkParity 0 []) ∧
    decode (.host [0x32, 0x01, 0x00, 0x50, 0x01]) = .ok (.appendCrc 1 [0x150]) ∧
    decode (.host [0x33, 0x02, 0x00, 0x63, 0x01, 0x63, 0x00]) = .ok (.checkCrc 2 [0x163, 0x63]) := by decide
/-- R100, R101, ACE. -/
theorem test_decode_ace :
    decode (.host [0x40, 0x26]) = .ok (.reqa 0x26) ∧ decode (.host [0x41]) = .ok .doAnticol ∧
    decode (.host [0x42, 0x52]) = .ok (.selectFirst 0x52) ∧ decode (.host [0x43, 0x26]) = .ok (.selectNext 0x26) ∧
    decode (.host [0x44, 0x04, 0x01, 0x02, 0x03, 0x04]) = .ok (.select 4 [1, 2, 3, 4]) ∧
    decode (.host [0x45]) = .ok .halt := by decide
/-- R93, R98. -/
theorem test_decode_spi :
    decode (.spi [0x01, 0x88] 0) = .ok (.spiWriteSingle 0x01 0x88) ∧
    decode (.spi [0x3F, 0x26, 0x27] 0) = .ok (.spiWriteCont 0x1F [0x26, 0x27]) ∧
    decode (.spi [0x4C] 1) = .ok (.spiReadSingle 0x0C) ∧ decode (.spi [0x7F] 2) = .ok (.spiReadCont 0x1F 2) ∧
    decode (.spi [0x9F] 0) = .ok (.spiDirectCmd 0x1F) ∧ decode (.spi [0x83] 0) = .ok .cmdSoftInit ∧
    decode (.spi [0x8F] 0) = .ok .cmdResetFifo ∧ decode (.spi [0x90] 0) = .ok .cmdTxNocrc ∧
    decode (.spi [0x91] 0) = .ok .cmdTxCrc ∧ decode (.spi [0xC0] 0) = .error .reservedSpi := by decide
/-- R106, R108, R114: the bytes of a frame least significant bit first (0x93 is 1 1 0 0 1 0 0 1 on the air). -/
theorem test_decode_rf :
    decode (.rf [false, true, true, false, false, true, false]) = .ok .rfReqa ∧
    decode (.rf [false, true, false, false, true, false, true]) = .ok .rfWupa ∧
    decode (.rf ([true, true, false, false, true, false, false, true] ++ bits8 0x21 ++ [true])) =
      .ok (.rfAnticollisionCl1 0x21 [true]) ∧
    decode (.rf (bits8 0x95 ++ bits8 0x20)) = .ok (.rfAnticollisionCl2 0x20 []) ∧
    decode (.rf (bits8 0x97 ++ bits8 0x20)) = .ok (.rfAnticollisionCl3 0x20 []) ∧
    decode (.rf ([0x93, 0x70, 0x12, 0x34, 0x56, 0x78, 0x08].flatMap bits8)) =
      .ok (.rfSelectCl1 [0x12, 0x34, 0x56, 0x78, 0x08]) ∧
    decode (.rf ([0x95, 0x70, 1, 2, 3, 4, 4].flatMap bits8)) = .ok (.rfSelectCl2 [1, 2, 3, 4, 4]) ∧
    decode (.rf ([0x97, 0x70, 1, 2, 3, 4, 4].flatMap bits8)) = .ok (.rfSelectCl3 [1, 2, 3, 4, 4]) ∧
    decode (.rf ([0x50, 0x00].flatMap bits8)) = .ok .rfHlta := by decide
/-- R115. -/
theorem test_decode_mod :
    decode (.mod [false, false, true, false]) = .ok .seqX ∧ decode (.mod [false, false, false, false]) = .ok .seqY ∧
    decode (.mod [true, false, false, false]) = .ok .seqZ ∧
    decode (.mod [true, true, false, false]) = .error .unknownSequence := by decide
/-- Bare numbers (log entry 3). -/
theorem test_tableWord :
    decodeTableWord 8 0x12 = some (.writeReg 0 0) ∧ decodeTableWord 24 0x880112 = some (.writeReg 0x01 0x88) ∧
    decodeTableWord 8 0x91 = some .cmdTxCrc ∧ decodeTableWord 8 0x26 = some .rfReqa ∧
    decodeTableWord 16 0x9370 = some (.rfSelectCl1 [0, 0, 0, 0, 0]) ∧ decodeTableWord 8 0x08 = some .seqZ ∧
    decodeTableWord 8 0xFF = none := by decide

/-! ### One step each -/

/-- R141, R142. -/
theorem test_chip_select : shown (exec .csAssert State.reset) = ([.csLow], [.status .ok []]) ∧
    shown (exec .csDeassert State.reset) = ([], [.status .ok []]) := by decide +kernel
/-- R144. -/
theorem test_writeReg : shown (exec (.writeReg 0x01 0x88) State.reset) =
    ([.csLow, .spiOut 0x01, .spiOut 0x88, .csHigh], [.status .ok []]) := by decide +kernel
/-- R146. -/
theorem test_readReg : shown (exec (.readReg 0x0C) (scripted [0x80] [] [])) =
    ([.csLow, .spiOut 0x4C, .spiIn 0x80, .csHigh], [.status .ok [0x80]]) := by decide +kernel
/-- R148. -/
theorem test_writeCont : shown (exec (.writeCont 0x1D 2 [0x00, 0x0F]) State.reset) =
    ([.csLow, .spiOut 0x3D, .spiOut 0x00, .spiOut 0x0F, .csHigh], [.status .ok []]) := by decide +kernel
/-- R150. -/
theorem test_readCont : shown (exec (.readCont 0x1F 2) (scripted [0x04, 0x00] [] [])) =
    ([.csLow, .spiOut 0x7F, .spiIn 0x04, .spiIn 0x00, .csHigh], [.status .ok [0x04, 0x00]]) := by decide +kernel
/-- R152, R143: inside the host's window the chip select is not touched. -/
theorem test_directCmd : shown (exec (.directCmd 0x0F) State.reset) = ([.csLow, .spiOut 0x8F, .csHigh], [.status .ok []]) ∧
    shown (exec (.directCmd 0x0F) { State.reset with cs := true }) = ([.spiOut 0x8F], [.status .ok []]) := by decide +kernel
/-- R154. -/
theorem test_fifoWrite : shown (exec (.fifoWrite 1 [0x26]) State.reset) =
    ([.csLow, .spiOut 0x3F, .spiOut 0x26, .csHigh], [.status .ok []]) := by decide +kernel
/-- R154: 128 bytes, and no room in time. -/
theorem test_fifoWrite_refillFail :
    (fifoWrite testParams (List.replicate 128 0) (scripted [] [false, false, false] [])).1 = some .timeout := by decide +kernel
/-- R156: the example of the rule, with the default classification. -/
theorem test_irqWait : ((irqWait testParams 5 { scripted [0x80] [] [] with irqFlag := true }).1,
    (irqWait testParams 5 { scripted [0x80] [] [] with irqFlag := true }).2.trace) =
    (.txComplete, [.csLow, .spiOut 0x4C, .spiIn 0x80, .csHigh]) := by decide +kernel
/-- V71: no edge in five milliseconds. -/
theorem test_irqWait_timeout : shown (exec (.irqWait 5) (scripted [] (List.replicate 6 false) [])) = ([], [.status .ok [0x00]]) := by
  decide +kernel
/-- R181 and R183: the examples of the rules. -/
theorem test_directMode :
    (enableDirect testParams 0 State.reset).trace = [.csLow, .spiOut 0x20, .spiOut 0x61, .pinMode .gpioInput] ∧
    (disableDirect testParams direct).trace =
      [.csHigh, .pinMode .spiFunction, .csLow, .spiOut 0x8F, .csHigh, .csLow, .spiOut 0x83, .csHigh,
       .csLow, .spiOut 0x01, .spiOut 0x88, .csHigh] := by decide +kernel
/-- R206. -/
theorem test_transceive_reqa : shown (exec (.dmTransceive 0 0 7 0 0 [0x26]) direct) =
    ([.intMask true] ++
      ([1,0,0,0, 1,0,0,0, 0,0,1,0, 0,0,1,0, 1,0,0,0, 0,0,0,0, 0,0,1,0, 1,0,0,0, 0,0,0,0, 0,0,0,0].map
        fun (n : Nat) => .mod (n == 1)) ++ [.intMask false],
     [.status .ok [0, 0, 0]]) := by decide +kernel
/-- V40: silence ends the answer, 58 samples in all; the next sample is not taken. -/
theorem test_receive_silence : ((receive testParams 8 (scripted [] []
      (List.replicate 2 false ++ answerSamples [false, true, true, false] ++ List.replicate 17 false))).1,
    (receive testParams 8 (scripted [] []
      (List.replicate 2 false ++ answerSamples [false, true, true, false] ++ List.replicate 17 false))).2.trace.length) =
    ([false, true, true, false], 58) := by decide +kernel
/-- V44: the capacity ends the receive, 39 samples in all. -/
theorem test_receive_cap : ((receive testParams 4 (scripted [] [] (List.replicate 2 false ++ answerSamples (bits8 0x5A)))).1,
    (receive testParams 4 (scripted [] [] (List.replicate 2 false ++ answerSamples (bits8 0x5A)))).2.trace.length) =
    ([false, true, false, true], 39) := by decide +kernel
/-- R40: the register map's parameters that only the host's own accesses use. -/
theorem test_registerMap : params.regChipStatus = 0x00 ∧ params.regModulator = 0x09 ∧ params.regIrqMask = 0x0D ∧
    params.regRssi = 0x0F := by decide +kernel
/-- R108, R109, R103: an NVB byte that counts other bits than the frame has, and a 40th known bit. -/
theorem test_anticollision_operands : shown (exec (.rfAnticollisionCl1 0x21 []) State.reset) = ([], [.status .badOperand []]) ∧
    shown (exec (.rfAnticollisionCl2 0x70 (List.replicate 40 true)) State.reset) = ([], [.status .badOperand []]) ∧
    shown (exec (.rfSelectCl3 [0, 0, 0, 0]) State.reset) = ([], [.status .badOperand []]) := by decide +kernel
/-- R222, R224. -/
theorem test_parity : setParity [0x0026, 0x0093, 0x0000, 0xFE01] = [0x0026, 0x0193, 0x0100, 0x0001] ∧
    checkParity [0x0193, 0x0100] = true ∧ checkParity [0x0093] = false ∧ checkParity [0x0101] = false := by decide +kernel
/-- R228, R230. -/
theorem test_crc : appendCrc [0x0150, 0x0100] = [0x0150, 0x0100, 0x0057, 0x00CD] ∧ appendCrc [] = [0x0163, 0x0163] ∧
    checkCrc [0x0150, 0x0100, 0x0057, 0x00CD] = true ∧ checkCrc [0x0150, 0x0100, 0x0057, 0x00CC] = false ∧
    checkCrc [0x0008, 0x00B6, 0x00DD] = true := by decide +kernel
/-- R99, R220: a UTL operation answers while a session is open. -/
theorem test_utl_exec : shown (exec (.checkParity 1 [0x0093]) direct) = ([], [.status .false_ []]) ∧
    shown (exec (.setParity 1 [0x0093]) direct) = ([], [.status .ok [0x93, 0x01]]) := by decide +kernel
/-- R250: one card answers ATQA 04 00. -/
theorem test_reqa : (reqa testParams 0x26 (scripted [0x80, 0x40, 0x02, 0x04, 0x00] [true, true] [])).1 = .ok [0x04, 0x00] := by
  decide +kernel
/-- R265, P1: one card with UID 12 34 56 78 (check byte 08) and SAK 08. -/
theorem test_selectFirst : (selectFirst testParams 0x26 (scripted
    [0x80, 0x40, 0x02, 0x04, 0x00, 0x80, 0x40, 0x05, 0x12, 0x34, 0x56, 0x78, 0x08, 0x80, 0x40, 0x01, 0x08]
    [true, true, true, true, true, true] [])).1 = .ok [0x04, 0x12, 0x34, 0x56, 0x78, 0x08] := by decide +kernel
/-- R257, V90: one card with the 7-byte UID 04 11 22 33 44 55 66, found over two cascade levels. -/
theorem test_selectFirst_two_levels : (selectFirst testParams 0x26 (scripted
    [0x80, 0x40, 0x02, 0x44, 0x00, 0x80, 0x40, 0x05, 0x88, 0x04, 0x11, 0x22, 0xBF, 0x80, 0x40, 0x01, 0x04,
     0x80, 0x40, 0x05, 0x33, 0x44, 0x55, 0x66, 0x44, 0x80, 0x40, 0x01, 0x08]
    (List.replicate 10 true) [])).1 = .ok [0x07, 0x04, 0x11, 0x22, 0x33, 0x44, 0x55, 0x66, 0x08] := by decide +kernel
/-- R268: no marker. -/
theorem test_selectNext : shown (exec (.selectNext 0x26) State.reset) = ([], [.status .noBacktrack []]) := by decide +kernel
/-- R276: HALT waits for the end of the transmission only. -/
theorem test_halt : (halt testParams (scripted [0x80] [true] [])).1 = .ok [] := by decide +kernel
/-- R115. -/
theorem test_seqZ : shown (exec .seqZ direct) = ([.mod true, .mod false, .mod false, .mod false], [.status .ok []]) := by decide +kernel
/-- R93. -/
theorem test_spiReadCont : shown (exec (.spiReadCont 0x1F 1) (scripted [0x5A] [] [])) =
    ([.csLow, .spiOut 0x7F, .spiIn 0x5A, .csHigh], [.status .ok [0x5A]]) := by decide +kernel
/-- R140, R185, R181, R23: refusals. -/
theorem test_refusals : shown (exec .csAssert direct) = ([], [.status .seqSessionOpen []]) ∧
    shown (exec (.dmTransceive 0 0 0 0 0 []) State.reset) = ([], [.status .phyNotEnabled []]) ∧
    shown (exec (.dmEnable 0) { State.reset with cs := true }) = ([], [.status .csHeld []]) ∧
    shown (exec .halt { State.reset with busy := true }) = ([], [.status .busy []]) := by decide +kernel
/-- R22, R103: a step runs what the host presents, and refuses a reserved opcode. -/
theorem test_step : shown (step (State.reset.withFetchWord 24 0x880112)) =
      ([.csLow, .spiOut 0x01, .spiOut 0x88, .csHigh], [.status .ok []]) ∧
    shown (step { State.reset with inputs := [.op (.host [0x19])] }) = ([], [.status .illegalOp []]) ∧
    shown (step { State.reset with inputs := [.op (.host [0x12, 0x01])] }) = ([], [.status .badOperand []]) := by decide +kernel

/-! ### Witnesses: states and operands that meet the statements' hypotheses -/

theorem witness_StepRunsDecodedInstruction :
    ({ State.reset with inputs := [.op (.host [0x10])] } : State).inputs = [.op (.host [0x10])] ∧
    decode (.host [0x10]) = .ok .csAssert := by decide +kernel
theorem witness_DecodeOfEncodeIsIdentity : (Instr.select 4 [1, 2, 3, 4]).encodable = true ∧
    (Instr.dmTransceive 0 1 0 0 0 [0xFF]).encodable = true ∧ (Instr.spiDirectCmd 0x1F).encodable = true ∧
    (Instr.rfAnticollisionCl3 0x20 []).encodable = true ∧ Instr.seqX.encodable = true := by decide +kernel
theorem witness_EncodeOfDecodeIsIdentity : decode (.spi [0x7F] 2) = .ok (.spiReadCont 0x1F 2) ∧
    decode (.rf (bits8 0x95 ++ bits8 0x20)) = .ok (.rfAnticollisionCl2 0x20 []) := by decide +kernel
theorem witness_ReservedOpcodeIsRefused : ∀ b ∈ ([0x00, 0x0F, 0x19, 0x1F, 0x23, 0x34, 0x46, 0xFF] : List Byte),
    b ∉ ([0x10, 0x11, 0x12, 0x13, 0x14, 0x15, 0x16, 0x17, 0x18, 0x20, 0x21, 0x22, 0x30, 0x31, 0x32, 0x33,
          0x40, 0x41, 0x42, 0x43, 0x44, 0x45] : List Byte) ∧
    ({ State.reset with inputs := [.op (.host [b])] } : State).inputs = [.op (.host [b])] ∧ State.reset.busy = false := by
  decide +kernel
theorem witness_MalformedCommandIsRefused :
    ([0x00] : List Byte).length ≠ operandLength .csAssert [0x00] ∧
    ([0x00, 0x03, 0x01, 0x02] : List Byte).length ≠ operandLength .writeCont [0x00, 0x03, 0x01, 0x02] ∧
    ([] : List Byte).length ≠ operandLength .select [] := by decide +kernel
theorem witness_BusyRefusesEveryInstruction : ({ State.reset with busy := true } : State).busy = true := rfl
theorem witness_OpenSessionRefusesSeqAndAce : hostOp .halt = some .halt ∧ direct.busy = false ∧
    direct.sessionOpen = true := by decide +kernel
theorem witness_OperandOutOfRangeIsRefused : hostOp (.readReg 0x20) = some .readReg ∧
    (Instr.readReg 0x20).wellFormed = false ∧ State.reset.busy = false ∧ guardOf .readReg direct = some .seqSessionOpen := by
  decide +kernel
theorem witness_CsAssertLowersChipSelect : State.reset.SeqReady ∧ direct.busy = false ∧ direct.sessionOpen = true := by
  decide +kernel
theorem witness_CsDeassertRaisesChipSelect : ({ State.reset with cs := true } : State).SeqReady := ⟨rfl, rfl⟩
theorem witness_WriteRegSendsAddressAndValue : State.reset.SeqReady ∧ (0x1F#8 ≤ 0x1F#8) ∧ 0x1F#8 < 0x20#8 := by decide +kernel
theorem witness_ReadRegReturnsDrawnByte : State.reset.SeqReady ∧ (0x1F#8 ≤ 0x1F#8) ∧ 0x1F#8 < 0x20#8 := by decide +kernel
theorem witness_WriteContSendsAddressAndData : State.reset.SeqReady ∧
    (([0x00, 0x0F] : List Byte).length = (2#8).toNat ∧ 0x1E#8 ≤ 0x1F#8 ∧ 2#8 ≠ 0 ∧ (0x1E#8).toNat + (2#8).toNat - 1 ≤ 0x1F) ∧
    ((List.replicate 255 0 : List Byte).length = (255#8).toNat ∧ (0x1F#8 ≤ 0x1F#8) ∧ 255#8 ≠ 0) ∧
    (0x1E#8 ≠ 0x1F#8 ∧ 0x1F < (0x1E#8).toNat + (3#8).toNat - 1) ∧ 0x1F#8 < 0x20#8 := by decide +kernel
theorem witness_ReadContReturnsDrawnBytes : State.reset.SeqReady ∧
    (0x1E#8 ≤ 0x1F#8 ∧ 2#8 ≠ 0 ∧ (0x1E#8).toNat + (2#8).toNat - 1 ≤ 0x1F) ∧ ((0x1F#8 ≤ 0x1F#8) ∧ 255#8 ≠ 0) ∧
    (0x1E#8 ≠ 0x1F#8 ∧ 0x1F < (0x1E#8).toNat + (3#8).toNat - 1) ∧ 0x1F#8 < 0x20#8 := by decide +kernel
theorem witness_DirectCmdSendsOneByte : State.reset.SeqReady ∧ (0x1F#8 ≤ 0x1F#8) ∧ 0x1F#8 < 0x20#8 := by decide +kernel
theorem witness_SpiRowsAreTheirTransactions : State.reset.SeqReady ∧ ([0] : List Byte) ≠ [] ∧ ((0x1E#5).toNat + [0, 0].length ≤ 0x20) ∧
    ((0x00#5).toNat + (0x20#8).toNat ≤ 0x20) ∧ (0x1E#5 ≠ 0x1F#5 ∧ 0x20 < (0x1E#5).toNat + [0, 0, 0].length) ∧
    (0x00#5 ≠ 0x1F#5 ∧ 0x20 < (0x00#5).toNat + (0x21#8).toNat) := by decide +kernel
theorem witness_FifoWriteOfOnePiece : State.reset.SeqReady ∧ (List.replicate 127 0 : List Byte).length = (127#16).toNat ∧
    (List.replicate 127 0 : List Byte).length ≤ 127 ∧ ([] : List Byte).length = (0#16).toNat := by decide +kernel
theorem witness_FifoWriteFeedsThePieces : State.reset.SeqReady ∧ (List.replicate 128 0 : List Byte).length = (128#16).toNat ∧
    (List.replicate 128 0 : List Byte) ≠ [] := by decide +kernel
theorem witness_IrqWaitConsumesPendingFlag : ({ State.reset with irqFlag := true } : State).SeqReady ∧
    ({ State.reset with irqFlag := true } : State).irqFlag = true := ⟨⟨rfl, rfl⟩, rfl⟩
theorem witness_IrqWaitTimesOutWhileMasked : ({ State.reset with hostIe := false } : State).SeqReady ∧
    ({ State.reset with hostIe := false } : State).irqFlag = false ∧
    ({ State.reset with hostIe := false } : State).hostIe = false := ⟨⟨rfl, rfl⟩, rfl, rfl⟩
theorem witness_IrqWaitAlwaysEnds : State.reset.SeqReady := ⟨rfl, rfl⟩
theorem witness_IrqWaitEndsAtTheEdge :
    (scripted [] [false, false, true] []).irqFlag = false ∧ (scripted [] [false, false, true] []).hostIe = true ∧
    2 ≤ (2#16).toNat ∧ (scripted [] [false, false, true] []).env.edges = List.replicate 2 false ++ true :: [] ∧
    (scripted [] [false, false, true] []).SeqReady ∧ (scripted [] [false, false, false] []).SeqReady ∧
    (scripted [] [false, false, false] []).irqFlag = false ∧
    (scripted [] [false, false, false] []).env.edges = List.replicate ((2#16).toNat + 1) false ++ [] := by decide +kernel
theorem witness_RingIsFirstInFirstOut : testParams.InRange ∧ State.reset.fifoOvf = false ∧
    State.reset.ring.Inv testParams.fifoMirrorCap false ∧
    State.reset.ring.count + (List.replicate 32 0 : List Byte).length ≤ testParams.fifoMirrorCap :=
  ⟨testParams_inRange, rfl, Ring.inv_reset _ (by decide +kernel), by decide +kernel⟩
theorem witness_OverflowIsMarkedAndSticky :
    State.reset.fifoOvf = false ∧ State.reset.ring.count < testParams.fifoMirrorCap ∧
    ({ State.reset with ring := { buf := [], rd := 0, wr := 0, count := 32 } } : State).ring.count =
      testParams.fifoMirrorCap ∧
    shown (step { State.reset with fifoOvf := true, faults := [.fifoOverflow] }) = ([], []) := by decide +kernel
theorem witness_DmEnableOpensTheSession : State.reset.busy = false ∧ State.reset.dmEnabled = false ∧
    State.reset.cs = false ∧ direct.dmEnabled = true ∧ direct.busy = false := by decide +kernel
theorem witness_DmDisableClosesTheSession : direct.busy = false ∧ direct.dmEnabled = true ∧ State.reset.busy = false ∧
    State.reset.dmEnabled = false := by decide +kernel
theorem witness_DmTransceiveSendsThenReceives :
    ((State.reset.busy = false ∧ State.reset.dmEnabled = false) ∧ direct.busy = false ∧ direct.dmEnabled = true) ∧
    ((2#8 ≠ 0 ∧ 2#8 ≠ 1) ∧ 7#8 < 8#8 ∧ 8#8 < 9#8 ∧
      ([] : List Unit16).length ≠ (0#16).toNat + (if 1#8 = 0 then 0 else 1)) ∧
    (7#8 ≤ 7#8 ∧ 8#8 ≤ 8#8 ∧ ([0xFF] : List Unit16).length = (0#16).toNat + (if 7#8 = 0 then 0 else 1)) ∧
    ∀ u ∈ ([0xFF] : List Unit16), u < 0x100#16 :=
  ⟨by decide +kernel, by decide, by decide, List.forall_mem_singleton.2 (by decide)⟩
theorem witness_FrameIsItsSequences : ([false] : List Bit) ≠ [] := by decide +kernel
theorem witness_SilentPinGivesNoBits :
    (scripted [] [] (List.replicate 64 false)).env.samples = List.replicate testParams.rxStartTimeout false ++ [] := by decide +kernel
theorem witness_ReceiverDecodesWellFormedAnswers : testParams.InRange ∧ (0 < 2 ∧ 2 ≤ [true, false].length ∧ [true, false].length < 3) ∧ 63 < testParams.rxStartTimeout ∧
    (scripted [] [] (List.replicate 63 false ++ answerSamples [true, false] ++ List.replicate 16 false)).env.samples =
      List.replicate 63 false ++ answerSamples [true, false] ++ List.replicate 16 false ++ [] :=
  ⟨testParams_inRange, by decide +kernel, by decide +kernel, by decide +kernel⟩
theorem witness_ElementsHoldTheirBits : 1 ≤ ([0x1FF, 0x0AA] : List Unit16).length ∧ 9 ≤ unitBits 1 ∧
    1 < ([0x1FF, 0x0AA] : List Unit16).length := by decide +kernel
theorem witness_SequenceRowsEmitTheirSlots : direct.busy = false ∧ direct.dmEnabled = true ∧ State.reset.busy = false ∧
    State.reset.dmEnabled = false := by decide +kernel
theorem witness_SetParityMakesEveryUnitOdd : ([0x26] : List Unit16).length = (1#16).toNat ∧
    ([] : List Unit16).length = (0#16).toNat ∧ State.reset.busy = false := by decide +kernel
theorem witness_CheckCrcComparesTheLastTwo : State.reset.busy = false ∧ ([0x50] : List Unit16).length = (1#16).toNat ∧
    (1#16).toNat < 2 ∧ ([0x63, 0x63] : List Unit16).length = (2#16).toNat ∧
    ([0x63, 0x63] : List Unit16) = [] ++ [0x63, 0x63] := by decide +kernel
theorem witness_CheckParityTestsEveryUnit : (State.reset.busy = false ∧ ([0x193] : List Unit16).length = (1#16).toNat ∧
    ([0x093] : List Unit16).length = (1#16).toNat) ∧
    (∀ u ∈ ([0x193] : List Unit16), (popcount (payload u) + (parityBit u).toNat) % 2 = 1) ∧
    ∃ u ∈ ([0x093] : List Unit16), (popcount (payload u) + (parityBit u).toNat) % 2 = 0 :=
  ⟨by decide +kernel, List.forall_mem_singleton.2 (by decide), _, List.mem_singleton_self _, by decide⟩
theorem witness_AppendCrcAppendsTwoUnits : State.reset.busy = false ∧
    (List.replicate 65534 0 : List Unit16).length = (65534#16).toNat ∧ 65533 < (65534#16).toNat ∧
    (List.replicate 65533 0 : List Unit16).length = (65533#16).toNat ∧ (65533#16).toNat ≤ 65533 :=
  ⟨rfl, List.length_replicate, by decide +kernel, List.length_replicate, by decide +kernel⟩
theorem witness_ExchangeSetUpBeforeData : State.reset.fifoOvf = false := rfl
/-- The transmission complete, then an answer of two bytes, the FIFO status with its bit 7 set. -/
def twoBytes : State := scripted [0x80, 0x40, 0x82, 0x04, 0x00] [true, true] []
/-- The same with a collision, whose position register reads 0x22. -/
def collided : State := scripted [0x80, 0x02, 0x82, 0x04, 0x00, 0x22] [true, true] []
theorem witness_ExchangeReturnsTheAnswer :
    (testParams.InRange ∧ bitsN 7 0x26#7 7 ≠ [] ∧ (bitsN 7 0x26#7 7).length ≤ 8 * 127 ∧
      (0x82#8 &&& 0x7F#8).toNat = ([0x04, 0x00] : List Byte).length ∧ 2 ≤ testParams.fifoMirrorCap) ∧
    (twoBytes.irqFlag = false ∧ twoBytes.hostIe = true ∧ twoBytes.fifoOvf = false ∧ Memory.wf twoBytes.ring.buf = true ∧
      twoBytes.env.edges = [true, true] ∧ twoBytes.env.spiIn = [0x80, 0x40, 0x82] ++ [0x04, 0x00]) ∧
    (collided.irqFlag = false ∧ collided.hostIe = true ∧ collided.fifoOvf = false ∧ Memory.wf collided.ring.buf = true ∧
      collided.env.edges = [true, true] ∧ collided.env.spiIn = [0x80, 0x02, 0x82] ++ [0x04, 0x00] ++ [0x22]) ∧
    testParams.irqClassify 0x80 = .txComplete ∧ testParams.irqClassify 0x40 = .rxComplete ∧
    testParams.irqClassify 0x02 = .collision :=
  ⟨⟨testParams_inRange, by decide +kernel⟩, by decide +kernel, by decide +kernel, by decide +kernel⟩
theorem witness_CrcAndParityProperties : 1 < ([] : List Unit16).length + 2 ∧ 7 < 8 ∧
    ([0x193] : List Unit16).map payload = ([0x093] : List Unit16).map payload := by decide +kernel
theorem witness_FrameRowsAreTheirExchanges : State.reset.SeqReady ∧
    ((List.replicate 39 true).length < 40 ∧ 0x67#8 = nvbByte (List.replicate 39 true).length ∧
      ([1, 2, 3, 4, 4] : List Byte).length = 5) ∧
    (40 ≤ (List.replicate 40 true).length ∧ 0x21#8 ≠ nvbByte ([] : List Bit).length) ∧ ([] : List Byte).length ≠ 5 := by
  decide +kernel
theorem witness_RoundsMergeIntoTheRecord : 80 + 40 ≤ 120 ∧ 39 ≤ 40 ∧ ([true] : List Bit).length = 40 - 39 ∧
    39 ≤ 39 ∧ 39 - 39 ≤ ([] : List Bit).length ∧ ([] : List Bit).length < 1 - 0 := by decide +kernel
theorem witness_RoundsEndWithTheLevelKnown : knownBits 1 AnticolState.zero < 40 ∧
    mergeAnswer AnticolState.zero 1 (.frame (List.replicate 40 true) none) =
      mergeAll AnticolState.zero 0 0 (List.replicate 40 true) ∧
    anticolRounds testParams 1 40 { AnticolState.zero with bitPos := 40 } State.reset =
      (.ok (), { AnticolState.zero with bitPos := 40 }, State.reset) := ⟨by decide +kernel, rfl, rfl⟩
theorem witness_SearchFollowsItsRule :
    (doAnticol testParams .zero (scripted [0x80] [true, false, false, false, false] [])).1 = .error .noResponse := by decide +kernel

/-- The exchanges of one card with UID 12 34 56 78 (check byte 08) and SAK 08. -/
def oneCard : State :=
  scripted [0x80, 0x40, 0x05, 0x12, 0x34, 0x56, 0x78, 0x08, 0x80, 0x40, 0x01, 0x08] [true, true, true, true] []
/-- After its ANTICOLLISION exchange. -/
def oneCardSelect : State :=
  (exchangeSeq testParams .anticol (bits8 (testParams.rfSel 1) ++ bits8 0x20) true oneCard).2
theorem witness_OneCardIsFound : AnticolState.zero.bitPos = 0 ∧ ([0x12, 0x34, 0x56, 0x78, 0x08] : List Byte).length = 5 ∧
    (0x08 : Byte).getLsbD 2 = false ∧
    (exchangeSeq testParams .anticol (bits8 (testParams.rfSel 1) ++ bits8 0x20) true oneCard).1 =
      .frame (([0x12, 0x34, 0x56, 0x78, 0x08] : List Byte).flatMap bits8) none ∧
    (exchangeSeq testParams .standard (bits8 (testParams.rfSel 1) ++ bits8 0x70 ++
      ([0x12, 0x34, 0x56, 0x78, 0x08] : List Byte).flatMap bits8) true oneCardSelect).1 = .frame (bits8 0x08) none := by decide +kernel
theorem witness_SearchAssemblesTheUid :
    (doAnticol testParams .zero oneCard).1 = .ok ([0x12, 0x34, 0x56, 0x78], 0x08) := by decide +kernel
theorem witness_ReqaAnswersByItsExchange : State.reset.SeqReady ∧ 0x7F#8 ≤ 0x7F#8 ∧ 0x7F#8 < 0x80#8 := by decide +kernel
theorem witness_DoAnticolRunsOnTheSingleton : State.reset.SeqReady := ⟨rfl, rfl⟩
theorem witness_SelectFirstStartsFromZero : State.reset.SeqReady ∧ 0x7F#8 ≤ 0x7F#8 ∧ 0x7F#8 < 0x80#8 := by decide +kernel
theorem witness_HaltSendsHlta : State.reset.SeqReady := ⟨rfl, rfl⟩

/-- A record with two markers, at 3 and at 10, the search stopped at 40. -/
def twoMarkers : AnticolState := { (AnticolState.zero.setCollBit 3 true).setCollBit 10 true with bitPos := 40 }
theorem witness_SelectNextTakesTheNearestMarker : ({ State.reset with acs := twoMarkers } : State).SeqReady ∧
    State.reset.SeqReady ∧ (0x7F#8 ≤ 0x7F#8) ∧ 10 < twoMarkers.bitPos ∧ twoMarkers.collBit 10 = true ∧ (∀ q < 40, 10 < q → twoMarkers.collBit q = false) ∧
    (∀ p < State.reset.acs.bitPos, State.reset.acs.collBit p = false) := by decide +kernel
theorem witness_SelectUsesALocalRecord : State.reset.SeqReady ∧ ([1, 2, 3, 4] : List Byte).length = (4#8).toNat ∧
    ([1, 2, 3, 4, 5, 6, 7] : List Byte).length = (7#8).toNat ∧
    ([1, 2, 3, 4, 5, 6, 7, 8, 9, 10] : List Byte).length = (10#8).toNat ∧ (5#8 ≠ 4 ∧ 5#8 ≠ 7 ∧ 5#8 ≠ 10) := by decide +kernel
theorem witness_StepKeepsTheInvariant : ({ State.reset with cs := true } : State).Inv ∧
    ∃ t, step { State.reset with cs := true } = .next t :=
  ⟨{ session := rfl, window := fun _ => rfl, pin := rfl, noWait := rfl, mark := rfl,
     ring := Ring.inv_reset _ params_inRange.fifoMirrorCap, acs := AnticolState.inv_zero }, _, rfl⟩
theorem witness_AgentStepsWriteTheirFlags :
    ({ State.reset with inputs := [.irqEdge] } : State).inputs = [.irqEdge] ∧
    ({ State.reset with inputs := [.msTick] } : State).inputs = [.msTick] ∧
    ({ State.reset with inputs := [.hostIe false] } : State).inputs = [.hostIe false] := by decide +kernel
theorem witness_OnlyDirectModeChangesTheSession : (∃ t, exec (.writeReg 0x01 0x88) State.reset = .next t) ∧
    (∀ mode, Instr.writeReg 0x01 0x88 ≠ .dmEnable mode) ∧ Instr.writeReg 0x01 0x88 ≠ .dmDisable ∧
    Instr.writeReg 0x01 0x88 ≠ .csAssert ∧ Instr.writeReg 0x01 0x88 ≠ .csDeassert :=
  ⟨⟨_, rfl⟩, fun _ => Instr.noConfusion, Instr.noConfusion, Instr.noConfusion, Instr.noConfusion⟩
theorem witness_OnlySearchChangesTheRecord : (∃ t, exec (.readReg 0x01) State.reset = .next t) ∧
    hostOp (.readReg 0x01) = some .readReg ∧ Instr.readReg 0x01 ≠ .doAnticol :=
  ⟨⟨_, rfl⟩, rfl, Instr.noConfusion⟩

end Sys2Proof.Tests
end

/-! PROOFS. The family `00_scope.md`: a step is the instruction it decodes (R8, R22), and every instruction ends with one
response and a trace that only grew (R15, R73, R99, R292). -/

namespace Sys2Proof.Machine

open Host (Outcome)

/-- Settles O1: `step` looks at the head of the inputs, and `runWord` at what it decodes to. -/
theorem stepRunsDecodedInstruction : Obligations.StepRunsDecodedInstruction := by
  intro s w rest i hinputs hdecode
  simp only [step, hinputs, runWord, hdecode]

/-! ### What an operation may do to the trace, the responses and the inputs -/

/-- R8, R15: between its start and its end an operation only appends to the trace, hands nothing back and takes no input. -/
structure OnlyAppends (s t : State) : Prop where
  responses : t.responses = s.responses
  inputs : t.inputs = s.inputs
  trace : s.trace <+: t.trace

theorem OnlyAppends.refl (s : State) : OnlyAppends s s := ⟨rfl, rfl, List.prefix_refl _⟩

theorem OnlyAppends.trans {s t u : State} (h : OnlyAppends s t) (k : OnlyAppends t u) : OnlyAppends s u :=
  ⟨k.responses.trans h.responses, k.inputs.trans h.inputs, h.trace.trans k.trace⟩

/-- An update of other fields than these three. -/
theorem OnlyAppends.of_eq {s t : State} (hr : t.responses = s.responses) (hi : t.inputs = s.inputs)
    (ht : t.trace = s.trace) : OnlyAppends s t := ⟨hr, hi, ht ▸ List.prefix_refl _⟩

/-- Such an update, and then an operation. -/
theorem OnlyAppends.after {s t u : State} (h : OnlyAppends t u) (hr : t.responses = s.responses)
    (hi : t.inputs = s.inputs) (ht : t.trace = s.trace) : OnlyAppends s u := (OnlyAppends.of_eq hr hi ht).trans h

theorem emit_onlyAppends (s : State) (es : List Event) : OnlyAppends s (s.emit es) :=
  ⟨rfl, rfl, List.prefix_append _ _⟩

theorem csLow_onlyAppends (s : State) : OnlyAppends s (csLow s) := ⟨rfl, rfl, List.prefix_append _ _⟩

theorem csHigh_onlyAppends (s : State) : OnlyAppends s (csHigh s) := ⟨rfl, rfl, List.prefix_append _ _⟩

/-! ### SPI transactions -/

theorem txn_onlyAppends (cmd : Byte) (out : List Byte) (nin : Nat) (s : State) : OnlyAppends s (txn cmd out nin s).2 := by
  rw [txn_eq]; exact ⟨rfl, rfl, List.prefix_append _ _⟩

theorem writeReg_onlyAppends (a : BitVec 5) (v : Byte) (s : State) : OnlyAppends s (writeReg a v s) :=
  txn_onlyAppends _ _ _ _

theorem readReg_onlyAppends (a : BitVec 5) (s : State) : OnlyAppends s (readReg a s).2 := txn_onlyAppends _ _ _ _

theorem writeCont_onlyAppends (a : BitVec 5) (data : List Byte) (s : State) : OnlyAppends s (writeCont a data s) :=
  txn_onlyAppends _ _ _ _

theorem readCont_onlyAppends (a : BitVec 5) (n : Nat) (s : State) : OnlyAppends s (readCont a n s).2 :=
  txn_onlyAppends _ _ _ _

theorem directCmd_onlyAppends (c : BitVec 5) (s : State) : OnlyAppends s (directCmd c s) := txn_onlyAppends _ _ _ _

theorem writeRegs_onlyAppends (l : List (BitVec 5 × Byte)) (s : State) : OnlyAppends s (writeRegs l s) := by
  rw [writeRegs_eq]; exact ⟨rfl, rfl, List.prefix_append _ _⟩

/-! ### The ring -/

theorem ringUnspecified_onlyAppends (P : Params) (s : State) : OnlyAppends s (ringUnspecified P s) := by
  unfold ringUnspecified
  split
  · exact .of_eq rfl rfl rfl
  · exact .refl s

theorem ringPushCore_onlyAppends (P : Params) (b : Byte) (s : State) : OnlyAppends s (ringPushCore P b s) := by
  unfold ringPushCore
  split
  · exact ⟨rfl, rfl, List.prefix_append _ _⟩
  · exact .of_eq rfl rfl rfl

theorem ringPush_onlyAppends (P : Params) (b : Byte) (s : State) : OnlyAppends s (ringPush P b s) :=
  ((ringUnspecified_onlyAppends P s).trans (ringPushCore_onlyAppends P b _)).trans (ringUnspecified_onlyAppends P _)

theorem ringPushes_onlyAppends (P : Params) (l : List Byte) (s : State) :
    OnlyAppends s (l.foldl (fun t b => ringPush P b t) s) := by
  induction l generalizing s with
  | nil => exact .refl s
  | cons b l ih => exact (ringPush_onlyAppends P b s).trans (ih _)

theorem ringPopCore_onlyAppends (P : Params) (s : State) : OnlyAppends s (ringPopCore P s).2 := by
  unfold ringPopCore
  split
  · exact .refl s
  · exact .of_eq rfl rfl rfl

theorem ringPopN_onlyAppends (P : Params) (n : Nat) (s : State) : OnlyAppends s (ringPopN P n s).2 := by
  induction n generalizing s with
  | zero => exact .refl s
  | succ n ih =>
    have hpop := ringPopCore_onlyAppends P s
    unfold ringPopN
    split
    · next t hq => rw [hq] at hpop; exact hpop
    · next b t hq => rw [hq] at hpop; exact hpop.trans (ih t)

theorem ringPopAll_onlyAppends (P : Params) (s : State) : OnlyAppends s (ringPopAll P s).2 :=
  ((ringUnspecified_onlyAppends P s).trans (ringPopN_onlyAppends P _ _)).trans (ringUnspecified_onlyAppends P _)

theorem ringClear_onlyAppends (P : Params) (s : State) : OnlyAppends s (ringClear P s) :=
  OnlyAppends.after (ringUnspecified_onlyAppends P _) rfl rfl rfl

theorem drain_onlyAppends (P : Params) (s : State) : OnlyAppends s (drain P s) := by
  have hstatus := readReg_onlyAppends P.regFifoStatus s
  unfold drain
  dsimp only
  split
  · exact hstatus
  · exact (hstatus.trans (readCont_onlyAppends _ _ _)).trans (ringPushes_onlyAppends _ _ _)

/-! ### The IRQ wait, the FIFO write, the exchange -/

theorem irqHandler_onlyAppends (s : State) : OnlyAppends s (irqHandler s) := by
  unfold irqHandler
  split
  · exact .of_eq rfl rfl rfl
  · exact .refl s

theorem msTickStep_onlyAppends (s : State) : OnlyAppends s (msTickStep s) := by
  unfold msTickStep
  split
  · exact .refl s
  · exact .of_eq rfl rfl rfl

theorem pollEdge_onlyAppends (s : State) : OnlyAppends s (pollEdge s) := by
  have hdraw : OnlyAppends s { s with env := s.env.edge.2 } := .of_eq rfl rfl rfl
  unfold pollEdge
  dsimp only
  split
  · exact hdraw.trans (irqHandler_onlyAppends _)
  · exact hdraw

theorem waitLoop_onlyAppends (n : Nat) (s : State) : OnlyAppends s (waitLoop n s) := by
  induction n generalizing s with
  | zero =>
    unfold waitLoop
    split
    · exact .refl s
    · exact pollEdge_onlyAppends s
  | succ n ih =>
    unfold waitLoop
    dsimp only
    split
    · exact .refl s
    · split
      · exact pollEdge_onlyAppends s
      · exact ((pollEdge_onlyAppends s).trans (msTickStep_onlyAppends _)).trans (ih _)

theorem irqWait_onlyAppends (P : Params) (ms : BitVec 16) (s : State) : OnlyAppends s (irqWait P ms s).2 := by
  have hwait : OnlyAppends s (waitLoop ms.toNat { s with timeoutFlag := ms == 0, countdown := ms }) :=
    OnlyAppends.after (waitLoop_onlyAppends _ _) rfl rfl rfl
  unfold irqWait
  dsimp only
  generalize waitLoop ms.toNat { s with timeoutFlag := ms == 0, countdown := ms } = w at hwait ⊢
  have hread : OnlyAppends s (readReg P.regIrqStatus { w with irqFlag := false, countdown := 0 }).2 :=
    hwait.trans (OnlyAppends.after (readReg_onlyAppends _ _) rfl rfl rfl)
  split
  · dsimp only
    split
    · exact hread.trans (drain_onlyAppends _ _)
    · exact hread
  · exact hwait

theorem fifoFeed_onlyAppends (P : Params) (n : Nat) (rest : List Byte) (s : State) :
    OnlyAppends s (fifoFeed P n rest s).2 := by
  induction n generalizing rest s with
  | zero => exact .refl s
  | succ n ih =>
    have hwait := irqWait_onlyAppends P P.tTxMs s
    unfold fifoFeed
    dsimp only
    split
    · exact .refl s
    · split
      · exact (hwait.trans (writeCont_onlyAppends _ _ _)).trans (ih _ _)
      · exact hwait

theorem fifoWrite_onlyAppends (P : Params) (data : List Byte) (s : State) : OnlyAppends s (fifoWrite P data s).2 := by
  unfold fifoWrite
  split
  · exact .refl s
  · exact (writeCont_onlyAppends _ _ _).trans (fifoFeed_onlyAppends _ _ _ _)

/-- R162: one wait, then the branch of its cause; a `FIFO_HIGH` round goes on while rounds are left. -/
theorem receiveLoop_onlyAppends (P : Params) (kind : ExchKind) (bb n : Nat) (s : State) :
    OnlyAppends s (receiveLoop P kind bb n s).2 := by
  induction n generalizing s with
  | zero =>
    have hwait := irqWait_onlyAppends P P.tRxMs s
    unfold receiveLoop
    dsimp only
    cases (irqWait P P.tRxMs s).1 with
    | rxComplete => exact hwait.trans (ringPopAll_onlyAppends _ _)
    | collision => exact (hwait.trans (readReg_onlyAppends _ _)).trans (ringPopAll_onlyAppends _ _)
    | timeout | txComplete | fifoHigh | fifoLow | protocolError | fieldChange => exact hwait
  | succ n ih =>
    have hwait := irqWait_onlyAppends P P.tRxMs s
    unfold receiveLoop
    dsimp only
    cases (irqWait P P.tRxMs s).1 with
    | fifoHigh => exact hwait.trans (ih _)
    | rxComplete => exact hwait.trans (ringPopAll_onlyAppends _ _)
    | collision => exact (hwait.trans (readReg_onlyAppends _ _)).trans (ringPopAll_onlyAppends _ _)
    | timeout | txComplete | fifoLow | protocolError | fieldChange => exact hwait

theorem exchangeSetup_onlyAppends (P : Params) (kind : ExchKind) (tx : List Bit) (s : State) :
    OnlyAppends s (exchangeSetup P kind tx s) :=
  ((((writeReg_onlyAppends _ _ _).trans (directCmd_onlyAppends _ _)).trans (ringClear_onlyAppends _ _)).trans
    (directCmd_onlyAppends _ _)).trans (writeCont_onlyAppends _ _ _)

theorem exchangeSeq_onlyAppends (P : Params) (kind : ExchKind) (tx : List Bit) (wantRx : Bool) (s : State) :
    OnlyAppends s (exchangeSeq P kind tx wantRx s).2 := by
  have hfifo := (exchangeSetup_onlyAppends P kind tx s).trans (fifoWrite_onlyAppends P (packLsb tx) _)
  have hwait := hfifo.trans (irqWait_onlyAppends P P.tTxMs _)
  unfold exchangeSeq
  dsimp only
  split
  · exact hfifo
  · split
    · split
      · exact hwait.trans (receiveLoop_onlyAppends _ _ _ _ _)
      · exact hwait
    · exact hwait

/-! ### ACE -/

theorem reqa_onlyAppends (P : Params) (cmd : BitVec 7) (s : State) : OnlyAppends s (reqa P cmd s).2 :=
  exchangeSeq_onlyAppends _ _ _ _ _

theorem halt_onlyAppends (P : Params) (s : State) : OnlyAppends s (halt P s).2 := exchangeSeq_onlyAppends _ _ _ _ _

theorem anticolRounds_onlyAppends (P : Params) (lvl n : Nat) (st : AnticolState) (s : State) :
    OnlyAppends s (anticolRounds P lvl n st s).2.2 := by
  induction n generalizing st s with
  | zero => exact .refl s
  | succ n ih =>
    have hround : OnlyAppends s (anticolExchange P lvl st s).2 := exchangeSeq_onlyAppends _ _ _ _ _
    unfold anticolRounds
    split
    · dsimp only
      split
      · exact hround
      · exact hround.trans (ih _ _)
    · exact .refl s

theorem searchLevels_onlyAppends (P : Params) (n lvl : Nat) (st : AnticolState) (s : State) :
    OnlyAppends s (searchLevels P n lvl st s).2.2 := by
  induction n generalizing lvl st s with
  | zero => exact .refl s
  | succ n ih =>
    have hrounds := anticolRounds_onlyAppends P lvl levelBits st s
    unfold searchLevels
    split
    · next e st1 s1 hq => rw [hq] at hrounds; exact hrounds
    · next st1 s1 hq =>
      rw [hq] at hrounds
      have hselect : OnlyAppends s (selectExchange P lvl st1 s1).2 :=
        hrounds.trans (exchangeSeq_onlyAppends _ _ _ _ _)
      dsimp only
      split
      · exact hselect
      · split
        · exact hselect.trans (ih _ _ _)
        · exact hselect

theorem doAnticol_onlyAppends (P : Params) (st : AnticolState) (s : State) : OnlyAppends s (doAnticol P st s).2.2 :=
  searchLevels_onlyAppends _ _ _ _ _

theorem doAnticolSingleton_onlyAppends (P : Params) (s : State) : OnlyAppends s (doAnticolSingleton P s).2 :=
  (doAnticol_onlyAppends P s.acs s).trans (.of_eq rfl rfl rfl)

theorem selectFirst_onlyAppends (P : Params) (cmd : BitVec 7) (s : State) : OnlyAppends s (selectFirst P cmd s).2 := by
  have hreqa : OnlyAppends s (reqa P cmd { s with acs := .zero }).2 :=
    OnlyAppends.after (reqa_onlyAppends _ _ _) rfl rfl rfl
  unfold selectFirst
  dsimp only
  split
  · exact hreqa
  · exact hreqa.trans (doAnticolSingleton_onlyAppends _ _)

theorem selectNext_onlyAppends (P : Params) (cmd : BitVec 7) (s : State) : OnlyAppends s (selectNext P cmd s).2 := by
  have hreqa := reqa_onlyAppends P cmd s
  unfold selectNext
  split
  · exact .refl s
  · dsimp only
    split
    · exact hreqa
    · exact hreqa.trans (OnlyAppends.after (doAnticolSingleton_onlyAppends _ _) rfl rfl rfl)

theorem selectExact_onlyAppends (P : Params) (uid : List Byte) (s : State) :
    OnlyAppends s (selectExact P uid s).2 := by
  have hreqa := reqa_onlyAppends P P.rfWupa s
  have hsearch := hreqa.trans (doAnticol_onlyAppends P (selectRecord uid) _)
  unfold selectExact
  dsimp only
  split
  · exact hreqa
  · split
    · exact hsearch
    · exact hsearch

/-! ### Direct mode -/

theorem SamplesOnly.onlyAppends {s t : State} (h : SamplesOnly s t) : OnlyAppends s t := by
  obtain ⟨l, e, -, -, rfl⟩ := h
  exact ⟨rfl, rfl, List.prefix_append _ _⟩

theorem enableDirect_onlyAppends (P : Params) (mode : Byte) (s : State) : OnlyAppends s (enableDirect P mode s) := by
  unfold enableDirect
  split
  · exact .refl s
  · have hopened := (writeRegs_onlyAppends (P.dmEnterSeq mode).pre s).trans (csLow_onlyAppends _)
    have hdata := hopened.trans (emit_onlyAppends _
      (.spiOut (spiWriteContByte (P.dmEnterSeq mode).addr) :: (P.dmEnterSeq mode).data.map .spiOut))
    exact hdata.trans ⟨rfl, rfl, List.prefix_append _ _⟩

theorem disableDirect_onlyAppends (P : Params) (s : State) : OnlyAppends s (disableDirect P s) := by
  unfold disableDirect
  split
  · have hclosed : OnlyAppends s { ({ csHigh s with sessionOpen := false } : State).emit [.pinMode .spiFunction] with
        rxPinMode := .spiFunction } := (csHigh_onlyAppends s).trans ⟨rfl, rfl, List.prefix_append _ _⟩
    have hinit := (hclosed.trans (directCmd_onlyAppends P.cmdResetFifo _)).trans (directCmd_onlyAppends P.cmdSoftInit _)
    exact (hinit.trans (writeRegs_onlyAppends P.iso14443aRegInit _)).trans (.of_eq rfl rfl rfl)
  · exact .refl s

theorem transceive_onlyAppends (P : Params) (tx : List Bit) (cap : Nat) (s : State) :
    OnlyAppends s (transceive P tx cap s).2 := by
  have hmasked : OnlyAppends s (({ s with hostIe := false } : State).emit [.intMask true]) :=
    ⟨rfl, rfl, List.prefix_append _ _⟩
  have hsent := hmasked.trans (emit_onlyAppends _ ((frameSlots P tx).map .mod))
  have hunmasked (t : State) : OnlyAppends t (({ t with hostIe := s.hostIe } : State).emit [.intMask false]) :=
    ⟨rfl, rfl, List.prefix_append _ _⟩
  unfold transceive
  dsimp only
  split
  · exact hsent.trans (hunmasked _)
  · exact (hsent.trans (receive_samplesOnly P cap _).onlyAppends).trans (hunmasked _)

/-! ### Instructions -/

/-- R8, R99, R292: an outcome of an instruction run in `s` that is a next state with one response more, a trace that only
grew and the inputs as they were. -/
def EndsWithOneResponse (s : State) (o : Outcome State Fault Refusal) : Prop :=
  ∃ t r es, o = .next t ∧ t.responses = s.responses ++ [r] ∧ t.trace = s.trace ++ es ∧ t.inputs = s.inputs

/-- An operation as issued ends with one response: refused, with its status; run, with its body's. -/
theorem issue_endsWithOneResponse {refused : Option Status} {body : State → Response × State} (s : State)
    (hbody : ∀ t, OnlyAppends t (body t).2) : EndsWithOneResponse s (.next (issue refused body s)) := by
  have hrefused (st : Status) : EndsWithOneResponse s (.next (s.respond (.status st []))) :=
    ⟨_, _, [], rfl, rfl, (List.append_nil _).symm, rfl⟩
  cases hbusy : s.busy with
  | true => rw [issue_busy hbusy]; exact hrefused .busy
  | false =>
    cases refused with
    | some st => rw [issue_refused hbusy]; exact hrefused st
    | none =>
      obtain ⟨hresponses, hinputs, es, htrace⟩ := hbody { s with busy := true }
      rw [issue_runs hbusy]
      exact ⟨_, _, es, rfl, congrArg (· ++ _) hresponses, htrace.symm, hinputs⟩

/-- R141, R142: a chip select already at its level is left alone. -/
theorem ite_onlyAppends {c : Prop} [Decidable c] {s t u : State} (ht : OnlyAppends s t) (hu : OnlyAppends s u) :
    OnlyAppends s (if c then t else u) := by
  split
  · exact ht
  · exact hu

/-- R245: a frame issued by itself. -/
theorem frameExchange_endsWithOneResponse (ok : Bool) (kind : ExchKind) (tx : List Bit) (wantRx : Bool) (s : State) :
    EndsWithOneResponse s (.next (frameExchange ok kind tx wantRx s)) :=
  issue_endsWithOneResponse s fun _ => exchangeSeq_onlyAppends _ _ _ _ _

/-- Every arm of `exec` is an operation as issued, with a body that only appends. -/
theorem exec_endsWithOneResponse (i : Instr) (s : State) : EndsWithOneResponse s (exec i s) := by
  cases i with
  | csAssert => exact issue_endsWithOneResponse s fun t => ite_onlyAppends (.refl t) (csLow_onlyAppends t)
  | csDeassert => exact issue_endsWithOneResponse s fun t => ite_onlyAppends (csHigh_onlyAppends t) (.refl t)
  | writeReg | spiWriteSingle => exact issue_endsWithOneResponse s (writeReg_onlyAppends _ _)
  | readReg | spiReadSingle => exact issue_endsWithOneResponse s (readReg_onlyAppends _)
  | writeCont | spiWriteCont => exact issue_endsWithOneResponse s (writeCont_onlyAppends _ _)
  | readCont | spiReadCont => exact issue_endsWithOneResponse s (readCont_onlyAppends _ _)
  | directCmd | spiDirectCmd | cmdSoftInit | cmdResetFifo | cmdTxNocrc | cmdTxCrc =>
    exact issue_endsWithOneResponse s (directCmd_onlyAppends _)
  | fifoWrite n data => exact issue_endsWithOneResponse s (fifoWrite_onlyAppends params data)
  | irqWait ms => exact issue_endsWithOneResponse s (irqWait_onlyAppends params ms)
  | dmEnable mode => exact issue_endsWithOneResponse s (enableDirect_onlyAppends params mode)
  | dmDisable => exact issue_endsWithOneResponse s (disableDirect_onlyAppends params)
  | dmTransceive => exact issue_endsWithOneResponse s (transceive_onlyAppends params _ _)
  | setParity | checkParity | appendCrc | checkCrc => exact issue_endsWithOneResponse s .refl
  | reqa cmd => exact issue_endsWithOneResponse s (reqa_onlyAppends params _)
  | doAnticol => exact issue_endsWithOneResponse s (doAnticolSingleton_onlyAppends params)
  | selectFirst cmd => exact issue_endsWithOneResponse s (selectFirst_onlyAppends params _)
  | selectNext cmd => exact issue_endsWithOneResponse s (selectNext_onlyAppends params _)
  | select uidLen uid => exact issue_endsWithOneResponse s (selectExact_onlyAppends params uid)
  | halt => exact issue_endsWithOneResponse s (halt_onlyAppends params)
  | rfReqa | rfWupa | rfAnticollisionCl1 | rfAnticollisionCl2 | rfAnticollisionCl3 | rfSelectCl1 | rfSelectCl2
  | rfSelectCl3 | rfHlta => exact frameExchange_endsWithOneResponse _ _ _ _ s
  | seqX | seqY | seqZ => exact issue_endsWithOneResponse s fun t => emit_onlyAppends t _

/-- Settles O10: the ending of each instruction, and the sixteen codes of R294. -/
theorem everyInstructionEndsWithOneResponse : Obligations.EveryInstructionEndsWithOneResponse := by
  refine ⟨exec_endsWithOneResponse, fun results p hp => ?_⟩
  have hcode : p.2 = statusCode p.1 := by
    revert p
    decide
  rw [hcode, responseBytes]

end Sys2Proof.Machine

/-! PROOFS. The receiver decodes every well-formed answer (R120, R192, R200): what the reference decoder and the count of
silent samples are after each bit period of an answer, and that the sampling loop goes on until it ends as R200 says. -/

namespace Sys2Proof.Machine

/-! ### The receiver's variables along a list of samples -/

/-- R200: the decoder's variables and the number of silent samples at the end, one sample later. -/
def rxAdvance (W : Nat) (r : RxVars × Nat) (a : Bit) : RxVars × Nat := (rxStep W r.1 a, silence r.2 a)

/-- R200: the sampling goes on: there is room for another bit, and no silence yet. -/
def RxOpen (cap : Nat) (r : RxVars × Nat) : Prop := r.1.out.length < cap ∧ r.2 < rxSilence

/-- The sampling goes on after each of these samples. -/
def GoesOn (W cap : Nat) (r : RxVars × Nat) : List Bit → Prop
  | [] => True
  | a :: l => RxOpen cap (rxAdvance W r a) ∧ GoesOn W cap (rxAdvance W r a) l

theorem goesOn_append {W cap : Nat} {r : RxVars × Nat} {l m : List Bit} :
    GoesOn W cap r (l ++ m) ↔ GoesOn W cap r l ∧ GoesOn W cap (l.foldl (rxAdvance W) r) m := by
  induction l generalizing r with
  | nil => simp [GoesOn]
  | cons a l ih => simp [GoesOn, ih, and_assoc]

/-! ### The sampling loop -/

/-- R191: a script's next sample. -/
theorem sampleStep_script {s : State} {a : Bit} {l : List Bit} (h : s.env.samples = a :: l) :
    (sampleStep s).1 = a ∧ (sampleStep s).2.env.samples = l := by
  simp [sampleStep, Env.sample, h]

/-- R192: the start wait takes the samples up to the first active one, when that comes in time. -/
theorem startWait_lead (lead n : Nat) (l : List Bit) (s : State) (hlead : lead < n)
    (hs : s.env.samples = List.replicate lead false ++ true :: l) :
    (startWait n s).1 = true ∧ (startWait n s).2.env.samples = l := by
  induction n generalizing lead s with
  | zero => omega
  | succ n ih =>
    cases lead with
    | zero =>
      obtain ⟨hone, hrest⟩ := sampleStep_script hs
      simp [startWait, hone, hrest]
    | succ lead =>
      obtain ⟨hzero, hrest⟩ := sampleStep_script (a := false) hs
      simp [startWait, hzero, ih lead _ (by omega) hrest]

section Loop

variable {P : Params} {W : Nat} (hP : P.rxDecode = rxDecodeReference W)

include hP

/-- What a turn of the loop has decoded, by the receiver's variables `r` after the samples before it. -/
theorem rxDecode_append_sample {p : List Bit} {r : RxVars × Nat} (hr : p.foldl (rxStep W) rxStart = r.1) (a : Bit) :
    P.rxDecode (true :: p ++ [a]) = (rxAdvance W r a).1.out := by
  simp [hP, rxDecodeReference, rxAdvance, hr]

/-- R200: the two ways a turn ends, as `RxOpen` has them. -/
theorem rxLoop_ends_iff {cap : Nat} {p : List Bit} {r : RxVars × Nat} (hr : p.foldl (rxStep W) rxStart = r.1) (a : Bit) :
    (((P.rxDecode (true :: p ++ [a])).take cap).length = cap ∨ rxSilence ≤ silence r.2 a) ↔
      ¬ RxOpen cap (rxAdvance W r a) := by
  rw [rxDecode_append_sample hP hr, List.length_take]
  simp only [RxOpen, rxAdvance]
  omega

/-- Samples after each of which the sampling goes on, and one after which it does not, are all taken and no other. -/
theorem rxLoop_script {cap n : Nat} {l rest : List Bit} {a : Bit} {p : List Bit} {r : RxVars × Nat} {s : State}
    (hr : p.foldl (rxStep W) rxStart = r.1) (hs : s.env.samples = l ++ a :: rest) (hgo : GoesOn W cap r l)
    (hend : ¬ RxOpen cap (rxAdvance W (l.foldl (rxAdvance W) r) a)) (hn : l.length < n) :
    (rxLoop P cap n r.2 (true :: p) s).1 = (rxAdvance W (l.foldl (rxAdvance W) r) a).1.out.take cap ∧
      (rxLoop P cap n r.2 (true :: p) s).2.env.samples = rest := by
  induction l generalizing n p r s with
  | nil =>
    obtain ⟨n, rfl⟩ := Nat.exists_eq_add_one_of_ne_zero (Nat.ne_zero_of_lt hn)
    obtain ⟨hsample, hrest⟩ := sampleStep_script hs
    unfold rxLoop
    dsimp only
    rw [hsample, if_pos ((rxLoop_ends_iff hP hr a).2 hend), rxDecode_append_sample hP hr]
    exact ⟨rfl, hrest⟩
  | cons b l ih =>
    obtain ⟨n, rfl⟩ := Nat.exists_eq_add_one_of_ne_zero (Nat.ne_zero_of_lt hn)
    obtain ⟨hsample, hrest⟩ := sampleStep_script hs
    obtain ⟨hopen, hgo⟩ := hgo
    have hr' : (p ++ [b]).foldl (rxStep W) rxStart = (rxAdvance W r b).1 := by simp [hr, rxAdvance]
    unfold rxLoop
    dsimp only
    rw [hsample, if_neg fun h => (rxLoop_ends_iff hP hr b).1 h hopen]
    exact ih hr' hrest hgo hend (by simpa using hn)

/-- R192, R200: a receive takes the silence before the answer, and then what its loop takes. -/
theorem receive_script {cap lead : Nat} {l rest : List Bit} {a : Bit} {s : State} (hlead : lead < P.rxStartTimeout)
    (hs : s.env.samples = List.replicate lead false ++ true :: (l ++ a :: rest)) (hgo : GoesOn W cap (rxStart, 0) l)
    (hend : ¬ RxOpen cap (rxAdvance W (l.foldl (rxAdvance W) (rxStart, 0)) a)) (hn : l.length < P.rxMaxSamples cap) :
    (receive P cap s).1 = (rxAdvance W (l.foldl (rxAdvance W) (rxStart, 0)) a).1.out.take cap ∧
      (receive P cap s).2.env.samples = rest := by
  obtain ⟨hfound, hsamples⟩ := startWait_lead lead P.rxStartTimeout _ s hlead hs
  unfold receive
  dsimp only
  rw [if_pos hfound]
  exact rxLoop_script hP (p := []) (r := (rxStart, 0)) rfl hsamples hgo hend hn

end Loop

/-! ### The bit periods of an answer (R120) -/

/-- The silent samples at the end of a bit period. -/
def endSilence (b : Bit) : Nat := if b then 4 else 0

/-- The receiver's variables at the end of the period of bit `b`, whose edge in the middle was at sample `t`. -/
def atBoundary (b : Bit) (t : Nat) (out : List Bit) : RxVars × Nat :=
  ({ prev := !b, t := t + 3, last := some t, first := false, out := out }, endSilence b)

/-- The samples of the start bit after the first, which is the one that ends the start wait. -/
def startTail : List Bit := List.replicate 3 true ++ List.replicate 4 false

theorem answerSamples_eq (bits : List Bit) : answerSamples bits = true :: (startTail ++ bits.flatMap answerBit) := rfl

theorem answerBit_eq (b : Bit) : answerBit b = List.replicate 4 b ++ (!b) :: List.replicate 3 (!b) := rfl

theorem answerBits_length (bits : List Bit) : (bits.flatMap answerBit).length = 8 * bits.length := by
  induction bits with
  | nil => rfl
  | cons b bits ih => simp [answerBit, ih]; omega

section Periods

variable {W cap t : Nat} {b c : Bit} {out : List Bit} (hW : W = 5 ∨ W = 6)

/-- R200: the first recognised edge is the start bit's, in its middle, and stores nothing. -/
theorem foldl_startTail : startTail.foldl (rxAdvance W) (rxStart, 0) = atBoundary true 4 [] := by
  simp [startTail, List.replicate, rxAdvance, rxStep, rxStart, silence, atBoundary, endSilence]

theorem goesOn_startTail (hcap : 0 < cap) : GoesOn W cap (rxStart, 0) startTail := by
  simp [startTail, List.replicate, GoesOn, RxOpen, rxAdvance, rxStep, rxStart, silence, rxSilence, hcap]

include hW

/-- An edge between two bit periods is four samples after the last recognised one, inside the ignore window. -/
theorem foldl_firstHalf : (List.replicate 4 c).foldl (rxAdvance W) (atBoundary b t out) =
    ({ prev := c, t := t + 7, last := some t, first := false, out := out }, if c then 0 else endSilence b + 4) := by
  have hnear : ¬ W ≤ t + 3 + 1 - t := by omega
  cases b <;> cases c <;> simp [List.replicate, rxAdvance, rxStep, silence, atBoundary, endSilence, hnear]

theorem goesOn_firstHalf (hroom : out.length < cap) : GoesOn W cap (atBoundary b t out) (List.replicate 4 c) := by
  have hnear : ¬ W ≤ t + 3 + 1 - t := by omega
  cases b <;> cases c <;>
    simp [List.replicate, GoesOn, RxOpen, rxAdvance, rxStep, silence, rxSilence, atBoundary, endSilence, hroom, hnear]

/-- The edge in the middle of a bit period is eight samples after the last recognised one, and stores the bit. -/
theorem rxAdvance_middle : rxAdvance W ((List.replicate 4 c).foldl (rxAdvance W) (atBoundary b t out)) (!c) =
    ({ prev := !c, t := t + 8, last := some (t + 8), first := false, out := out ++ [c] }, if c then 1 else 0) := by
  have hfar : W ≤ t + 7 + 1 - t := by omega
  rw [foldl_firstHalf hW]
  cases c <;> simp [rxAdvance, rxStep, silence, hfar]

theorem foldl_answerBit : (answerBit c).foldl (rxAdvance W) (atBoundary b t out) = atBoundary c (t + 8) (out ++ [c]) := by
  rw [answerBit_eq, List.foldl_append, List.foldl_cons, rxAdvance_middle hW]
  cases c <;> simp [List.replicate, rxAdvance, rxStep, silence, atBoundary, endSilence]

theorem goesOn_answerBit (hroom : out.length + 1 < cap) : GoesOn W cap (atBoundary b t out) (answerBit c) := by
  rw [answerBit_eq, goesOn_append]
  refine ⟨goesOn_firstHalf hW (by omega), ?_⟩
  rw [GoesOn, rxAdvance_middle hW]
  cases c <;> simp [List.replicate, GoesOn, RxOpen, rxAdvance, rxStep, silence, rxSilence, hroom]

/-- After some bit periods everything they carry is decoded, and the last of them tells how many samples were silent. -/
theorem foldl_answerBits (bits : List Bit) : (bits.flatMap answerBit).foldl (rxAdvance W) (atBoundary b t out) =
    atBoundary (bits.getLast?.getD b) (t + 8 * bits.length) (out ++ bits) := by
  induction bits generalizing b t out with
  | nil => simp
  | cons c bits ih =>
    rw [List.flatMap_cons, List.foldl_append, foldl_answerBit hW, ih]
    simp [List.getLast?_cons, Nat.mul_add, Nat.add_assoc, Nat.add_comm]

theorem goesOn_answerBits {bits : List Bit} (hroom : out.length + bits.length < cap) :
    GoesOn W cap (atBoundary b t out) (bits.flatMap answerBit) := by
  induction bits generalizing b t out with
  | nil => trivial
  | cons c bits ih =>
    rw [List.length_cons] at hroom
    rw [List.flatMap_cons, goesOn_append, foldl_answerBit hW]
    exact ⟨goesOn_answerBit hW (by omega), ih (by simp; omega)⟩

/-- After the last bit an edge falls into the ignore window, and then none comes: the silence grows. -/
theorem foldl_silence (k : Nat) : ∃ u,
    (List.replicate (k + 1) false).foldl (rxAdvance W) (atBoundary b t out) =
      ({ prev := false, t := u, last := some t, first := false, out := out }, endSilence b + (k + 1)) := by
  induction k with
  | zero =>
    have hnear : ¬ W ≤ t + 3 + 1 - t := by omega
    refine ⟨t + 4, ?_⟩
    cases b <;> simp [rxAdvance, rxStep, silence, atBoundary, endSilence, hnear]
  | succ k ih =>
    obtain ⟨u, hu⟩ := ih
    refine ⟨u + 1, ?_⟩
    rw [List.replicate_succ', List.foldl_append, hu]
    simp [rxAdvance, rxStep, silence, Nat.add_assoc]

theorem goesOn_silence {k : Nat} (hk : endSilence b + k < rxSilence) (hroom : out.length < cap) :
    GoesOn W cap (atBoundary b t out) (List.replicate k false) := by
  induction k with
  | zero => trivial
  | succ k ih =>
    obtain ⟨u, hu⟩ := foldl_silence (b := b) (t := t) (out := out) hW k
    rw [List.replicate_succ', List.foldl_append, List.foldl_cons, List.foldl_nil] at hu
    rw [List.replicate_succ', goesOn_append]
    refine ⟨ih (by omega), ?_, trivial⟩
    rw [hu]
    exact ⟨hroom, hk⟩

/-- An answer after its first sample is decoded into its bits. -/
theorem foldl_answer (bits : List Bit) :
    (startTail ++ bits.flatMap answerBit).foldl (rxAdvance W) (rxStart, 0) =
      atBoundary (bits.getLast?.getD true) (4 + 8 * bits.length) bits := by
  rw [List.foldl_append, foldl_startTail, foldl_answerBits hW, List.nil_append]

theorem goesOn_answer {bits : List Bit} (hroom : bits.length < cap) :
    GoesOn W cap (rxStart, 0) (startTail ++ bits.flatMap answerBit) := by
  rw [goesOn_append, foldl_startTail]
  exact ⟨goesOn_startTail (by omega), goesOn_answerBits hW (by simpa using hroom)⟩

end Periods

/-! ### Whole answers -/

/-- The last bit of an answer, which is the start bit when it carries none. -/
def lastBit (bits : List Bit) : Bit := bits.getLast?.getD true

/-- What the loop takes of an answer shorter than the capacity, but for the sixteenth silent sample. -/
def shortAnswer (bits : List Bit) : List Bit :=
  (startTail ++ bits.flatMap answerBit) ++ List.replicate (15 - endSilence (lastBit bits)) false

/-- What the loop takes of an answer whose bit `c` fills the capacity, but for the edge in the middle of it. -/
def fullAnswer (before : List Bit) (c : Bit) : List Bit :=
  (startTail ++ before.flatMap answerBit) ++ List.replicate 4 c

theorem endSilence_le (b : Bit) : endSilence b ≤ 4 := by cases b <;> decide

theorem startTail_length : startTail.length = 7 := rfl

theorem shortAnswer_length_le (bits : List Bit) : (shortAnswer bits).length ≤ 22 + 8 * bits.length := by
  simp only [shortAnswer, List.length_append, startTail_length, answerBits_length, List.length_replicate]
  omega

theorem fullAnswer_length (before : List Bit) (c : Bit) : (fullAnswer before c).length = 11 + 8 * before.length := by
  simp only [fullAnswer, List.length_append, startTail_length, answerBits_length, List.length_replicate]
  omega

theorem answerSamples_short (bits rest : List Bit) : answerSamples bits ++ List.replicate 16 false ++ rest =
    true :: (shortAnswer bits ++ false :: (List.replicate (endSilence (lastBit bits)) false ++ rest)) := by
  have hsilence : List.replicate 16 false = List.replicate (15 - endSilence (lastBit bits)) false ++
      false :: List.replicate (endSilence (lastBit bits)) false := by cases lastBit bits <;> rfl
  rw [answerSamples_eq, hsilence]
  simp only [shortAnswer, List.append_assoc, List.cons_append]

theorem answerSamples_full (before after : List Bit) (c : Bit) : answerSamples (before ++ c :: after) =
    true :: (fullAnswer before c ++ (!c) :: (List.replicate 3 (!c) ++ after.flatMap answerBit)) := by
  rw [answerSamples_eq, List.flatMap_append, List.flatMap_cons, answerBit_eq]
  simp only [fullAnswer, List.append_assoc, List.cons_append]

section WholeAnswers

variable {W cap : Nat} (hW : W = 5 ∨ W = 6)

include hW

theorem goesOn_shortAnswer {bits : List Bit} (hroom : bits.length < cap) :
    GoesOn W cap (rxStart, 0) (shortAnswer bits) := by
  have hsilence := endSilence_le (lastBit bits)
  rw [shortAnswer, goesOn_append, foldl_answer hW]
  exact ⟨goesOn_answer hW hroom, goesOn_silence hW (by rw [← lastBit, rxSilence]; omega) hroom⟩

/-- R200: the next silent sample is the sixteenth, and all bits are decoded. -/
theorem rxAdvance_shortAnswer (bits : List Bit) :
    ∃ v, v.out = bits ∧ rxAdvance W ((shortAnswer bits).foldl (rxAdvance W) (rxStart, 0)) false = (v, rxSilence) := by
  have hsilence := endSilence_le (lastBit bits)
  obtain ⟨u, hu⟩ := foldl_silence (b := lastBit bits) (t := 4 + 8 * bits.length) (out := bits) hW
    (15 - endSilence (lastBit bits))
  rw [List.replicate_succ', List.foldl_append, List.foldl_cons, List.foldl_nil] at hu
  rw [shortAnswer, List.foldl_append, foldl_answer hW, ← lastBit, hu]
  exact ⟨_, rfl, by rw [rxSilence]; congr 1; omega⟩

theorem goesOn_fullAnswer (before : List Bit) (c : Bit) :
    GoesOn W (before.length + 1) (rxStart, 0) (fullAnswer before c) := by
  rw [fullAnswer, goesOn_append, foldl_answer hW]
  exact ⟨goesOn_answer hW (Nat.lt_succ_self _), goesOn_firstHalf hW (Nat.lt_succ_self _)⟩

/-- R200: the edge in the middle of `c` stores it. -/
theorem rxAdvance_fullAnswer (before : List Bit) (c : Bit) :
    (rxAdvance W ((fullAnswer before c).foldl (rxAdvance W) (rxStart, 0)) (!c)).1.out = before ++ [c] := by
  rw [fullAnswer, List.foldl_append, foldl_answer hW, rxAdvance_middle hW]

end WholeAnswers

/-! ### Receiving an answer -/

/-- The receiver with the reference decoder of R200. -/
def withReference (P : Params) : Params := { P with rxDecode := rxDecodeReference P.rxIgnore }

section Receiving

variable {P : Params} {cap lead : Nat} {bits rest : List Bit} {s : State} (hP : P.InRange)
  (hlead : lead < P.rxStartTimeout)

include hP hlead

/-- R200: an answer shorter than the capacity ends with the sixteenth silent sample. -/
theorem receive_short
    (hs : s.env.samples = List.replicate lead false ++ (answerSamples bits ++ List.replicate 16 false ++ rest))
    (hshort : bits.length < cap) :
    (receive (withReference P) cap s).1 = bits ∧
      (receive (withReference P) cap s).2.env.samples = List.replicate (endSilence (lastBit bits)) false ++ rest := by
  obtain ⟨v, hbits, hlast⟩ := rxAdvance_shortAnswer hP.rxIgnore bits
  have hend : ¬ RxOpen cap (rxAdvance P.rxIgnore ((shortAnswer bits).foldl (rxAdvance P.rxIgnore) (rxStart, 0)) false) := by
    rw [hlast]
    exact fun hopen => Nat.lt_irrefl _ hopen.2
  have hfuel : (shortAnswer bits).length < P.rxMaxSamples cap := by
    have hlength := shortAnswer_length_le bits
    have hmax := hP.rxMaxSamples cap
    omega
  rw [answerSamples_short] at hs
  obtain ⟨hreceived, hrest⟩ :=
    receive_script (P := withReference P) rfl hlead hs (goesOn_shortAnswer hP.rxIgnore hshort) hend hfuel
  rw [hlast, hbits, List.take_of_length_le hshort.le] at hreceived
  exact ⟨hreceived, hrest⟩

/-- R200: an answer that fills the capacity ends in the middle of the bit that does. -/
theorem receive_full {before after : List Bit} {c : Bit}
    (hs : s.env.samples = List.replicate lead false ++ (answerSamples (before ++ c :: after) ++ rest)) :
    (receive (withReference P) (before.length + 1) s).1 = before ++ [c] ∧
      (receive (withReference P) (before.length + 1) s).2.env.samples =
        s.env.samples.drop (lead + 8 * (before.length + 1) + 5) := by
  have hlast := rxAdvance_fullAnswer hP.rxIgnore before c
  have hend : ¬ RxOpen (before.length + 1)
      (rxAdvance P.rxIgnore ((fullAnswer before c).foldl (rxAdvance P.rxIgnore) (rxStart, 0)) (!c)) := by
    rw [RxOpen, hlast]
    simp
  have hfuel : (fullAnswer before c).length < P.rxMaxSamples (before.length + 1) := by
    have hmax := hP.rxMaxSamples (before.length + 1)
    rw [fullAnswer_length]
    omega
  rw [answerSamples_full, List.cons_append, List.append_assoc, List.cons_append] at hs
  obtain ⟨hreceived, hrest⟩ :=
    receive_script (P := withReference P) rfl hlead hs (goesOn_fullAnswer hP.rxIgnore before c) hend hfuel
  rw [hlast, List.take_of_length_le (by simp)] at hreceived
  have htaken : s.env.samples = (List.replicate lead false ++ true :: (fullAnswer before c ++ [!c])) ++
      (List.replicate 3 (!c) ++ after.flatMap answerBit ++ rest) := by simp [hs]
  refine ⟨hreceived, ?_⟩
  rw [hrest, htaken, List.drop_left']
  simp only [List.length_append, List.length_cons, List.length_nil, List.length_replicate, fullAnswer_length]
  omega

end Receiving

/-- A list at least as long as a capacity, cut at the bit that fills it. -/
theorem exists_eq_append_of_le_length {cap : Nat} {bits : List Bit} (hcap : 0 < cap) (hfull : cap ≤ bits.length) :
    ∃ before c after, bits = before ++ c :: after ∧ cap = before.length + 1 :=
  ⟨bits.take (cap - 1), bits[cap - 1], bits.drop (cap - 1 + 1), by simp, by simp; omega⟩

/-- Settles O32, by the two ways a receive of an answer ends. -/
theorem receiverDecodesWellFormedAnswers : Obligations.ReceiverDecodesWellFormedAnswers := by
  refine ⟨rfl, fun P cap lead bits rest s hP hcap hlead hs => ?_⟩
  rcases Nat.lt_or_ge bits.length cap with hshort | hfull
  · have hsamples : s.env.samples =
        List.replicate lead false ++ (answerSamples bits ++ List.replicate 16 false ++ rest) := by simpa using hs
    obtain ⟨hbits, hrest⟩ := receive_short hP hlead hsamples hshort
    refine ⟨hbits.trans (List.take_of_length_le hshort.le).symm, fun _ => hrest.trans ?_, fun hfull => by omega⟩
    rw [List.getLast?_cons, ← lastBit]
    cases lastBit bits <;> rfl
  · obtain ⟨before, c, after, rfl, rfl⟩ := exists_eq_append_of_le_length hcap hfull
    have hsamples : s.env.samples = List.replicate lead false ++
        (answerSamples (before ++ c :: after) ++ (List.replicate 16 false ++ rest)) := by simpa using hs
    obtain ⟨hbits, hrest⟩ := receive_full hP hlead hsamples
    refine ⟨hbits.trans ?_, fun hshort => by omega, fun _ => hrest⟩
    simp [List.take_append]

end Sys2Proof.Machine

/-! PROOFS. The family `10_state.md`: what holds of the block's state whatever it runs. First what each agent and each shared
operation leaves as it was, then what an instruction may do, said once (`Effect`), and what a step may do (`StepCase`); the
statements follow case by case. -/

namespace Sys2Proof.Machine

open Host (Outcome)

/-! ### Reset, the agents, the busy flag, a push -/

/-- Settles O55. -/
theorem resetValues : Obligations.ResetValues := by
  refine ⟨rfl, rfl, rfl, rfl, rfl, rfl, rfl, rfl, rfl, rfl, rfl, rfl, rfl, ?_, ?_, rfl, rfl⟩
  · exact Vector.toList_replicate
  · exact Vector.toList_replicate

/-- Settles O56, by the ring and the record right after reset. -/
theorem resetMeetsTheInvariant : Obligations.ResetMeetsTheInvariant where
  session := rfl
  window hopen := absurd hopen (by decide)
  pin := rfl
  noWait := rfl
  mark := rfl
  ring := Ring.inv_reset _ params_inRange.fifoMirrorCap
  acs := AnticolState.inv_zero

/-- R157: the handler, without its case split. -/
theorem irqHandler_eq (s : State) : irqHandler s = { s with irqFlag := s.irqFlag || s.hostIe } := by
  unfold irqHandler
  split
  · next hon =>
    have hflag : (s.irqFlag || s.hostIe) = true := by rw [hon, Bool.or_true]
    rw [hflag]
  · next hoff =>
    have hflag : (s.irqFlag || s.hostIe) = s.irqFlag := by rw [Bool.eq_false_of_not_eq_true hoff, Bool.or_false]
    rw [hflag]

/-- R163: the tick, without its case split; a countdown of 0 stays 0. -/
theorem msTickStep_eq (s : State) : msTickStep s =
    { s with
      countdown := BitVec.ofNat 16 (s.countdown.toNat - 1), timeoutFlag := s.timeoutFlag || s.countdown == 1 } := by
  unfold msTickStep
  split
  · next hzero => cases s; simp_all
  · next hne =>
    have hpos : s.countdown.toNat ≠ 0 := fun h => hne (BitVec.eq_of_toNat_eq h)
    have hdec : s.countdown - 1 = BitVec.ofNat 16 (s.countdown.toNat - 1) := by bv_omega
    rw [hdec]
    have hflag : (if s.countdown = 1 then true else s.timeoutFlag) = (s.timeoutFlag || s.countdown == 1) := by
      by_cases hone : s.countdown = 1
      · rw [if_pos hone, beq_iff_eq.2 hone, Bool.or_true]
      · rw [if_neg hone, beq_eq_false_iff_ne.2 hone, Bool.or_false]
    rw [hflag]

/-- Settles O58, by what the handler and the tick write. -/
theorem agentStepsWriteTheirFlags : Obligations.AgentStepsWriteTheirFlags := by
  refine ⟨fun s rest hinputs => ?_, fun s rest hinputs => ?_, fun s on rest hinputs => ?_⟩
  · simp only [step, hinputs, irqHandler_eq]
  · simp only [step, hinputs, msTickStep_eq]
  · simp only [step, hinputs]

/-- R23, R293: every arm of `exec` is an operation as issued. -/
theorem exec_issues (i : Instr) (s : State) : ∃ refused body, exec i s = .next (issue refused body s) := by
  cases i <;> exact ⟨_, _, rfl⟩

/-- Settles O7, as every instruction is issued. -/
theorem busyRefusesEveryInstruction : Obligations.BusyRefusesEveryInstruction := by
  intro i s hbusy
  obtain ⟨refused, body, hexec⟩ := exec_issues i s
  rw [RefusedIn, hexec, issue_busy hbusy]

theorem ringUnspecified_of_ok {P : Params} {s : State} (h : s.fifoOvf = false) : ringUnspecified P s = s := by
  simp [ringUnspecified, h]

/-- R31, R45, R160: a push into a full ring; the ring it leaves is any ring (U3). -/
theorem ringPush_full {P : Params} {s : State} (b : Byte) (hovf : s.fifoOvf = false)
    (hfull : s.ring.count = P.fifoMirrorCap) : ∃ r e, ringPush P b s =
      { s with
        fifoOvf := true, faults := if .fifoOverflow ∈ s.faults then s.faults else s.faults ++ [.fifoOverflow], ring := r,
        env := e, trace := s.trace ++ [.log "fifo mirror overflow"] } := by
  rw [ringPush, ringUnspecified_of_ok hovf, ringPushCore, if_pos hfull]
  exact ⟨_, _, rfl⟩

/-- R160: a push into a ring with room. -/
theorem ringPush_room {P : Params} {s : State} (b : Byte) (hovf : s.fifoOvf = false)
    (hroom : s.ring.count < P.fifoMirrorCap) : ∃ r : Ring, r.count = s.ring.count + 1 ∧
      ringPush P b s = { s with ring := r } := by
  rw [ringPush, ringUnspecified_of_ok hovf, ringPushCore, if_neg hroom.ne]
  exact ⟨_, rfl, ringUnspecified_of_ok hovf⟩

/-! ### The wait loop (R156) -/

/-- The ring with its overflow flag and marks is as it was. -/
structure SameRing (s t : State) : Prop where
  ring : t.ring = s.ring
  fifoOvf : t.fifoOvf = s.fifoOvf
  faults : t.faults = s.faults

theorem SameRing.trans {s t u : State} (h : SameRing s t) (k : SameRing t u) : SameRing s u :=
  ⟨k.ring.trans h.ring, k.fifoOvf.trans h.fifoOvf, k.faults.trans h.faults⟩

/-- R157: what a poll writes: the environment's answer, and the IRQ flag if an edge came and the host's enable is on. -/
theorem pollEdge_eq (s : State) :
    pollEdge s = { s with irqFlag := s.irqFlag || s.env.edge.1 && s.hostIe, env := s.env.edge.2 } := by
  unfold pollEdge
  dsimp only
  cases s.env.edge.1 with
  | false => simp
  | true => simp [irqHandler_eq]

theorem waitLoop_sameRing (n : Nat) (s : State) : SameRing s (waitLoop n s) := by
  induction n generalizing s with
  | zero =>
    unfold waitLoop
    split
    · exact ⟨rfl, rfl, rfl⟩
    · rw [pollEdge_eq]; exact ⟨rfl, rfl, rfl⟩
  | succ n ih =>
    unfold waitLoop
    dsimp only
    rw [pollEdge_eq, msTickStep_eq]
    dsimp only
    split
    · exact ⟨rfl, rfl, rfl⟩
    · split
      · exact ⟨rfl, rfl, rfl⟩
      · refine SameRing.trans ?_ (ih _)
        exact ⟨rfl, rfl, rfl⟩

/-- R156, R306: a wait ends with the IRQ flag or with its countdown run down: while milliseconds are left the timeout flag is
not set. -/
theorem waitLoop_ends (n : Nat) (s : State) (hcount : s.countdown.toNat = n) (htimeout : n ≠ 0 → s.timeoutFlag = false) :
    (waitLoop n s).irqFlag = true ∨ (waitLoop n s).countdown = 0 := by
  induction n generalizing s with
  | zero =>
    have hzero : s.countdown = 0 := BitVec.eq_of_toNat_eq hcount
    unfold waitLoop
    split
    · next hflag => exact .inl hflag
    · rw [pollEdge_eq]; exact .inr hzero
  | succ n ih =>
    have hrunning := htimeout (Nat.succ_ne_zero n)
    unfold waitLoop
    dsimp only
    rw [pollEdge_eq, msTickStep_eq]
    dsimp only
    split
    · next hflag => exact .inl hflag
    · rw [hrunning, Bool.or_false]
      split
      · next hflag => exact .inl hflag
      · have hbound := s.countdown.isLt
        refine ih _ ?_ fun hn => ?_
        · simp only [BitVec.toNat_ofNat]; omega
        · have hne : s.countdown ≠ 1 := fun h => by rw [h] at hcount; simp at hcount; omega
          exact (Bool.false_or _).trans (beq_eq_false_iff_ne.2 hne)

/-- R156: the block at the end of the loop of a wait. -/
def waited (ms : BitVec 16) (s : State) : State :=
  waitLoop ms.toNat { s with timeoutFlag := ms == 0, countdown := ms }

theorem waited_sameRing (ms : BitVec 16) (s : State) : SameRing s (waited ms s) := by
  obtain ⟨hring, hovf, hfaults⟩ := waitLoop_sameRing ms.toNat { s with timeoutFlag := ms == 0, countdown := ms }
  exact ⟨hring, hovf, hfaults⟩

/-- R306: where no edge came the countdown has run down. -/
theorem waited_countdown {ms : BitVec 16} {s : State} (h : (waited ms s).irqFlag = false) :
    (waited ms s).countdown = 0 := by
  have hends := waitLoop_ends ms.toNat { s with timeoutFlag := ms == 0, countdown := ms } rfl fun hms =>
    beq_eq_false_iff_ne.2 fun hzero => hms (by rw [hzero]; rfl)
  exact hends.resolve_left fun hflag => absurd (h.symm.trans hflag) (by decide)

/-! ### What every exchange keeps

A predicate that the transactions, the ring operations and the IRQ wait keep is kept by everything made of them. -/

/-- What keeps a predicate along everything but a wait. -/
structure KeptByRing (P : Params) (I : State → Prop) : Prop where
  txn : ∀ cmd out nin s, I s → I (txn cmd out nin s).2
  unspecified : ∀ s, I s → I (ringUnspecified P s)
  pushCore : ∀ b s, I s → I (ringPushCore P b s)
  popCore : ∀ s, I s → I (ringPopCore P s).2
  clearCore : ∀ s, I s → I { s with ring := { s.ring with rd := 0, wr := 0, count := 0 } }

/-- And along a wait. -/
structure KeptByExchange (P : Params) (I : State → Prop) : Prop extends KeptByRing P I where
  wait : ∀ ms s, I s → I (irqWait P ms s).2

section Kept

variable {P : Params} {I : State → Prop}

theorem KeptByRing.push (hI : KeptByRing P I) (b : Byte) {s : State} (h : I s) : I (ringPush P b s) :=
  hI.unspecified _ (hI.pushCore b _ (hI.unspecified _ h))

theorem KeptByRing.clear (hI : KeptByRing P I) {s : State} (h : I s) : I (ringClear P s) :=
  hI.unspecified _ (hI.clearCore _ h)

theorem KeptByRing.popN (hI : KeptByRing P I) (n : Nat) {s : State} (h : I s) : I (ringPopN P n s).2 := by
  induction n generalizing s with
  | zero => exact h
  | succ n ih =>
    have hpop := hI.popCore s h
    unfold ringPopN
    split
    · next t hq => rw [hq] at hpop; exact hpop
    · next b t hq => rw [hq] at hpop; exact ih hpop

theorem KeptByRing.popAll (hI : KeptByRing P I) {s : State} (h : I s) : I (ringPopAll P s).2 :=
  hI.unspecified _ (hI.popN _ (hI.unspecified _ h))

theorem KeptByRing.pushes (hI : KeptByRing P I) (l : List Byte) {s : State} (h : I s) :
    I (l.foldl (fun t b => ringPush P b t) s) := by
  induction l generalizing s with
  | nil => exact h
  | cons b l ih => exact ih (hI.push b h)

theorem KeptByRing.drain (hI : KeptByRing P I) {s : State} (h : I s) : I (drain P s) := by
  have hstatus : I (readReg P.regFifoStatus s).2 := hI.txn _ _ _ _ h
  unfold Machine.drain
  dsimp only
  split
  · exact hstatus
  · exact hI.pushes _ (hI.txn _ _ _ _ hstatus)

/-- R156: a wait keeps what holds after its loop, where no edge came, and at its reads, where one did. -/
theorem KeptByRing.irqWait (hI : KeptByRing P I) {ms : BitVec 16} {s : State}
    (hedge : (waited ms s).irqFlag = true → I { waited ms s with irqFlag := false, countdown := 0 })
    (hnone : (waited ms s).irqFlag = false → I (waited ms s)) : I (irqWait P ms s).2 := by
  unfold Machine.irqWait
  dsimp only
  rw [← waited]
  cases hflag : (waited ms s).irqFlag with
  | false => exact hnone hflag
  | true =>
    have hread : I (readReg P.regIrqStatus { waited ms s with irqFlag := false, countdown := 0 }).2 :=
      hI.txn _ _ _ _ (hedge hflag)
    simp only [if_true]
    split
    · exact hI.drain hread
    · exact hread

theorem KeptByExchange.fifoFeed (hI : KeptByExchange P I) (n : Nat) (rest : List Byte) {s : State} (h : I s) :
    I (fifoFeed P n rest s).2 := by
  induction n generalizing rest s with
  | zero => exact h
  | succ n ih =>
    have hwait := hI.wait P.tTxMs s h
    unfold Machine.fifoFeed
    dsimp only
    split
    · exact h
    · split
      · exact ih _ (hI.txn _ _ _ _ hwait)
      · exact hwait

theorem KeptByExchange.fifoWrite (hI : KeptByExchange P I) (data : List Byte) {s : State} (h : I s) :
    I (fifoWrite P data s).2 := by
  unfold Machine.fifoWrite
  split
  · exact h
  · exact hI.fifoFeed _ _ (hI.txn _ _ _ _ h)

/-- R162: the branches of a cause but for `FIFO_HIGH`, which a round more follows where one is left. -/
theorem KeptByExchange.receiveLoop (hI : KeptByExchange P I) (kind : ExchKind) (bb n : Nat) {s : State} (h : I s) :
    I (receiveLoop P kind bb n s).2 := by
  induction n generalizing s with
  | zero =>
    have hwait := hI.wait P.tRxMs s h
    unfold Machine.receiveLoop
    dsimp only
    cases (Machine.irqWait P P.tRxMs s).1 with
    | rxComplete => exact hI.popAll hwait
    | collision => exact hI.popAll (hI.txn _ _ _ _ hwait)
    | timeout | txComplete | fifoHigh | fifoLow | protocolError | fieldChange => exact hwait
  | succ n ih =>
    have hwait := hI.wait P.tRxMs s h
    unfold Machine.receiveLoop
    dsimp only
    cases (Machine.irqWait P P.tRxMs s).1 with
    | fifoHigh => exact ih hwait
    | rxComplete => exact hI.popAll hwait
    | collision => exact hI.popAll (hI.txn _ _ _ _ hwait)
    | timeout | txComplete | fifoLow | protocolError | fieldChange => exact hwait

theorem KeptByExchange.exchangeSetup (hI : KeptByExchange P I) (kind : ExchKind) (tx : List Bit) {s : State} (h : I s) :
    I (exchangeSetup P kind tx s) :=
  hI.txn _ _ _ _ (hI.txn _ _ _ _ (hI.clear (hI.txn _ _ _ _ (hI.txn _ _ _ _ h))))

theorem KeptByExchange.exchangeSeq (hI : KeptByExchange P I) (kind : ExchKind) (tx : List Bit) (wantRx : Bool) {s : State}
    (h : I s) : I (exchangeSeq P kind tx wantRx s).2 := by
  have hfifo := hI.fifoWrite (packLsb tx) (hI.exchangeSetup kind tx h)
  have hwait := hI.wait P.tTxMs _ hfifo
  unfold Machine.exchangeSeq
  dsimp only
  split
  · exact hfifo
  · split
    · split
      · exact hI.receiveLoop _ _ _ hwait
      · exact hwait
    · exact hwait

theorem KeptByExchange.anticolRounds (hI : KeptByExchange P I) (lvl n : Nat) (st : AnticolState) {s : State} (h : I s) :
    I (anticolRounds P lvl n st s).2.2 := by
  induction n generalizing st s with
  | zero => exact h
  | succ n ih =>
    have hround : I (anticolExchange P lvl st s).2 := hI.exchangeSeq _ _ _ h
    unfold Machine.anticolRounds
    split
    · dsimp only
      split
      · exact hround
      · exact ih _ hround
    · exact h

theorem KeptByExchange.searchLevels (hI : KeptByExchange P I) (n lvl : Nat) (st : AnticolState) {s : State} (h : I s) :
    I (searchLevels P n lvl st s).2.2 := by
  induction n generalizing lvl st s with
  | zero => exact h
  | succ n ih =>
    have hrounds := hI.anticolRounds lvl levelBits st h
    unfold Machine.searchLevels
    split
    · next e st1 s1 hq => rw [hq] at hrounds; exact hrounds
    · next st1 s1 hq =>
      rw [hq] at hrounds
      have hselect : I (selectExchange P lvl st1 s1).2 := hI.exchangeSeq _ _ _ hrounds
      dsimp only
      split
      · exact hselect
      · split
        · exact ih _ _ hselect
        · exact hselect

end Kept

/-! ### The marks stay (R31, R45) -/

/-- The overflow flag and the fault marks that are set stay set. -/
structure MarksStay (s t : State) : Prop where
  fifoOvf : s.fifoOvf = true → t.fifoOvf = true
  faults : ∀ f ∈ s.faults, f ∈ t.faults

theorem MarksStay.trans {s t u : State} (h : MarksStay s t) (k : MarksStay t u) : MarksStay s u :=
  ⟨fun hs => k.fifoOvf (h.fifoOvf hs), fun f hf => k.faults f (h.faults f hf)⟩

/-- An operation that does not write them. -/
theorem MarksStay.of_eq {s t : State} (ho : t.fifoOvf = s.fifoOvf) (hf : t.faults = s.faults) : MarksStay s t :=
  ⟨fun h => ho.trans h, fun _ h => hf ▸ h⟩

theorem SameRing.marksStay {s t : State} (h : SameRing s t) : MarksStay s t := .of_eq h.fifoOvf h.faults

/-- R45, R160: there is one mark, which an overflow leaves in the set; nothing else writes the marks. -/
theorem marksStay_keptByRing (P : Params) (s : State) : KeptByRing P (MarksStay s) where
  txn cmd out nin t h := h.trans (by rw [txn_eq]; exact .of_eq rfl rfl)
  unspecified t h := by
    unfold ringUnspecified
    split
    · exact h.trans (.of_eq rfl rfl)
    · exact h
  pushCore b t h := by
    unfold ringPushCore
    split
    · refine h.trans ⟨fun _ => rfl, fun f _ => ?_⟩
      by_cases hmarked : Fault.fifoOverflow ∈ t.faults
      · simp [State.emit, hmarked]
      · simp [State.emit, hmarked]
    · exact h.trans (.of_eq rfl rfl)
  popCore t h := by
    unfold ringPopCore
    split
    · exact h
    · exact h.trans (.of_eq rfl rfl)
  clearCore t h := h.trans (.of_eq rfl rfl)

theorem marksStay_keptByExchange (P : Params) (s : State) : KeptByExchange P (MarksStay s) where
  toKeptByRing := marksStay_keptByRing P s
  wait ms t h :=
    have hstay := h.trans (waited_sameRing ms t).marksStay
    (marksStay_keptByRing P s).irqWait (fun _ => hstay.trans (.of_eq rfl rfl)) fun _ => hstay

/-! ### The ring and the countdown (R30, R45, R306) -/

theorem RingOk.of_sameRing {P : Params} {s t : State} (h : RingOk P s) (k : SameRing s t) : RingOk P t := by
  refine ⟨?_, ?_⟩
  · rw [k.ring, k.fifoOvf]; exact h.ring
  · rw [k.faults, k.fifoOvf]; exact h.mark

/-- What the block keeps of its ring and its waits between operations: the ring and its mark, and no countdown. -/
structure WaitOk (P : Params) (s : State) : Prop extends RingOk P s where
  noWait : s.countdown = 0

theorem waitOk_keptByRing {P : Params} (hP : P.InRange) : KeptByRing P (WaitOk P) where
  txn cmd out nin s h := by rw [txn_eq]; exact ⟨⟨h.ring, h.mark⟩, h.noWait⟩
  unspecified s h := by
    refine ⟨ringUnspecified_ok hP h.toRingOk, ?_⟩
    unfold ringUnspecified
    split
    · exact h.noWait
    · exact h.noWait
  pushCore b s h := by
    refine ⟨ringPushCore_ok b h.toRingOk, ?_⟩
    unfold ringPushCore
    split
    · exact h.noWait
    · exact h.noWait
  popCore s h := by
    refine ⟨ringPopCore_ok h.toRingOk, ?_⟩
    unfold ringPopCore
    split
    · exact h.noWait
    · exact h.noWait
  clearCore s h := ⟨⟨h.ring.clear, h.mark⟩, h.noWait⟩

/-- A wait starts a countdown, and ends it. -/
theorem waitOk_keptByExchange {P : Params} (hP : P.InRange) : KeptByExchange P (WaitOk P) where
  toKeptByRing := waitOk_keptByRing hP
  wait ms s h :=
    have hring := h.toRingOk.of_sameRing (waited_sameRing ms s)
    (waitOk_keptByRing hP).irqWait (fun _ => ⟨⟨hring.ring, hring.mark⟩, rfl⟩) fun hnone =>
      ⟨hring, waited_countdown hnone⟩

/-! ### What a run may do to the block -/

/-- Nothing differs but what an exchange may write and the anti-collision record. -/
def SearchWrites (s t : State) : Prop :=
  t = { s with irqFlag := t.irqFlag, timeoutFlag := t.timeoutFlag, countdown := t.countdown, ring := t.ring,
               fifoOvf := t.fifoOvf, faults := t.faults, acs := t.acs, trace := t.trace, env := t.env }

theorem SearchWrites.trans {s t u : State} (h : SearchWrites s t) (k : SearchWrites t u) : SearchWrites s u := by
  unfold SearchWrites at *
  rw [k, h]

theorem ExchangeWrites.acs {s t : State} (h : ExchangeWrites s t) : t.acs = s.acs := by rw [h]

theorem ExchangeWrites.searchWrites {s t : State} (h : ExchangeWrites s t) : SearchWrites s t := by
  unfold SearchWrites
  rw [h]

/-- A run of exchanges, whatever it makes of the record: what it may write, and what it keeps. -/
structure WaitRuns (s t : State) : Prop where
  writes : SearchWrites s t
  marks : MarksStay s t
  waitOk : WaitOk params s → WaitOk params t

/-- A run of exchanges that leaves the record as it was. -/
structure ExchangeRuns (s t : State) : Prop extends WaitRuns s t where
  acs : t.acs = s.acs

/-- A run of exchanges that keeps the record's invariant. -/
structure SearchRuns (s t : State) : Prop extends WaitRuns s t where
  acsInv : s.acs.Inv → t.acs.Inv

theorem WaitRuns.trans {s t u : State} (h : WaitRuns s t) (k : WaitRuns t u) : WaitRuns s u :=
  ⟨h.writes.trans k.writes, h.marks.trans k.marks, fun hs => k.waitOk (h.waitOk hs)⟩

theorem ExchangeRuns.trans {s t u : State} (h : ExchangeRuns s t) (k : ExchangeRuns t u) : ExchangeRuns s u :=
  ⟨h.toWaitRuns.trans k.toWaitRuns, k.acs.trans h.acs⟩

theorem SearchRuns.trans {s t u : State} (h : SearchRuns s t) (k : SearchRuns t u) : SearchRuns s u :=
  ⟨h.toWaitRuns.trans k.toWaitRuns, fun hs => k.acsInv (h.acsInv hs)⟩

theorem ExchangeRuns.searchRuns {s t : State} (h : ExchangeRuns s t) : SearchRuns s t :=
  ⟨h.toWaitRuns, fun hs => h.acs ▸ hs⟩

/-- What is made of transactions, ring operations and waits is a run of exchanges. -/
theorem ExchangeRuns.of_kept {s t : State} (hw : ExchangeWrites s t)
    (hk : ∀ I, KeptByExchange params I → I s → I t) : ExchangeRuns s t :=
  ⟨⟨hw.searchWrites, hk _ (marksStay_keptByExchange params s) (.of_eq rfl rfl),
    hk _ (waitOk_keptByExchange params_inRange)⟩, hw.acs⟩

/-- The record written, and nothing else. -/
theorem SearchRuns.setAcs {s : State} {st : AnticolState} (h : s.acs.Inv → st.Inv) : SearchRuns s { s with acs := st } :=
  ⟨⟨rfl, .of_eq rfl rfl, fun hs => ⟨⟨hs.ring, hs.mark⟩, hs.noWait⟩⟩, h⟩

theorem fifoWrite_runs (data : List Byte) (s : State) : ExchangeRuns s (fifoWrite params data s).2 :=
  .of_kept (fifoWrite_writes _ _ _) fun _ hI h => hI.fifoWrite data h

theorem irqWait_runs (ms : BitVec 16) (s : State) : ExchangeRuns s (irqWait params ms s).2 :=
  .of_kept (irqWait_writes _ _ _) fun _ hI h => hI.wait ms s h

theorem exchangeSeq_runs (kind : ExchKind) (tx : List Bit) (wantRx : Bool) (s : State) :
    ExchangeRuns s (exchangeSeq params kind tx wantRx s).2 :=
  .of_kept (exchangeSeq_writes _ _ _ _ _) fun _ hI h => hI.exchangeSeq kind tx wantRx h

theorem reqa_runs (cmd : BitVec 7) (s : State) : ExchangeRuns s (reqa params cmd s).2 := exchangeSeq_runs _ _ _ _

theorem halt_runs (s : State) : ExchangeRuns s (halt params s).2 := exchangeSeq_runs _ _ _ _

theorem doAnticol_runs (st : AnticolState) (s : State) : ExchangeRuns s (doAnticol params st s).2.2 :=
  .of_kept (doAnticol_writes _ _ _) fun _ hI h => hI.searchLevels _ _ _ h

/-- R272: the record that `SELECT` searches with is its own. -/
theorem selectExact_runs (uid : List Byte) (s : State) : ExchangeRuns s (selectExact params uid s).2 := by
  have hreqa := reqa_runs params.rfWupa s
  have hsearch := hreqa.trans (doAnticol_runs (selectRecord uid) _)
  unfold selectExact
  dsimp only
  split
  · exact hreqa
  · split
    · exact hsearch
    · exact hsearch

theorem doAnticolSingleton_runs (s : State) : SearchRuns s (doAnticolSingleton params s).2 :=
  have hsearch := doAnticol_runs s.acs s
  hsearch.searchRuns.trans (.setAcs fun h => doAnticol_inv (hsearch.acs ▸ h) s)

theorem selectFirst_runs (cmd : BitVec 7) (s : State) : SearchRuns s (selectFirst params cmd s).2 := by
  have hzero : SearchRuns s { s with acs := .zero } := .setAcs fun _ => AnticolState.inv_zero
  have hreqa := hzero.trans (reqa_runs cmd _).searchRuns
  unfold selectFirst
  dsimp only
  split
  · exact hreqa
  · exact hreqa.trans (doAnticolSingleton_runs _)

theorem selectNext_runs (cmd : BitVec 7) (s : State) : SearchRuns s (selectNext params cmd s).2 := by
  have hreqa := reqa_runs cmd s
  unfold selectNext
  split
  · exact .setAcs id
  · next p hp =>
    dsimp only
    split
    · exact hreqa.searchRuns
    · rw [← hreqa.acs] at hp
      exact (hreqa.searchRuns.trans (.setAcs fun h => takeBranch_inv h hp)).trans (doAnticolSingleton_runs _)

/-! ### The fields that waits and exchanges write (R38) -/

/-- What waits and exchanges write, but for the trace and the environment's answers, is as it was. -/
structure WaitFieldsKept (s t : State) : Prop extends SameRing s t where
  irqFlag : t.irqFlag = s.irqFlag
  timeoutFlag : t.timeoutFlag = s.timeoutFlag
  countdown : t.countdown = s.countdown

/-! ### Direct mode (R25, R181, R183, R185) -/

/-- What `DM_ENABLE` and `DM_DISABLE` may write. -/
def DirectWrites (s t : State) : Prop :=
  t = { s with cs := t.cs, sessionOpen := t.sessionOpen, rxPinMode := t.rxPinMode, dmEnabled := t.dmEnabled,
               dmCfg := t.dmCfg, trace := t.trace }

/-- R25, R181, R183: the session, direct mode, the chip select and the RX pin agree. -/
structure SessionOk (s : State) : Prop where
  session : s.sessionOpen = s.dmEnabled
  window : s.sessionOpen = true → s.cs = true
  pin : s.rxPinMode = if s.dmEnabled then .gpioInput else .spiFunction

theorem enableDirect_writes (P : Params) (mode : Byte) (s : State) : DirectWrites s (enableDirect P mode s) := by
  unfold enableDirect
  simp only [writeRegs_eq]
  split
  · rfl
  · rfl

theorem enableDirect_sessionOk (P : Params) (mode : Byte) {s : State} (h : SessionOk s) :
    SessionOk (enableDirect P mode s) := by
  unfold enableDirect
  simp only [writeRegs_eq]
  split
  · exact h
  · exact ⟨rfl, fun _ => rfl, rfl⟩

theorem disableDirect_writes (P : Params) (s : State) : DirectWrites s (disableDirect P s) := by
  unfold disableDirect
  simp only [writeRegs_eq, directCmd_eq]
  split
  · rfl
  · rfl

theorem disableDirect_sessionOk (P : Params) {s : State} (h : SessionOk s) : SessionOk (disableDirect P s) := by
  unfold disableDirect
  simp only [writeRegs_eq, directCmd_eq]
  split
  · exact ⟨rfl, fun hopen => absurd hopen (by simp [State.emit]), rfl⟩
  · exact h

theorem DirectWrites.hostIe {s t : State} (h : DirectWrites s t) : t.hostIe = s.hostIe := by rw [h]

theorem DirectWrites.acs {s t : State} (h : DirectWrites s t) : t.acs = s.acs := by rw [h]

theorem DirectWrites.waitFieldsKept {s t : State} (h : DirectWrites s t) : WaitFieldsKept s t := by
  rw [h]
  exact ⟨⟨rfl, rfl, rfl⟩, rfl, rfl, rfl⟩

/-- R14, R15: nothing differs but the trace and the environment's answers. -/
def TalksOnly (s t : State) : Prop := t = { s with trace := t.trace, env := t.env }

theorem TalksOnly.waitFieldsKept {s t : State} (h : TalksOnly s t) : WaitFieldsKept s t := by
  rw [h]
  exact ⟨⟨rfl, rfl, rfl⟩, rfl, rfl, rfl⟩

theorem txn_talksOnly (cmd : Byte) (out : List Byte) (nin : Nat) (s : State) : TalksOnly s (txn cmd out nin s).2 := by
  rw [txn_eq]; rfl

/-- R190: the enable is back at its value on entry. -/
theorem transceive_talksOnly (P : Params) (tx : List Bit) (cap : Nat) (s : State) :
    TalksOnly s (transceive P tx cap s).2 := by
  unfold transceive
  dsimp only
  split
  · rfl
  · obtain ⟨l, e, -, -, hreceive⟩ :=
      receive_samplesOnly P cap (modulate P tx (({ s with hostIe := false } : State).emit [.intMask true]))
    rw [hreceive]
    rfl

/-! ### What an instruction may do -/

/-- The host operations that never wait: chip select, registers, direct mode, UTL. -/
def quickOps : List HostOp :=
  [.csAssert, .csDeassert, .writeReg, .readReg, .writeCont, .readCont, .directCmd, .dmEnable, .dmDisable, .dmTransceive,
   .setParity, .checkParity, .appendCrc, .checkCrc]

/-- The instruction is none of these. -/
def mayWait (i : Instr) : Bool := (hostOp i).all (· ∉ quickOps)

/-- R255, R265, R268: the instruction searches with the singleton record. -/
def Searches (i : Instr) : Prop := i = .doAnticol ∨ (∃ cmd, i = .selectFirst cmd) ∨ ∃ cmd, i = .selectNext cmd

/-- What an instruction that is not refused makes of the block between its start in `s` and its end. -/
inductive Effect (s : State) : Instr → State → Prop
  /-- A transaction, a transceive, a sequence or a UTL operation. -/
  | talk {i : Instr} {t : State} (h : TalksOnly s t) : Effect s i t
  | csAssert (tr : List Event) : Effect s .csAssert { s with cs := true, trace := tr }
  | csDeassert (tr : List Event) (hclosed : s.sessionOpen = false) : Effect s .csDeassert { s with cs := false, trace := tr }
  | dmEnable (mode : Byte) : Effect s (.dmEnable mode) (enableDirect params mode s)
  | dmDisable : Effect s .dmDisable (disableDirect params s)
  /-- An IRQ wait, a FIFO write, an operation or a frame that only exchanges. -/
  | exchange {i : Instr} {t : State} (hwait : mayWait i = true) (h : ExchangeRuns s t) : Effect s i t
  | search {i : Instr} {t : State} (hwait : mayWait i = true) (hsearch : Searches i) (h : SearchRuns s t) : Effect s i t

/-- R292, R293: an instruction issued in `s` is refused, or it runs and ends. -/
inductive ExecCase (i : Instr) (s : State) : State → Prop
  | refused (st : Status) : ExecCase i s (s.respond (.status st []))
  | ran {u : State} (r : Response) (h : Effect s.running i u) : ExecCase i s (u.ended r)

theorem issue_execCase {i : Instr} {s : State} {refused : Option Status} {body : State → Response × State}
    (h : refused = none → Effect s.running i (body s.running).2) : ExecCase i s (issue refused body s) := by
  cases hbusy : s.busy with
  | true => rw [issue_busy hbusy]; exact .refused .busy
  | false =>
    cases refused with
    | some st => rw [issue_refused hbusy]; exact .refused st
    | none => rw [issue_runs hbusy]; exact .ran _ (h rfl)

/-- R140: an operation that its guard lets through finds no session open. -/
theorem sessionOpen_of_seqGuard {s : State} {ok : Bool} (h : refusal (seqGuard s) ok = none) : s.sessionOpen = false := by
  cases hopen : s.sessionOpen with
  | false => rfl
  | true => rw [seqGuard_open hopen] at h; cases h

/-- Every arm of `exec`, by what its body is made of. -/
theorem exec_execCase (i : Instr) (s : State) : ∃ t, exec i s = .next t ∧ ExecCase i s t := by
  cases i with
  | csAssert =>
    refine ⟨_, rfl, issue_execCase fun _ => ?_⟩
    change Effect _ _ (if s.cs then s.running else csLow s.running)
    split
    · exact .talk rfl
    · exact .csAssert _
  | csDeassert =>
    refine ⟨_, rfl, issue_execCase fun hguard => ?_⟩
    change Effect _ _ (if s.cs then csHigh s.running else s.running)
    split
    · exact .csDeassert _ (sessionOpen_of_seqGuard hguard)
    · exact .talk rfl
  | writeReg | readReg | writeCont | readCont | directCmd | spiWriteSingle | spiWriteCont | spiReadSingle | spiReadCont
  | spiDirectCmd | cmdSoftInit | cmdResetFifo | cmdTxNocrc | cmdTxCrc =>
    exact ⟨_, rfl, issue_execCase fun _ => .talk (txn_talksOnly _ _ _ _)⟩
  | dmTransceive => exact ⟨_, rfl, issue_execCase fun _ => .talk (transceive_talksOnly _ _ _ _)⟩
  | setParity | checkParity | appendCrc | checkCrc | seqX | seqY | seqZ =>
    exact ⟨_, rfl, issue_execCase fun _ => .talk rfl⟩
  | dmEnable mode => exact ⟨_, rfl, issue_execCase fun _ => .dmEnable mode⟩
  | dmDisable => exact ⟨_, rfl, issue_execCase fun _ => .dmDisable⟩
  | fifoWrite n data => exact ⟨_, rfl, issue_execCase fun _ => .exchange rfl (fifoWrite_runs data _)⟩
  | irqWait ms => exact ⟨_, rfl, issue_execCase fun _ => .exchange rfl (irqWait_runs ms _)⟩
  | reqa cmd => exact ⟨_, rfl, issue_execCase fun _ => .exchange rfl (reqa_runs _ _)⟩
  | select uidLen uid => exact ⟨_, rfl, issue_execCase fun _ => .exchange rfl (selectExact_runs uid _)⟩
  | halt => exact ⟨_, rfl, issue_execCase fun _ => .exchange rfl (halt_runs _)⟩
  | rfReqa | rfWupa | rfAnticollisionCl1 | rfAnticollisionCl2 | rfAnticollisionCl3 | rfSelectCl1 | rfSelectCl2
  | rfSelectCl3 | rfHlta => exact ⟨_, rfl, issue_execCase fun _ => .exchange rfl (exchangeSeq_runs _ _ _ _)⟩
  | doAnticol => exact ⟨_, rfl, issue_execCase fun _ => .search rfl (.inl rfl) (doAnticolSingleton_runs _)⟩
  | selectFirst cmd =>
    exact ⟨_, rfl, issue_execCase fun _ => .search rfl (.inr (.inl ⟨cmd, rfl⟩)) (selectFirst_runs _ _)⟩
  | selectNext cmd =>
    exact ⟨_, rfl, issue_execCase fun _ => .search rfl (.inr (.inr ⟨cmd, rfl⟩)) (selectNext_runs _ _)⟩

theorem execCase_of_exec {i : Instr} {s t : State} (h : exec i s = .next t) : ExecCase i s t := by
  obtain ⟨u, hu, hcase⟩ := exec_execCase i s
  obtain rfl := Outcome.next.inj (hu.symm.trans h)
  exact hcase

/-! ### What a step may do -/

/-- R8, R22: the block waits, an operation is refused, an instruction runs, or an agent acts. -/
inductive StepCase (s : State) : State → Prop
  | waits : StepCase s s
  | refused (rest : List Input) (st : Status) : StepCase s (({ s with inputs := rest } : State).respond (.status st []))
  | ran {i : Instr} (rest : List Input) {u : State} (r : Response)
      (h : Effect ({ s with inputs := rest } : State).running i u) : StepCase s (u.ended r)
  | irqEdge (rest : List Input) : StepCase s (irqHandler { s with inputs := rest })
  | msTick (rest : List Input) : StepCase s (msTickStep { s with inputs := rest })
  | hostIe (rest : List Input) (on : Bool) : StepCase s { s with inputs := rest, hostIe := on }

/-- R293: an operation with a refusal of its own answers with a status and changes nothing else. -/
theorem issue_some (st : Status) (body : State → Response × State) (s : State) :
    ∃ st', issue (some st) body s = s.respond (.status st' []) := by
  cases hbusy : s.busy with
  | true => exact ⟨_, issue_busy hbusy⟩
  | false => exact ⟨_, issue_refused hbusy⟩

theorem runWord_stepCase {w : CodeWord} {rest : List Input} {s t : State}
    (h : runWord w { s with inputs := rest } = .next t) : StepCase s t := by
  unfold runWord at h
  split at h
  · cases execCase_of_exec h with
    | refused st => exact .refused rest st
    | ran r heffect => exact .ran rest r heffect
  · obtain ⟨st, hst⟩ := issue_some .illegalOp (fun t => (answer (.ok []), t)) { s with inputs := rest }
    obtain rfl := Outcome.next.inj h
    rw [issueIllegal, hst]
    exact .refused rest st
  · next op _ =>
    obtain ⟨st, hst⟩ : ∃ st, refusal (guardOf op { s with inputs := rest }) false = some st := by
      cases guardOf op { s with inputs := rest } <;> exact ⟨_, rfl⟩
    obtain ⟨st', hst'⟩ := issue_some st (fun t => (answer (.ok []), t)) { s with inputs := rest }
    obtain rfl := Outcome.next.inj h
    rw [issueMalformed, hst, hst']
    exact .refused rest st'
  · cases h
  · cases h
  · cases h

theorem stepCase_of_step {s t : State} (h : step s = .next t) : StepCase s t := by
  unfold step at h
  split at h
  · obtain rfl := Outcome.next.inj h
    exact .waits
  · exact runWord_stepCase h
  · obtain rfl := Outcome.next.inj h
    exact .irqEdge _
  · obtain rfl := Outcome.next.inj h
    exact .msTick _
  · obtain rfl := Outcome.next.inj h
    exact .hostIe _ _

/-! ### The invariant -/

theorem State.inv_iff (s : State) : s.Inv ↔ SessionOk s ∧ WaitOk params s ∧ s.acs.Inv :=
  ⟨fun h => ⟨⟨h.session, h.window, h.pin⟩, ⟨⟨h.ring, h.mark⟩, h.noWait⟩, h.acs⟩,
   fun ⟨hd, hw, ha⟩ => ⟨hd.session, hd.window, hd.pin, hw.noWait, hw.mark, hw.ring, ha⟩⟩

/-- The invariant does not read the trace, the environment, the inputs, the responses, the flags or the host's enable. -/
theorem State.Inv.of_frame {s t : State} (h : s.Inv) (ht : t = { s with
    busy := t.busy, irqFlag := t.irqFlag, timeoutFlag := t.timeoutFlag, hostIe := t.hostIe, trace := t.trace,
    responses := t.responses, inputs := t.inputs, env := t.env }) : t.Inv := by
  rw [ht]
  exact ⟨h.session, h.window, h.pin, h.noWait, h.mark, h.ring, h.acs⟩

theorem SearchWrites.sessionOk {s t : State} (h : SearchWrites s t) (hs : SessionOk s) : SessionOk t := by
  rw [h]
  exact ⟨hs.session, hs.window, hs.pin⟩

theorem DirectWrites.waitOk {P : Params} {s t : State} (h : DirectWrites s t) (hs : WaitOk P s) : WaitOk P t := by
  rw [h]
  exact ⟨⟨hs.ring, hs.mark⟩, hs.noWait⟩

/-- An operation of direct mode keeps the invariant when it keeps the session's part of it. -/
theorem State.Inv.of_directWrites {s t : State} (hs : s.Inv) (h : DirectWrites s t)
    (hsession : SessionOk s → SessionOk t) : t.Inv := by
  obtain ⟨hd, hw, ha⟩ := s.inv_iff.1 hs
  exact t.inv_iff.2 ⟨hsession hd, h.waitOk hw, h.acs ▸ ha⟩

theorem State.Inv.of_searchRuns {s t : State} (hs : s.Inv) (h : SearchRuns s t) : t.Inv := by
  obtain ⟨hd, hw, ha⟩ := s.inv_iff.1 hs
  exact t.inv_iff.2 ⟨h.writes.sessionOk hd, h.waitOk hw, h.acsInv ha⟩

/-- What an instruction does keeps the invariant. -/
theorem Effect.inv {i : Instr} {s t : State} (h : Effect s i t) (hs : s.Inv) : t.Inv := by
  cases h with
  | talk h => exact hs.of_frame (by rw [h])
  | csAssert tr => exact ⟨hs.session, fun _ => rfl, hs.pin, hs.noWait, hs.mark, hs.ring, hs.acs⟩
  | csDeassert tr hclosed =>
    exact ⟨hs.session, fun hopen => absurd (hclosed.symm.trans hopen) (by decide), hs.pin, hs.noWait, hs.mark, hs.ring,
      hs.acs⟩
  | dmEnable mode => exact hs.of_directWrites (enableDirect_writes _ _ _) (enableDirect_sessionOk _ _)
  | dmDisable => exact hs.of_directWrites (disableDirect_writes _ _) (disableDirect_sessionOk _)
  | exchange _ h => exact hs.of_searchRuns h.searchRuns
  | search _ _ h => exact hs.of_searchRuns h

/-- Settles O57, by the cases of a step; the countdown that a tick would run down is 0. -/
theorem stepKeepsTheInvariant : Obligations.StepKeepsTheInvariant := by
  intro s t hs h
  cases stepCase_of_step h with
  | waits => exact hs
  | refused rest st => exact hs.of_frame rfl
  | ran rest r heffect =>
    have hstart : (({ s with inputs := rest } : State).running).Inv := hs.of_frame rfl
    exact (heffect.inv hstart).of_frame rfl
  | irqEdge rest => rw [irqHandler_eq]; exact hs.of_frame rfl
  | msTick rest =>
    have hstays : msTickStep { s with inputs := rest } = { s with inputs := rest } := if_pos hs.noWait
    rw [hstays]
    exact hs.of_frame rfl
  | hostIe rest on => exact hs.of_frame rfl

/-! ### The marks, the session, the record -/

/-- What an instruction does leaves the marks that are set. -/
theorem Effect.marksStay {i : Instr} {s t : State} (h : Effect s i t) : MarksStay s t := by
  cases h with
  | talk h => exact h.waitFieldsKept.marksStay
  | csAssert tr => exact .of_eq rfl rfl
  | csDeassert tr _ => exact .of_eq rfl rfl
  | dmEnable mode => exact (enableDirect_writes _ _ _).waitFieldsKept.marksStay
  | dmDisable => exact (disableDirect_writes _ _).waitFieldsKept.marksStay
  | exchange _ h => exact h.marks
  | search _ _ h => exact h.marks

theorem step_marksStay {s t : State} (h : step s = .next t) : MarksStay s t := by
  cases stepCase_of_step h with
  | waits => exact .of_eq rfl rfl
  | refused rest st => exact .of_eq rfl rfl
  | ran rest r heffect =>
    obtain ⟨hovf, hfaults⟩ := heffect.marksStay
    exact ⟨hovf, hfaults⟩
  | irqEdge rest => rw [irqHandler_eq]; exact .of_eq rfl rfl
  | msTick rest => rw [msTickStep_eq]; exact .of_eq rfl rfl
  | hostIe rest on => exact .of_eq rfl rfl

/-- Settles O26: the two pushes, and the cases of a step. -/
theorem overflowIsMarkedAndSticky : Obligations.OverflowIsMarkedAndSticky :=
  ⟨fun _ b _ => ringPush_full b, fun _ b _ => ringPush_room b, fun _ _ h =>
    ⟨(step_marksStay h).fifoOvf, (step_marksStay h).faults⟩⟩

/-- Settles O59, by what the instruction does. -/
theorem onlyDirectModeChangesTheSession : Obligations.OnlyDirectModeChangesTheSession := by
  intro i s t h
  cases execCase_of_exec h with
  | refused st => exact ⟨rfl, fun _ _ => ⟨rfl, rfl, rfl, rfl, fun _ _ => rfl⟩⟩
  | ran r heffect =>
    cases heffect with
    | talk h =>
      rw [h]
      exact ⟨rfl, fun _ _ => ⟨rfl, rfl, rfl, rfl, fun _ _ => rfl⟩⟩
    | csAssert tr => exact ⟨rfl, fun _ _ => ⟨rfl, rfl, rfl, rfl, fun hne _ => absurd rfl hne⟩⟩
    | csDeassert tr _ => exact ⟨rfl, fun _ _ => ⟨rfl, rfl, rfl, rfl, fun _ hne => absurd rfl hne⟩⟩
    | dmEnable mode => exact ⟨(enableDirect_writes _ _ _).hostIe, fun hne => absurd rfl (hne mode)⟩
    | dmDisable => exact ⟨(disableDirect_writes _ _).hostIe, fun _ hne => absurd rfl hne⟩
    | exchange _ h =>
      rw [h.writes]
      exact ⟨rfl, fun _ _ => ⟨rfl, rfl, rfl, rfl, fun _ _ => rfl⟩⟩
    | search _ _ h =>
      rw [h.writes]
      exact ⟨rfl, fun _ _ => ⟨rfl, rfl, rfl, rfl, fun _ _ => rfl⟩⟩

/-- R36: the record, after an instruction that is no search. -/
theorem Effect.acs {i : Instr} {s t : State} (h : Effect s i t) (hi : ¬ Searches i) : t.acs = s.acs := by
  cases h with
  | talk h => rw [h]
  | csAssert tr => rfl
  | csDeassert tr _ => rfl
  | dmEnable mode => exact (enableDirect_writes _ _ _).acs
  | dmDisable => exact (disableDirect_writes _ _).acs
  | exchange _ h => exact h.acs
  | search _ hsearch _ => exact absurd hsearch hi

/-- R38: the flags, the countdown and the ring, after an instruction that never waits. -/
theorem Effect.waitFieldsKept {i : Instr} {s t : State} (h : Effect s i t) (hi : mayWait i = false) :
    WaitFieldsKept s t := by
  cases h with
  | talk h => exact h.waitFieldsKept
  | csAssert tr => exact ⟨⟨rfl, rfl, rfl⟩, rfl, rfl, rfl⟩
  | csDeassert tr _ => exact ⟨⟨rfl, rfl, rfl⟩, rfl, rfl, rfl⟩
  | dmEnable mode => exact (enableDirect_writes _ _ _).waitFieldsKept
  | dmDisable => exact (disableDirect_writes _ _).waitFieldsKept
  | exchange hwait _ => exact absurd (hi.symm.trans hwait) (by decide)
  | search hwait _ _ => exact absurd (hi.symm.trans hwait) (by decide)

/-- Settles O60: the record and the waits' fields, after what the instruction does. -/
theorem onlySearchChangesTheRecord : Obligations.OnlySearchChangesTheRecord := by
  intro i s t h
  cases execCase_of_exec h with
  | refused st => exact ⟨fun _ _ _ => rfl, fun _ _ _ => ⟨rfl, rfl, rfl, rfl, rfl, rfl⟩⟩
  | ran r heffect =>
    refine ⟨fun hanticol hfirst hnext => heffect.acs ?_, fun op hop hmem => ?_⟩
    · rintro (rfl | ⟨cmd, rfl⟩ | ⟨cmd, rfl⟩)
      · exact hanticol rfl
      · exact hfirst cmd rfl
      · exact hnext cmd rfl
    · have hquick : mayWait i = false := by
        rw [mayWait, hop]
        exact decide_eq_false (not_not_intro hmem)
      obtain ⟨⟨hring, hovf, hfaults⟩, hirq, htimeout, hcountdown⟩ := heffect.waitFieldsKept hquick
      exact ⟨hirq, htimeout, hcountdown, hring, hovf, hfaults⟩

end Sys2Proof.Machine

/-! PROOFS. The family `20_memory.md`: each row of the SPI format, issued by itself, is the one transaction it stands for
(R68, R93, R98, R140). -/

namespace Sys2Proof.Machine

open Host (Outcome)

/-! ### An operation under the guard of R140 -/

/-- R140: an operation with this guard is refused while a session is open, whatever its operands. -/
theorem sessionGuarded_of_issue {i : Instr} {ok : Bool}
    (hexec : ∀ s, ∃ body, exec i s = .next (issue (refusal (seqGuard s) ok) body s)) : SessionGuarded i := by
  intro s hbusy hopen
  obtain ⟨body, hissue⟩ := hexec s
  rw [RefusedIn, hissue, seqGuard_open hopen, refusal_some, issue_refused hbusy]

/-- R293: with no session open, operands out of range are refused with `BAD_OPERAND`. -/
theorem seqIssue_badOperand {s : State} {ok : Bool} {body : State → Response × State} (hs : s.SeqReady) (hok : ok = false) :
    issue (refusal (seqGuard s) ok) body s = s.respond (.status .badOperand []) := by
  rw [hok, seqGuard_closed hs.2, issue_badOperand hs.1, Option.getD_none]

/-- R140, R143: with no session open and its operands in range, an operation that only talks over SPI ends with the events and
the draws of its body. -/
theorem seqIssue_talks {s : State} {ok : Bool} {body : State → Response × State} {r : Response} {tr : List Event} {e : Env}
    (hs : s.SeqReady) (hok : ok = true) (hbody : body s.running = (r, { s.running with trace := tr, env := e })) :
    issue (refusal (seqGuard s) ok) body s = { s with trace := tr, env := e, responses := s.responses ++ [r] } := by
  have hended : ({ s.running with trace := tr, env := e } : State).ended r =
      { s with busy := false, trace := tr, env := e, responses := s.responses ++ [r] } := rfl
  rw [hok, seqGuard_closed hs.2, issue_starts hs.1, hbody, hended, ← hs.1]

/-! ### The span of a continuous access (R68) -/

theorem okContSpan_eq_true_iff (a : BitVec 5) (n : Nat) :
    okContSpan a.toNat n = true ↔ n ≠ 0 ∧ (a = 0x1F#5 ∨ a.toNat + n ≤ 0x20) := by
  have hlast : a = 0x1F#5 ↔ a.toNat = 0x1F := BitVec.toNat_eq
  simp only [okContSpan, Bool.and_eq_true, Bool.or_eq_true, decide_eq_true_eq, hlast]
  omega

theorem okContSpan_eq_false_iff (a : BitVec 5) (n : Nat) :
    okContSpan a.toNat n = false ↔ n = 0 ∨ (a ≠ 0x1F#5 ∧ 0x20 < a.toNat + n) := by
  rw [← Bool.not_eq_true, okContSpan_eq_true_iff, not_and_or, not_not, not_or, Nat.not_le]

/-! ### The rows of the SPI format -/

/-- R140: each row is issued under the guard of the operations. -/
theorem spiRow_sessionGuarded (a : BitVec 5) (val n : Byte) (data : List Byte) :
    ∀ i ∈ [Instr.spiWriteSingle a val, .spiWriteCont a data, .spiReadSingle a, .spiReadCont a n, .spiDirectCmd a,
      .cmdSoftInit, .cmdResetFifo, .cmdTxNocrc, .cmdTxCrc], SessionGuarded i := by
  intro i hi
  simp only [List.mem_cons, List.not_mem_nil, or_false] at hi
  rcases hi with rfl | rfl | rfl | rfl | rfl | rfl | rfl | rfl | rfl <;>
    exact sessionGuarded_of_issue fun _ => ⟨_, rfl⟩

/-- R98: a named direct command is the direct-command form at its default code. -/
theorem namedCmd_eq_spiDirectCmd :
    ∀ p ∈ ([(.cmdSoftInit, 0x83), (.cmdResetFifo, 0x8F), (.cmdTxNocrc, 0x90), (.cmdTxCrc, 0x91)] : List (Instr × Byte)),
      ∃ c, spiDirectByte c = p.2 ∧ ∀ s, exec p.1 s = exec (.spiDirectCmd c) s := by
  intro p hp
  simp only [List.mem_cons, List.not_mem_nil, or_false] at hp
  rcases hp with rfl | rfl | rfl | rfl
  · exact ⟨cmdSoftInitCode, by decide, fun _ => rfl⟩
  · exact ⟨cmdResetFifoCode, by decide, fun _ => rfl⟩
  · exact ⟨cmdTxNocrcCode, by decide, fun _ => rfl⟩
  · exact ⟨cmdTxCrcCode, by decide, fun _ => rfl⟩

section
variable {s : State} (hs : s.SeqReady)
include hs

theorem spiWriteCont_refused {a : BitVec 5} {data : List Byte}
    (hspan : data = [] ∨ (a ≠ 0x1F#5 ∧ 0x20 < a.toNat + data.length)) : RefusedIn (.spiWriteCont a data) s .badOperand :=
  congrArg Outcome.next <| seqIssue_badOperand hs <|
    (okContSpan_eq_false_iff a data.length).2 (hspan.imp_left List.length_eq_zero_iff.2)

theorem spiReadCont_refused {a : BitVec 5} {n : Byte}
    (hspan : n = 0 ∨ (a ≠ 0x1F#5 ∧ 0x20 < a.toNat + n.toNat)) : RefusedIn (.spiReadCont a n) s .badOperand :=
  congrArg Outcome.next <| seqIssue_badOperand hs <|
    (okContSpan_eq_false_iff a n.toNat).2 (hspan.imp_left BitVec.toNat_eq.1)

theorem exec_spiWriteSingle (a : BitVec 5) (val : Byte) :
    exec (.spiWriteSingle a val) s = .next { s with
      trace := s.trace ++ inWindow s.cs [.spiOut (spiWriteByte a), .spiOut val],
      responses := s.responses ++ [.status .ok []] } :=
  congrArg Outcome.next <| seqIssue_talks hs rfl <| congrArg doneWith (writeReg_eq a val s.running)

theorem exec_spiWriteCont {a : BitVec 5} {data : List Byte} (hne : data ≠ [])
    (hspan : a = 0x1F#5 ∨ a.toNat + data.length ≤ 0x20) :
    exec (.spiWriteCont a data) s = .next { s with
      trace := s.trace ++ inWindow s.cs (.spiOut (spiWriteContByte a) :: data.map .spiOut),
      responses := s.responses ++ [.status .ok []] } :=
  have hok := (okContSpan_eq_true_iff a data.length).2 ⟨mt List.length_eq_zero_iff.1 hne, hspan⟩
  congrArg Outcome.next <| seqIssue_talks hs hok <| congrArg doneWith (writeCont_eq a data s.running)

theorem exec_spiReadSingle (a : BitVec 5) :
    exec (.spiReadSingle a) s = .next { s with
      trace := s.trace ++ inWindow s.cs [.spiOut (spiReadByte a), .spiIn s.env.byte.1], env := s.env.byte.2,
      responses := s.responses ++ [.status .ok [s.env.byte.1]] } :=
  congrArg Outcome.next <| seqIssue_talks hs rfl <| by rw [readReg_eq]; rfl

theorem exec_spiReadCont {a : BitVec 5} {n : Byte} (hne : n ≠ 0) (hspan : a = 0x1F#5 ∨ a.toNat + n.toNat ≤ 0x20) :
    exec (.spiReadCont a n) s = .next { s with
      trace := s.trace ++ inWindow s.cs (.spiOut (spiReadContByte a) :: (s.env.bytes n.toNat).1.map .spiIn),
      env := (s.env.bytes n.toNat).2, responses := s.responses ++ [.status .ok (s.env.bytes n.toNat).1] } :=
  have hok := (okContSpan_eq_true_iff a n.toNat).2 ⟨BitVec.toNat_ne_iff_ne.2 hne, hspan⟩
  congrArg Outcome.next <| seqIssue_talks hs hok <| by rw [readCont_eq]; rfl

theorem exec_spiDirectCmd (c : BitVec 5) :
    exec (.spiDirectCmd c) s = .next { s with
      trace := s.trace ++ inWindow s.cs [.spiOut (spiDirectByte c)], responses := s.responses ++ [.status .ok []] } :=
  congrArg Outcome.next <| seqIssue_talks hs rfl <| congrArg doneWith (directCmd_eq c s.running)

end

/-- Settles O18, row by row; the named commands by the direct-command form that each is. -/
theorem spiRowsAreTheirTransactions : Obligations.SpiRowsAreTheirTransactions := by
  refine ⟨spiRow_sessionGuarded, fun s hs => ⟨fun _ _ => spiWriteCont_refused hs, fun _ _ => spiReadCont_refused hs,
    exec_spiWriteSingle hs, fun _ _ => exec_spiWriteCont hs, exec_spiReadSingle hs, fun _ _ => exec_spiReadCont hs,
    exec_spiDirectCmd hs, fun p hp => ?_⟩⟩
  obtain ⟨c, hbyte, hexec⟩ := namedCmd_eq_spiDirectCmd p hp
  rw [hexec, ← hbyte]
  exact exec_spiDirectCmd hs c

end Sys2Proof.Machine

/-! PROOFS. The family `30_encoding.md`: decoding and encoding are inverse (R90 to R115), the host commands that are refused
(R103, R293), and the slots, exchanges and searches that carry the frames (R97, R116 to R119, R162, R188, R245, R255). -/

namespace Sys2Proof.Machine

open Host (Outcome)

/-! ### Bytes, units and bits -/

theorem u16Of_toNat (lo hi : Byte) : (u16Of lo hi).toNat = lo.toNat + 256 * hi.toNat := by
  have hlo := lo.isLt
  have hhi := hi.isLt
  have hshift : (hi.toNat <<< 8) % 65536 = hi.toNat <<< 8 := Nat.mod_eq_of_lt (by rw [Nat.shiftLeft_eq]; omega)
  simp only [u16Of, BitVec.toNat_or, BitVec.toNat_shiftLeft, BitVec.toNat_setWidth, Nat.reducePow]
  rw [Nat.mod_eq_of_lt (a := hi.toNat) (by omega), Nat.mod_eq_of_lt (a := lo.toNat) (by omega), hshift,
    ← Nat.shiftLeft_add_eq_or_of_lt hlo, Nat.shiftLeft_eq]
  omega

/-- R66: two bytes are those of the value they make. -/
@[simp] theorem u16Bytes_u16Of (lo hi : Byte) : u16Bytes (u16Of lo hi) = [lo, hi] := by
  have hvalue := u16Of_toNat lo hi
  have hlo := lo.isLt
  have hhi := hi.isLt
  have hlow : (u16Of lo hi).setWidth 8 = lo := BitVec.eq_of_toNat_eq (by rw [BitVec.toNat_setWidth, hvalue]; omega)
  have hhigh : (u16Of lo hi >>> 8).setWidth 8 = hi := BitVec.eq_of_toNat_eq (by
    rw [BitVec.toNat_setWidth, BitVec.toNat_ushiftRight, hvalue, Nat.shiftRight_eq_div_pow]; omega)
  rw [u16Bytes, hlow, hhigh]

/-- R66: every value is that of its two bytes. -/
theorem exists_u16Of (v : BitVec 16) : ∃ lo hi, v = u16Of lo hi := by
  refine ⟨v.setWidth 8, (v >>> 8).setWidth 8, BitVec.eq_of_toNat_eq ?_⟩
  rw [u16Of_toNat, BitVec.toNat_setWidth, BitVec.toNat_setWidth, BitVec.toNat_ushiftRight, Nat.shiftRight_eq_div_pow]
  omega

theorem unitsBytes_length (us : List Unit16) : (unitsBytes us).length = 2 * us.length := by
  induction us with
  | nil => rfl
  | cons u us ih => simp only [unitsBytes, List.length_append, ih, List.length_cons, u16Bytes, List.length_nil]; omega

theorem unitsOf_unitsBytes (us : List Unit16) : unitsOf (unitsBytes us) = some us := by
  induction us with
  | nil => rfl
  | cons u us ih =>
    obtain ⟨lo, hi, rfl⟩ := exists_u16Of u
    simp only [unitsBytes, u16Bytes_u16Of, List.cons_append, List.nil_append, unitsOf, ih, Option.map_some]

/-- R101: a byte string of even length is the bytes of its units. -/
theorem exists_unitsBytes {n : Nat} {bytes : List Byte} (h : bytes.length = 2 * n) :
    ∃ us : List Unit16, us.length = n ∧ bytes = unitsBytes us := by
  induction n generalizing bytes with
  | zero => exact ⟨[], rfl, List.length_eq_zero_iff.1 h⟩
  | succ n ih =>
    match bytes, h with
    | lo :: hi :: rest, h =>
      obtain ⟨us, hlength, rfl⟩ := ih (bytes := rest) (by simp only [List.length_cons] at h; omega)
      exact ⟨u16Of lo hi :: us, congrArg (· + 1) hlength, by simp [unitsBytes]⟩

theorem unitsOf_eq_some_iff {bytes : List Byte} {us : List Unit16} :
    unitsOf bytes = some us ↔ bytes = unitsBytes us := by
  refine ⟨fun h => ?_, fun h => h ▸ unitsOf_unitsBytes us⟩
  induction bytes using unitsOf.induct generalizing us with
  | case1 => obtain rfl := Option.some.inj h; rfl
  | case2 b => cases h
  | case3 lo hi rest ih =>
    obtain ⟨vs, hvs, rfl⟩ := Option.map_eq_some_iff.1 h
    rw [unitsBytes, ← ih hvs, u16Bytes_u16Of]
    rfl

theorem byteOfBits_bits8 (b : Byte) : byteOfBits (bits8 b) = b := by
  rw [byteOfBits, Laws.FixedBits.bits8_toNat, BitVec.ofNat_toNat, BitVec.setWidth_eq]

@[simp] theorem bits8_length (b : Byte) : (bits8 b).length = 8 := rfl

/-- R13: eight bits are those of the byte they make. -/
theorem bits8_byteOfBits {l : List Bit} (h : l.length = 8) : bits8 (byteOfBits l) = l := by
  match l, h with
  | [a, b, c, d, e, f, g, i], _ =>
    revert a b c d e f g i
    decide

theorem chunks_append {u : Nat} (hu : 0 < u) {l m : List Bit} (hl : l.length = u) :
    chunks u (l ++ m) = l :: chunks u m := by
  have hcount : (u + m.length + u - 1) / u = (m.length + u - 1) / u + 1 := by
    rw [show u + m.length + u - 1 = m.length + u - 1 + u by omega, Nat.add_div_right _ hu]
  subst hl
  simp only [chunks, List.length_append, hcount, List.range_succ_eq_map, List.map_cons, List.map_map]
  congr 1
  · simp
  · refine List.map_congr_left fun i _ => ?_
    simp [Nat.mul_succ, ← List.drop_drop, Nat.add_comm]

theorem packLsb_append {l m : List Bit} (hl : l.length = 8) : packLsb (l ++ m) = byteOfBits l :: packLsb m := by
  rw [packLsb, chunks_append (by decide) hl, List.map_cons, ← packLsb]

/-- R13: the bits of bytes, packed, are the bytes. -/
theorem packLsb_flatMap_bits8 (bytes : List Byte) : packLsb (bytes.flatMap bits8) = bytes := by
  induction bytes with
  | nil => rfl
  | cons b bytes ih => rw [List.flatMap_cons, packLsb_append (bits8_length b), byteOfBits_bits8, ih]

/-- R13: bits in whole bytes are the bits of the bytes they make. -/
theorem exists_flatMap_bits8 {n : Nat} {l : List Bit} (h : l.length = 8 * n) :
    ∃ bytes : List Byte, bytes.length = n ∧ l = bytes.flatMap bits8 := by
  induction n generalizing l with
  | zero => exact ⟨[], rfl, List.length_eq_zero_iff.1 h⟩
  | succ n ih =>
    obtain ⟨bytes, hlength, hrest⟩ := ih (l := l.drop 8) (by rw [List.length_drop]; omega)
    refine ⟨byteOfBits (l.take 8) :: bytes, congrArg (· + 1) hlength, ?_⟩
    rw [List.flatMap_cons, ← hrest, bits8_byteOfBits (by rw [List.length_take]; omega), List.take_append_drop]

theorem flatMap_bits8_length (bytes : List Byte) : (bytes.flatMap bits8).length = 8 * bytes.length := by
  induction bytes with
  | nil => rfl
  | cons b bytes ih => rw [List.flatMap_cons, List.length_append, ih, bits8_length, List.length_cons]; omega

/-! ### The opcode map (R100) -/

theorem hostOpOf_opcodeOf (op : HostOp) : hostOpOf (opcodeOf op) = some op := by
  cases op <;> rfl

theorem opcodeOf_of_hostOpOf {b : Byte} {op : HostOp} (h : hostOpOf b = some op) : opcodeOf op = b := by
  obtain ⟨entry, hfind, rfl⟩ := Option.map_eq_some_iff.1 h
  have hentry : ∀ e ∈ hostOpTable, opcodeOf e.1 = e.2 := by decide
  exact (hentry entry (List.mem_of_find?_eq_some hfind)).trans (beq_iff_eq.1 (List.find?_some hfind :))

/-- R103: a reserved opcode is a byte that the map does not list. -/
theorem hostOpOf_eq_none_iff {b : Byte} : hostOpOf b = none ↔ b ∉ hostOpTable.map (·.2) := by
  simp only [hostOpOf, Option.map_eq_none_iff, List.find?_eq_none, beq_iff_eq, List.mem_map, not_exists, not_and]

/-! ### The operand layouts (R101) -/

theorem decodeNone_eq_some_iff {i j : Instr} {ops : List Byte} : decodeNone i ops = some j ↔ ops = [] ∧ i = j := by
  cases ops <;> simp [decodeNone]

theorem decodeByte_eq_some_iff {mk : Byte → Instr} {ops : List Byte} {j : Instr} :
    decodeByte mk ops = some j ↔ ∃ a, ops = [a] ∧ mk a = j := by
  match ops with
  | [] => simp [decodeByte]
  | [a] => simp [decodeByte]
  | _ :: _ :: _ => simp [decodeByte]

/-- A count operand of two bytes, then the units it counts. -/
theorem decodeUnits_eq_some_iff {mk : BitVec 16 → List Unit16 → Instr} {ops : List Byte} {j : Instr} :
    decodeUnits mk ops = some j ↔
      ∃ n buf, ops = u16Bytes n ++ unitsBytes buf ∧ buf.length = n.toNat ∧ mk n buf = j := by
  constructor
  · intro h
    unfold decodeUnits at h
    split at h
    · next lo hi rest =>
      split at h
      · next buf hbuf =>
        obtain ⟨hlength, hj⟩ := Option.ite_none_right_eq_some.1 h
        refine ⟨u16Of lo hi, buf, ?_, hlength, Option.some.inj hj⟩
        rw [unitsOf_eq_some_iff.1 hbuf, u16Bytes_u16Of]
        rfl
      · cases h
    · cases h
  · rintro ⟨n, buf, rfl, hlength, rfl⟩
    obtain ⟨lo, hi, rfl⟩ := exists_u16Of n
    simp only [u16Bytes_u16Of, List.cons_append, List.nil_append, decodeUnits, unitsOf_unitsBytes, if_pos hlength]

/-- R101: the elements of `send`, bytes in OPAQUE mode and units otherwise. -/
theorem decodeElements_eq_some_iff {mode : Byte} {rest : List Byte} {send : List Unit16} :
    (if mode = 0 then some (rest.map (·.setWidth 16)) else unitsOf rest) = some send ↔
      rest = sendBytesOf mode send ∧ (mode = 0 → ∀ u ∈ send, u < 0x100#16) := by
  by_cases hmode : mode = 0
  · have hbyte (b : Byte) : (b.setWidth 16).setWidth 8 = b := BitVec.setWidth_setWidth_of_le b (by decide)
    have hsmall (b : Byte) : b.setWidth 16 < 0x100#16 := by bv_omega
    have hunit (u : Unit16) (hu : u < 0x100#16) : (u.setWidth 8).setWidth 16 = u := by bv_omega
    simp only [hmode, if_true, Option.some.injEq, sendBytesOf, true_implies]
    constructor
    · rintro rfl
      refine ⟨?_, fun u hu => ?_⟩
      · rw [List.map_map]
        exact (List.map_id'' hbyte rest).symm
      · obtain ⟨b, -, rfl⟩ := List.mem_map.1 hu
        exact hsmall b
    · rintro ⟨rfl, hsend⟩
      rw [List.map_map]
      exact (List.map_congr_left fun u hu => hunit u (hsend u hu)).trans (List.map_id _)
  · simp only [hmode, if_false, unitsOf_eq_some_iff, sendBytesOf, false_implies, and_true]

theorem decodeTransceive_eq_some_iff {ops : List Byte} {j : Instr} :
    decodeTransceive ops = some j ↔
      ∃ mode sendBytes sendBits recvBytes recvBits send,
        ops = mode :: u16Bytes sendBytes ++ sendBits :: u16Bytes recvBytes ++ recvBits :: sendBytesOf mode send ∧
        send.length = sendElems sendBytes sendBits ∧ (mode = 0 → ∀ u ∈ send, u < 0x100#16) ∧
        Instr.dmTransceive mode sendBytes sendBits recvBytes recvBits send = j := by
  constructor
  · intro h
    unfold decodeTransceive at h
    split at h
    · next mode sl sh sendBits rl rh recvBits rest =>
      split at h
      · next send hsend =>
        obtain ⟨hlength, hj⟩ := Option.ite_none_right_eq_some.1 h
        obtain ⟨rfl, hbytes⟩ := decodeElements_eq_some_iff.1 hsend
        exact ⟨mode, u16Of sl sh, sendBits, u16Of rl rh, recvBits, send, by simp, hlength, hbytes, Option.some.inj hj⟩
      · cases h
    · cases h
  · rintro ⟨mode, sendBytes, sendBits, recvBytes, recvBits, send, rfl, hlength, hbytes, rfl⟩
    obtain ⟨sl, sh, rfl⟩ := exists_u16Of sendBytes
    obtain ⟨rl, rh, rfl⟩ := exists_u16Of recvBytes
    have hsend := decodeElements_eq_some_iff.2 ⟨rfl, hbytes⟩
    simp only [u16Bytes_u16Of, List.cons_append, List.nil_append, decodeTransceive, hsend, if_pos hlength]

theorem decodeOperands_writeReg_iff {ops : List Byte} {j : Instr} :
    decodeOperands .writeReg ops = some j ↔ ∃ addr val, ops = [addr, val] ∧ .writeReg addr val = j := by
  match ops with
  | [] => simp [decodeOperands]
  | [_] => simp [decodeOperands]
  | [_, _] => simp [decodeOperands]
  | _ :: _ :: _ :: _ => simp [decodeOperands]

theorem decodeOperands_readCont_iff {ops : List Byte} {j : Instr} :
    decodeOperands .readCont ops = some j ↔ ∃ addr n, ops = [addr, n] ∧ .readCont addr n = j := by
  match ops with
  | [] => simp [decodeOperands]
  | [_] => simp [decodeOperands]
  | [_, _] => simp [decodeOperands]
  | _ :: _ :: _ :: _ => simp [decodeOperands]

theorem decodeOperands_irqWait_iff {ops : List Byte} {j : Instr} :
    decodeOperands .irqWait ops = some j ↔ ∃ lo hi, ops = [lo, hi] ∧ .irqWait (u16Of lo hi) = j := by
  match ops with
  | [] => simp [decodeOperands]
  | [_] => simp [decodeOperands]
  | [_, _] => simp [decodeOperands]
  | _ :: _ :: _ :: _ => simp [decodeOperands]

theorem decodeOperands_writeCont_iff {ops : List Byte} {j : Instr} :
    decodeOperands .writeCont ops = some j ↔
      ∃ addr n data, ops = addr :: n :: data ∧ data.length = n.toNat ∧ .writeCont addr n data = j := by
  match ops with
  | [] => simp [decodeOperands]
  | [_] => simp [decodeOperands]
  | _ :: _ :: _ => simp [decodeOperands]

theorem decodeOperands_fifoWrite_iff {ops : List Byte} {j : Instr} :
    decodeOperands .fifoWrite ops = some j ↔
      ∃ lo hi data, ops = lo :: hi :: data ∧ data.length = (u16Of lo hi).toNat ∧
        .fifoWrite (u16Of lo hi) data = j := by
  match ops with
  | [] => simp [decodeOperands]
  | [_] => simp [decodeOperands]
  | _ :: _ :: _ => simp [decodeOperands]

theorem decodeOperands_select_iff {ops : List Byte} {j : Instr} :
    decodeOperands .select ops = some j ↔
      ∃ uidLen uid, ops = uidLen :: uid ∧ uid.length = uidLen.toNat ∧ .select uidLen uid = j := by
  cases ops <;> simp [decodeOperands]

/-! ### Host commands (R99, R101) -/

theorem encodable_dmTransceive_iff {mode sendBits recvBits : Byte} {sendBytes recvBytes : BitVec 16}
    {send : List Unit16} :
    (Instr.dmTransceive mode sendBytes sendBits recvBytes recvBits send).encodable = true ↔
      send.length = sendElems sendBytes sendBits ∧ (mode = 0 → ∀ u ∈ send, u < 0x100#16) := by
  simp only [Instr.encodable, Bool.and_eq_true, Bool.or_eq_true, decide_eq_true_eq, bne_iff_ne, List.all_eq_true,
    ne_eq, ← imp_iff_not_or]

/-- R101: operand bytes that decode are those of the instruction, and its operands fit. -/
theorem encode_of_decodeOperands {op : HostOp} {ops : List Byte} {i : Instr} (h : decodeOperands op ops = some i) :
    encode i = hostWord op ops ∧ i.encodable = true := by
  cases op with
  | csAssert | csDeassert | dmDisable | doAnticol | halt =>
    obtain ⟨rfl, rfl⟩ := decodeNone_eq_some_iff.1 h
    exact ⟨rfl, rfl⟩
  | readReg | directCmd | dmEnable | reqa | selectFirst | selectNext =>
    obtain ⟨a, rfl, rfl⟩ := decodeByte_eq_some_iff.1 h
    exact ⟨rfl, rfl⟩
  | setParity | checkParity | appendCrc | checkCrc =>
    obtain ⟨n, buf, rfl, hlength, rfl⟩ := decodeUnits_eq_some_iff.1 h
    exact ⟨rfl, decide_eq_true hlength⟩
  | dmTransceive =>
    obtain ⟨mode, sendBytes, sendBits, recvBytes, recvBits, send, rfl, hlength, hbytes, rfl⟩ :=
      decodeTransceive_eq_some_iff.1 h
    exact ⟨rfl, encodable_dmTransceive_iff.2 ⟨hlength, hbytes⟩⟩
  | writeReg =>
    obtain ⟨addr, val, rfl, rfl⟩ := decodeOperands_writeReg_iff.1 h
    exact ⟨rfl, rfl⟩
  | readCont =>
    obtain ⟨addr, n, rfl, rfl⟩ := decodeOperands_readCont_iff.1 h
    exact ⟨rfl, rfl⟩
  | irqWait =>
    obtain ⟨lo, hi, rfl, rfl⟩ := decodeOperands_irqWait_iff.1 h
    exact ⟨by rw [encode, u16Bytes_u16Of], rfl⟩
  | writeCont =>
    obtain ⟨addr, n, data, rfl, hlength, rfl⟩ := decodeOperands_writeCont_iff.1 h
    exact ⟨rfl, decide_eq_true hlength⟩
  | fifoWrite =>
    obtain ⟨lo, hi, data, rfl, hlength, rfl⟩ := decodeOperands_fifoWrite_iff.1 h
    exact ⟨by rw [encode, u16Bytes_u16Of]; rfl, decide_eq_true hlength⟩
  | select =>
    obtain ⟨uidLen, uid, rfl, hlength, rfl⟩ := decodeOperands_select_iff.1 h
    exact ⟨rfl, decide_eq_true hlength⟩

theorem decode_hostWord {op : HostOp} {ops : List Byte} {i : Instr} (h : decodeOperands op ops = some i) :
    decode (hostWord op ops) = .ok i := by
  simp only [hostWord, decode, decodeHost, hostOpOf_opcodeOf, h]

theorem decode_hostWord_of_none {op : HostOp} {ops : List Byte} (h : decodeOperands op ops = none) :
    decode (hostWord op ops) = .error (.badOperand op) := by
  simp only [hostWord, decode, decodeHost, hostOpOf_opcodeOf, h]

theorem decode_hostWord_eq_ok_iff {op : HostOp} {ops : List Byte} {i : Instr} :
    decode (hostWord op ops) = .ok i ↔ decodeOperands op ops = some i := by
  cases h : decodeOperands op ops with
  | none => simp [decode_hostWord_of_none h]
  | some j => simp [decode_hostWord h]

theorem encode_of_decodeHost {bytes : List Byte} {i : Instr} (h : decodeHost bytes = .ok i) :
    encode i = .host bytes ∧ i.encodable = true := by
  unfold decodeHost at h
  split at h
  · cases h
  · next b ops =>
    split at h
    · cases h
    · next op hop =>
      split at h
      · next j hj =>
        obtain rfl := Except.ok.inj h
        obtain rfl := opcodeOf_of_hostOpOf hop
        exact encode_of_decodeOperands hj
      · cases h

/-! ### SPI transactions (R91 to R93, R98) -/

/-- R91, R93: the bits `C`, `R`, `N` and the low five bits of a command byte of each form. -/
theorem spiBytes_fields : ∀ a : BitVec 5,
    ((spiWriteByte a).getLsbD 7 = false ∧ (spiWriteByte a).getLsbD 6 = false ∧ (spiWriteByte a).getLsbD 5 = false ∧
      low5 (spiWriteByte a) = a) ∧
    ((spiWriteContByte a).getLsbD 7 = false ∧ (spiWriteContByte a).getLsbD 6 = false ∧
      (spiWriteContByte a).getLsbD 5 = true ∧ low5 (spiWriteContByte a) = a) ∧
    ((spiReadByte a).getLsbD 7 = false ∧ (spiReadByte a).getLsbD 6 = true ∧ (spiReadByte a).getLsbD 5 = false ∧
      low5 (spiReadByte a) = a) ∧
    ((spiReadContByte a).getLsbD 7 = false ∧ (spiReadContByte a).getLsbD 6 = true ∧
      (spiReadContByte a).getLsbD 5 = true ∧ low5 (spiReadContByte a) = a) ∧
    (spiDirectByte a).getLsbD 7 = true ∧ (spiDirectByte a).getLsbD 6 = false ∧ (spiDirectByte a).getLsbD 5 = false ∧
      low5 (spiDirectByte a) = a := by decide

/-- R94: the reserved command bytes. -/
def spiReserved (b : Byte) : Bool := b.getLsbD 7 && (b.getLsbD 6 || b.getLsbD 5)

/-- R93, R94: a command byte is of one of the five forms, or reserved. -/
theorem spiByte_forms : ∀ b : Byte,
    b = spiWriteByte (low5 b) ∨ b = spiWriteContByte (low5 b) ∨ b = spiReadByte (low5 b) ∨
      b = spiReadContByte (low5 b) ∨ b = spiDirectByte (low5 b) ∨ spiReserved b = true := by decide

theorem ite_eq_ok_iff {p : Prop} [Decidable p] {e : DecodeError} {i j : Instr} :
    (if p then .ok j else .error e : Except DecodeError Instr) = .ok i ↔ p ∧ j = i := by
  by_cases hp : p <;> simp [hp]

section
variable {a : BitVec 5} {data : List Byte} {nin : Byte} {i : Instr}

theorem decodeSpi_write_iff : decodeSpi (spiWriteByte a :: data) nin = .ok i ↔
    ∃ v, data = [v] ∧ nin = 0 ∧ .spiWriteSingle a v = i := by
  obtain ⟨hc, hr, hn, hlow⟩ := (spiBytes_fields a).1
  match data with
  | [] => simp only [decodeSpi, hc, hr, hn]; simp
  | [v] => simp only [decodeSpi, hc, hr, hn, hlow, ite_eq_ok_iff]; simp
  | _ :: _ :: _ => simp only [decodeSpi, hc, hr, hn]; simp

theorem decodeSpi_writeCont_iff : decodeSpi (spiWriteContByte a :: data) nin = .ok i ↔
    nin = 0 ∧ .spiWriteCont a data = i := by
  obtain ⟨hc, hr, hn, hlow⟩ := (spiBytes_fields a).2.1
  simp only [decodeSpi, hc, hr, hn, hlow, ite_eq_ok_iff]

theorem decodeSpi_read_iff : decodeSpi (spiReadByte a :: data) nin = .ok i ↔
    data = [] ∧ nin = 1 ∧ .spiReadSingle a = i := by
  obtain ⟨hc, hr, hn, hlow⟩ := (spiBytes_fields a).2.2.1
  simp only [decodeSpi, hc, hr, hn, hlow, ite_eq_ok_iff, and_assoc]

theorem decodeSpi_readCont_iff : decodeSpi (spiReadContByte a :: data) nin = .ok i ↔
    data = [] ∧ .spiReadCont a nin = i := by
  obtain ⟨hc, hr, hn, hlow⟩ := (spiBytes_fields a).2.2.2.1
  simp only [decodeSpi, hc, hr, hn, hlow, ite_eq_ok_iff]

theorem decodeSpi_direct_iff : decodeSpi (spiDirectByte a :: data) nin = .ok i ↔
    data = [] ∧ nin = 0 ∧ decodeDirect a = i := by
  obtain ⟨hc, hr, hn, hlow⟩ := (spiBytes_fields a).2.2.2.2
  simp only [decodeSpi, hc, hr, hn, hlow, ite_eq_ok_iff, and_assoc]

end

theorem decodeSpi_reserved {b : Byte} (h : spiReserved b = true) (data : List Byte) (nin : Byte) :
    decodeSpi (b :: data) nin = .error .reservedSpi := by
  obtain ⟨hc, hrn⟩ := Bool.and_eq_true_iff.1 h
  cases hr : b.getLsbD 6 with
  | true => simp only [decodeSpi, hc, hr]
  | false =>
    have hn : b.getLsbD 5 = true := by rwa [hr, Bool.false_or] at hrn
    simp only [decodeSpi, hc, hr, hn]

/-- R98: the four codes with a name decode to it, every other code to the direct-command form. -/
theorem encode_decodeDirect : ∀ c : BitVec 5,
    encode (decodeDirect c) = .spi [spiDirectByte c] 0 ∧ (decodeDirect c).encodable = true := by decide

theorem decodeDirect_of_encodable : ∀ c : BitVec 5,
    (Instr.spiDirectCmd c).encodable = true → decodeDirect c = .spiDirectCmd c := by decide

theorem encode_of_decodeSpi {out : List Byte} {nin : Byte} {i : Instr} (h : decodeSpi out nin = .ok i) :
    encode i = .spi out nin ∧ i.encodable = true := by
  cases out with
  | nil => cases h
  | cons b data =>
    have hforms := spiByte_forms b
    generalize low5 b = a at hforms
    rcases hforms with rfl | rfl | rfl | rfl | rfl | hb
    · obtain ⟨v, rfl, rfl, rfl⟩ := decodeSpi_write_iff.1 h
      exact ⟨rfl, rfl⟩
    · obtain ⟨rfl, rfl⟩ := decodeSpi_writeCont_iff.1 h
      exact ⟨rfl, rfl⟩
    · obtain ⟨rfl, rfl, rfl⟩ := decodeSpi_read_iff.1 h
      exact ⟨rfl, rfl⟩
    · obtain ⟨rfl, rfl⟩ := decodeSpi_readCont_iff.1 h
      exact ⟨rfl, rfl⟩
    · obtain ⟨rfl, rfl, rfl⟩ := decodeSpi_direct_iff.1 h
      exact encode_decodeDirect _
    · rw [decodeSpi_reserved hb] at h
      cases h

/-! ### Frames (R106 to R114) -/

/-- R108, R114: what the second byte of a frame after a SEL code says, with the bits after it. -/
def pickFrame (second : Byte) (rest : List Bit) (selectInstr : List Byte → Instr)
    (anticolInstr : Byte → List Bit → Instr) : Except DecodeError Instr :=
  if second = nvbFull then
    if rest.length = levelBits then .ok (selectInstr (packLsb rest)) else .error .unknownFrame
  else .ok (anticolInstr second rest)

/-- R106 to R114: a frame of at least two bytes, by its first byte. -/
theorem decodeRf_bytes (sel second : Byte) (rest : List Bit) : decodeRf (bits8 sel ++ bits8 second ++ rest) =
    if sel = rfSelCode 1 then pickFrame second rest .rfSelectCl1 .rfAnticollisionCl1
    else if sel = rfSelCode 2 then pickFrame second rest .rfSelectCl2 .rfAnticollisionCl2
    else if sel = rfSelCode 3 then pickFrame second rest .rfSelectCl3 .rfAnticollisionCl3
    else if [sel, second] = rfHltaBytes ∧ rest = [] then .ok .rfHlta
    else .error .unknownFrame := by
  have hlength : (bits8 sel ++ bits8 second ++ rest).length = 16 + rest.length := by
    simp only [List.length_append, bits8_length, Nat.reduceAdd]
  have hfirst : (bits8 sel ++ bits8 second ++ rest).take 8 = bits8 sel := rfl
  have hsecond : ((bits8 sel ++ bits8 second ++ rest).drop 8).take 8 = bits8 second := rfl
  have hrest : (bits8 sel ++ bits8 second ++ rest).drop 16 = rest := rfl
  rw [decodeRf, if_neg (by rw [hlength, reqaBits]; omega), if_neg (by rw [hlength]; omega)]
  simp only [hfirst, hsecond, hrest, byteOfBits_bits8, pickFrame]

/-- R13: the first two bytes of a frame that has them. -/
theorem exists_frame_bytes {bits : List Bit} (h : 16 ≤ bits.length) :
    ∃ sel second rest, bits = bits8 sel ++ bits8 second ++ rest := by
  refine ⟨byteOfBits (bits.take 8), byteOfBits ((bits.drop 8).take 8), bits.drop 16, ?_⟩
  rw [bits8_byteOfBits (by simp; omega), bits8_byteOfBits (by simp; omega), List.append_assoc,
    show bits.drop 16 = (bits.drop 8).drop 8 by rw [List.drop_drop], List.take_append_drop, List.take_append_drop]

theorem decodeRf_cl1 (second : Byte) (rest : List Bit) : decodeRf (bits8 (rfSelCode 1) ++ bits8 second ++ rest) =
    pickFrame second rest .rfSelectCl1 .rfAnticollisionCl1 := by
  rw [decodeRf_bytes, if_pos rfl]

theorem decodeRf_cl2 (second : Byte) (rest : List Bit) : decodeRf (bits8 (rfSelCode 2) ++ bits8 second ++ rest) =
    pickFrame second rest .rfSelectCl2 .rfAnticollisionCl2 := by
  rw [decodeRf_bytes, if_neg (by decide), if_pos rfl]

theorem decodeRf_cl3 (second : Byte) (rest : List Bit) : decodeRf (bits8 (rfSelCode 3) ++ bits8 second ++ rest) =
    pickFrame second rest .rfSelectCl3 .rfAnticollisionCl3 := by
  rw [decodeRf_bytes, if_neg (by decide), if_neg (by decide), if_pos rfl]

section
variable {selectInstr : List Byte → Instr} {anticolInstr : Byte → List Bit → Instr}

theorem pickFrame_select {level : List Byte} (hlevel : level.length = 5) :
    pickFrame nvbFull (level.flatMap bits8) selectInstr anticolInstr = .ok (selectInstr level) := by
  rw [pickFrame, if_pos rfl, if_pos (by rw [flatMap_bits8_length, hlevel, levelBits]), packLsb_flatMap_bits8]

theorem pickFrame_anticol {second : Byte} {rest : List Bit} (hsecond : second ≠ nvbFull) :
    pickFrame second rest selectInstr anticolInstr = .ok (anticolInstr second rest) := if_neg hsecond

/-- R108, R114: the frame that is picked at a SEL code is the one of its instruction there. -/
theorem encode_of_pickFrame {sel second : Byte} {rest : List Bit} {i : Instr}
    (h : pickFrame second rest selectInstr anticolInstr = .ok i)
    (hselect : ∀ level, encode (selectInstr level) = .rf (selectFrame sel level) ∧
      (selectInstr level).encodable = okLevel level)
    (hanticol : ∀ b known, encode (anticolInstr b known) = .rf (anticolFrame sel b known) ∧
      (anticolInstr b known).encodable = (b != nvbFull)) :
    encode i = .rf (bits8 sel ++ bits8 second ++ rest) ∧ i.encodable = true := by
  by_cases hsecond : second = nvbFull
  · rw [pickFrame, if_pos hsecond, ite_eq_ok_iff] at h
    obtain ⟨hlength, rfl⟩ := h
    obtain ⟨level, hlevel, rfl⟩ := exists_flatMap_bits8 (n := 5) hlength
    obtain ⟨hencode, hfits⟩ := hselect level
    rw [packLsb_flatMap_bits8, hencode, hfits, hsecond]
    exact ⟨rfl, decide_eq_true hlevel⟩
  · rw [pickFrame_anticol hsecond] at h
    obtain rfl := Except.ok.inj h
    obtain ⟨hencode, hfits⟩ := hanticol second rest
    exact ⟨hencode, hfits.trans (bne_iff_ne.2 hsecond)⟩

end

theorem encode_of_decodeRf {bits : List Bit} {i : Instr} (h : decodeRf bits = .ok i) :
    encode i = .rf bits ∧ i.encodable = true := by
  by_cases hshort : bits.length = reqaBits
  · rw [decodeRf, if_pos hshort] at h
    split at h
    · next hbits =>
      obtain rfl := Except.ok.inj h
      exact ⟨congrArg CodeWord.rf hbits.symm, rfl⟩
    · obtain ⟨hbits, rfl⟩ := ite_eq_ok_iff.1 h
      exact ⟨congrArg CodeWord.rf hbits.symm, rfl⟩
  · by_cases hlong : bits.length < 16
    · rw [decodeRf, if_neg hshort, if_pos hlong] at h
      cases h
    · obtain ⟨sel, second, rest, rfl⟩ := exists_frame_bytes (Nat.le_of_not_lt hlong)
      rw [decodeRf_bytes] at h
      split at h
      · next hsel => exact hsel ▸ encode_of_pickFrame h (fun _ => ⟨rfl, rfl⟩) fun _ _ => ⟨rfl, rfl⟩
      · split at h
        · next hsel => exact hsel ▸ encode_of_pickFrame h (fun _ => ⟨rfl, rfl⟩) fun _ _ => ⟨rfl, rfl⟩
        · split at h
          · next hsel => exact hsel ▸ encode_of_pickFrame h (fun _ => ⟨rfl, rfl⟩) fun _ _ => ⟨rfl, rfl⟩
          · obtain ⟨⟨hbytes, rfl⟩, rfl⟩ := ite_eq_ok_iff.1 h
            obtain ⟨rfl, rfl⟩ : sel = 0x50 ∧ second = 0x00 := by simpa [rfHltaBytes] using hbytes
            exact ⟨rfl, rfl⟩

/-! ### Sequences (R115) -/

theorem encode_of_decodeMod {slots : List Bit} {i : Instr} (h : decodeMod slots = .ok i) :
    encode i = .mod slots ∧ i.encodable = true := by
  unfold decodeMod at h
  split at h
  · next hx =>
    obtain rfl := Except.ok.inj h
    exact ⟨congrArg CodeWord.mod hx.symm, rfl⟩
  · split at h
    · next hy =>
      obtain rfl := Except.ok.inj h
      exact ⟨congrArg CodeWord.mod hy.symm, rfl⟩
    · obtain ⟨hz, rfl⟩ := ite_eq_ok_iff.1 h
      exact ⟨congrArg CodeWord.mod hz.symm, rfl⟩

/-! ### The encoding, both ways -/

/-- Settles O4, format by format. -/
theorem encodeOfDecodeIsIdentity : Obligations.EncodeOfDecodeIsIdentity := by
  intro w i h
  cases w with
  | host bytes => exact encode_of_decodeHost h
  | spi out nin => exact encode_of_decodeSpi h
  | rf bits => exact encode_of_decodeRf h
  | mod slots => exact encode_of_decodeMod h

/-- Settles O3, by the operand layout of a host command, the command byte of an SPI transaction, the first two bytes of
a frame and the slots of a sequence. -/
theorem decodeOfEncodeIsIdentity : Obligations.DecodeOfEncodeIsIdentity := by
  intro i hfits
  cases i with
  | csAssert | csDeassert | dmDisable | doAnticol | halt => exact decode_hostWord (decodeNone_eq_some_iff.2 ⟨rfl, rfl⟩)
  | readReg | directCmd | dmEnable | reqa | selectFirst | selectNext =>
    exact decode_hostWord (decodeByte_eq_some_iff.2 ⟨_, rfl, rfl⟩)
  | setParity | checkParity | appendCrc | checkCrc =>
    exact decode_hostWord (decodeUnits_eq_some_iff.2 ⟨_, _, rfl, of_decide_eq_true hfits, rfl⟩)
  | writeReg addr val => exact decode_hostWord (decodeOperands_writeReg_iff.2 ⟨_, _, rfl, rfl⟩)
  | readCont addr n => exact decode_hostWord (decodeOperands_readCont_iff.2 ⟨_, _, rfl, rfl⟩)
  | writeCont addr n data =>
    exact decode_hostWord (decodeOperands_writeCont_iff.2 ⟨_, _, _, rfl, of_decide_eq_true hfits, rfl⟩)
  | select uidLen uid => exact decode_hostWord (decodeOperands_select_iff.2 ⟨_, _, rfl, of_decide_eq_true hfits, rfl⟩)
  | irqWait ms =>
    obtain ⟨lo, hi, rfl⟩ := exists_u16Of ms
    exact decode_hostWord (decodeOperands_irqWait_iff.2 ⟨_, _, u16Bytes_u16Of lo hi, rfl⟩)
  | fifoWrite n data =>
    obtain ⟨lo, hi, rfl⟩ := exists_u16Of n
    exact decode_hostWord (decodeOperands_fifoWrite_iff.2
      ⟨_, _, _, congrArg (· ++ data) (u16Bytes_u16Of lo hi), of_decide_eq_true hfits, rfl⟩)
  | dmTransceive mode sendBytes sendBits recvBytes recvBits send =>
    obtain ⟨hlength, hbytes⟩ := encodable_dmTransceive_iff.1 hfits
    exact decode_hostWord (decodeTransceive_eq_some_iff.2 ⟨_, _, _, _, _, _, rfl, hlength, hbytes, rfl⟩)
  | spiWriteSingle a val => exact decodeSpi_write_iff.2 ⟨_, rfl, rfl, rfl⟩
  | spiWriteCont a data => exact decodeSpi_writeCont_iff.2 ⟨rfl, rfl⟩
  | spiReadSingle a => exact decodeSpi_read_iff.2 ⟨rfl, rfl, rfl⟩
  | spiReadCont a n => exact decodeSpi_readCont_iff.2 ⟨rfl, rfl⟩
  | spiDirectCmd c => exact decodeSpi_direct_iff.2 ⟨rfl, rfl, decodeDirect_of_encodable c hfits⟩
  | cmdSoftInit => exact decodeSpi_direct_iff (a := cmdSoftInitCode).2 ⟨rfl, rfl, rfl⟩
  | cmdResetFifo => exact decodeSpi_direct_iff (a := cmdResetFifoCode).2 ⟨rfl, rfl, rfl⟩
  | cmdTxNocrc => exact decodeSpi_direct_iff (a := cmdTxNocrcCode).2 ⟨rfl, rfl, rfl⟩
  | cmdTxCrc => exact decodeSpi_direct_iff (a := cmdTxCrcCode).2 ⟨rfl, rfl, rfl⟩
  | rfReqa | rfWupa => rfl
  | rfAnticollisionCl1 b known => exact (decodeRf_cl1 b known).trans (pickFrame_anticol (bne_iff_ne.1 hfits))
  | rfAnticollisionCl2 b known => exact (decodeRf_cl2 b known).trans (pickFrame_anticol (bne_iff_ne.1 hfits))
  | rfAnticollisionCl3 b known => exact (decodeRf_cl3 b known).trans (pickFrame_anticol (bne_iff_ne.1 hfits))
  | rfSelectCl1 level => exact (decodeRf_cl1 nvbFull _).trans (pickFrame_select (of_decide_eq_true hfits))
  | rfSelectCl2 level => exact (decodeRf_cl2 nvbFull _).trans (pickFrame_select (of_decide_eq_true hfits))
  | rfSelectCl3 level => exact (decodeRf_cl3 nvbFull _).trans (pickFrame_select (of_decide_eq_true hfits))
  | rfHlta => exact decodeRf_bytes 0x50 0x00 []
  | seqX | seqY | seqZ => rfl

/-- Settles O2: each word is the encoding of an instruction whose operands fit. -/
theorem writtenWordsDecode : Obligations.WrittenWordsDecode := by
  have hdecode {w : CodeWord} {i : Instr} (hencode : encode i = w) (hfits : i.encodable = true) : decode w = .ok i :=
    hencode ▸ decodeOfEncodeIsIdentity i hfits
  exact ⟨hdecode rfl rfl, hdecode rfl rfl, hdecode rfl rfl, hdecode rfl rfl, hdecode rfl rfl, hdecode rfl rfl,
    hdecode rfl rfl, hdecode rfl rfl, hdecode rfl rfl, hdecode rfl rfl, hdecode rfl rfl⟩

/-! ### Refused host commands (R103, R293) -/

/-- R22: an operation at the head of the inputs is taken and run. -/
theorem step_op {s : State} {w : CodeWord} {rest : List Input} (h : s.inputs = .op w :: rest) :
    step s = runWord w { s with inputs := rest } := by
  simp only [step, h]

/-- Settles O5: the byte is not in the opcode map. -/
theorem reservedOpcodeIsRefused : Obligations.ReservedOpcodeIsRefused := by
  intro s b operands rest hreserved hinputs hbusy
  have hnone : hostOpOf b = none := hostOpOf_eq_none_iff.2 hreserved
  have hdecode : decode (.host (b :: operands)) = .error .illegalOp := by simp only [decode, decodeHost, hnone]
  rw [step_op hinputs, runWord, hdecode]
  exact congrArg Outcome.next (issue_refused hbusy)

/-- R101: what the bytes of a `DM_TRANSCEIVE` after the seventh decode to is as many elements as they hold. -/
theorem exists_decodeElements {mode : Byte} {n : Nat} {rest : List Byte}
    (h : rest.length = (if mode = 0 then 1 else 2) * n) : ∃ send : List Unit16, send.length = n ∧
      (if mode = 0 then some (rest.map (·.setWidth 16)) else unitsOf rest) = some send := by
  by_cases hmode : mode = 0
  · refine ⟨rest.map (·.setWidth 16), ?_, if_pos hmode⟩
    rw [List.length_map, h, if_pos hmode, Nat.one_mul]
  · rw [if_neg hmode] at h
    obtain ⟨send, hlength, rfl⟩ := exists_unitsBytes h
    exact ⟨send, hlength, (if_neg hmode).trans (unitsOf_unitsBytes send)⟩

theorem sendBytesOf_length (mode : Byte) (send : List Unit16) :
    (sendBytesOf mode send).length = (if mode = 0 then 1 else 2) * send.length := by
  unfold sendBytesOf
  split
  · rw [List.length_map, Nat.one_mul]
  · exact unitsBytes_length send

/-- R90, R101: operand bytes that decode are as many as the opcode and the counts say. -/
theorem operandLength_of_decodeOperands {op : HostOp} {ops : List Byte} {i : Instr}
    (h : decodeOperands op ops = some i) : ops.length = operandLength op ops := by
  cases op with
  | csAssert | csDeassert | dmDisable | doAnticol | halt =>
    obtain ⟨rfl, rfl⟩ := decodeNone_eq_some_iff.1 h
    rfl
  | readReg | directCmd | dmEnable | reqa | selectFirst | selectNext =>
    obtain ⟨a, rfl, rfl⟩ := decodeByte_eq_some_iff.1 h
    rfl
  | setParity | checkParity | appendCrc | checkCrc =>
    obtain ⟨n, buf, rfl, hlength, rfl⟩ := decodeUnits_eq_some_iff.1 h
    obtain ⟨lo, hi, rfl⟩ := exists_u16Of n
    simp only [operandLength, u16Bytes_u16Of, List.cons_append, List.nil_append, List.length_cons, unitsBytes_length,
      hlength, List.getD_cons_zero, List.getD_cons_succ]
    omega
  | dmTransceive =>
    obtain ⟨mode, sendBytes, sendBits, recvBytes, recvBits, send, rfl, hlength, hbytes, rfl⟩ :=
      decodeTransceive_eq_some_iff.1 h
    obtain ⟨sl, sh, rfl⟩ := exists_u16Of sendBytes
    obtain ⟨rl, rh, rfl⟩ := exists_u16Of recvBytes
    simp only [operandLength, u16Bytes_u16Of, List.cons_append, List.nil_append, List.length_cons, sendBytesOf_length,
      hlength, List.getD_cons_zero, List.getD_cons_succ]
    omega
  | writeReg =>
    obtain ⟨addr, val, rfl, rfl⟩ := decodeOperands_writeReg_iff.1 h
    rfl
  | readCont =>
    obtain ⟨addr, n, rfl, rfl⟩ := decodeOperands_readCont_iff.1 h
    rfl
  | irqWait =>
    obtain ⟨lo, hi, rfl, rfl⟩ := decodeOperands_irqWait_iff.1 h
    rfl
  | writeCont =>
    obtain ⟨addr, n, data, rfl, hlength, rfl⟩ := decodeOperands_writeCont_iff.1 h
    simp only [operandLength, List.length_cons, hlength, List.getD_cons_zero, List.getD_cons_succ]
    omega
  | fifoWrite =>
    obtain ⟨lo, hi, data, rfl, hlength, rfl⟩ := decodeOperands_fifoWrite_iff.1 h
    simp only [operandLength, List.length_cons, hlength, List.getD_cons_zero, List.getD_cons_succ]
    omega
  | select =>
    obtain ⟨uidLen, uid, rfl, hlength, rfl⟩ := decodeOperands_select_iff.1 h
    simp only [operandLength, List.length_cons, hlength, List.getD_cons_zero]
    omega

theorem exists_two_bytes {ops : List Byte} (h : 2 ≤ ops.length) : ∃ a b rest, ops = a :: b :: rest := by
  match ops with
  | [] => simp at h
  | [_] => simp at h
  | a :: b :: rest => exact ⟨a, b, rest, rfl⟩

theorem exists_decodeUnits (mk : BitVec 16 → List Unit16 → Instr) {ops : List Byte}
    (h : ops.length = 2 + 2 * (u16Of (ops.getD 0 0) (ops.getD 1 0)).toNat) : ∃ i, decodeUnits mk ops = some i := by
  obtain ⟨lo, hi, rest, rfl⟩ := exists_two_bytes (by rw [h]; omega)
  have hrest : rest.length = 2 * (u16Of lo hi).toNat := by
    simp only [List.length_cons, List.getD_cons_zero, List.getD_cons_succ] at h
    omega
  obtain ⟨buf, hlength, rfl⟩ := exists_unitsBytes hrest
  exact ⟨_, decodeUnits_eq_some_iff.2 ⟨u16Of lo hi, buf, by rw [u16Bytes_u16Of]; rfl, hlength, rfl⟩⟩

theorem exists_decodeTransceive {ops : List Byte} (h : ops.length = operandLength .dmTransceive ops) :
    ∃ i, decodeTransceive ops = some i := by
  have hlong : 7 ≤ ops.length := by rw [h, operandLength]; omega
  obtain ⟨mode, sl, ops, rfl⟩ := exists_two_bytes (ops := ops) (by omega)
  obtain ⟨sh, sendBits, ops, rfl⟩ := exists_two_bytes (ops := ops) (by simp only [List.length_cons] at hlong; omega)
  obtain ⟨rl, rh, ops, rfl⟩ := exists_two_bytes (ops := ops) (by simp only [List.length_cons] at hlong; omega)
  obtain ⟨recvBits, rest, rfl⟩ := List.exists_cons_of_length_pos (l := ops)
    (by simp only [List.length_cons] at hlong; omega)
  have hrest : rest.length = (if mode = 0 then 1 else 2) * sendElems (u16Of sl sh) sendBits := by
    simp only [operandLength, List.length_cons, List.getD_cons_zero, List.getD_cons_succ] at h
    omega
  obtain ⟨send, hlength, hsend⟩ := exists_decodeElements hrest
  exact ⟨.dmTransceive mode (u16Of sl sh) sendBits (u16Of rl rh) recvBits send, by
    simp only [decodeTransceive, hsend, if_pos hlength]⟩

/-- R90, R101: as many operand bytes as the opcode and the counts say decode. -/
theorem exists_decodeOperands {op : HostOp} {ops : List Byte} (h : ops.length = operandLength op ops) :
    ∃ i, decodeOperands op ops = some i := by
  cases op with
  | csAssert | csDeassert | dmDisable | doAnticol | halt =>
    exact ⟨_, decodeNone_eq_some_iff.2 ⟨List.length_eq_zero_iff.1 h, rfl⟩⟩
  | readReg | directCmd | dmEnable | reqa | selectFirst | selectNext =>
    obtain ⟨a, rfl⟩ := List.length_eq_one_iff.1 h
    exact ⟨_, decodeByte_eq_some_iff.2 ⟨a, rfl, rfl⟩⟩
  | setParity | checkParity | appendCrc | checkCrc => exact exists_decodeUnits _ h
  | dmTransceive => exact exists_decodeTransceive h
  | writeReg =>
    obtain ⟨addr, val, rfl⟩ := List.length_eq_two.1 h
    exact ⟨_, decodeOperands_writeReg_iff.2 ⟨addr, val, rfl, rfl⟩⟩
  | readCont =>
    obtain ⟨addr, n, rfl⟩ := List.length_eq_two.1 h
    exact ⟨_, decodeOperands_readCont_iff.2 ⟨addr, n, rfl, rfl⟩⟩
  | irqWait =>
    obtain ⟨lo, hi, rfl⟩ := List.length_eq_two.1 h
    exact ⟨_, decodeOperands_irqWait_iff.2 ⟨lo, hi, rfl, rfl⟩⟩
  | writeCont =>
    obtain ⟨addr, n, data, rfl⟩ := exists_two_bytes (by rw [h, operandLength]; omega)
    exact ⟨_, decodeOperands_writeCont_iff.2 ⟨addr, n, data, rfl, by
      simp only [operandLength, List.length_cons, List.getD_cons_zero, List.getD_cons_succ] at h; omega, rfl⟩⟩
  | fifoWrite =>
    obtain ⟨lo, hi, data, rfl⟩ := exists_two_bytes (by rw [h, operandLength]; omega)
    exact ⟨_, decodeOperands_fifoWrite_iff.2 ⟨lo, hi, data, rfl, by
      simp only [operandLength, List.length_cons, List.getD_cons_zero, List.getD_cons_succ] at h; omega, rfl⟩⟩
  | select =>
    obtain ⟨uidLen, uid, rfl⟩ := List.exists_cons_of_length_pos (by rw [h, operandLength]; omega)
    exact ⟨_, decodeOperands_select_iff.2 ⟨uidLen, uid, rfl, by
      simp only [operandLength, List.length_cons, List.getD_cons_zero] at h; omega, rfl⟩⟩

theorem guardOf_withInputs (op : HostOp) (s : State) (rest : List Input) :
    guardOf op { s with inputs := rest } = guardOf op s := by
  cases op <;> rfl

theorem issueMalformed_eq {s : State} (op : HostOp) (h : s.busy = false) :
    issueMalformed op s = s.respond (.status ((guardOf op s).getD .badOperand) []) := issue_badOperand h

/-- Settles O6: the operand bytes decode exactly when their number fits, and a command that does not is refused. -/
theorem malformedCommandIsRefused : Obligations.MalformedCommandIsRefused := by
  intro op operands
  have hdecodes : (∃ i, decode (.host (opcodeOf op :: operands)) = .ok i) ↔
      operands.length = operandLength op operands := by
    refine ⟨fun ⟨i, hi⟩ => ?_, fun hlength => ?_⟩
    · exact operandLength_of_decodeOperands (decode_hostWord_eq_ok_iff.1 hi)
    · obtain ⟨i, hi⟩ := exists_decodeOperands hlength
      exact ⟨i, decode_hostWord_eq_ok_iff.2 hi⟩
  refine ⟨hdecodes, fun hlength s rest hinputs hbusy => ?_⟩
  have hnone : decodeOperands op operands = none :=
    Option.eq_none_iff_forall_ne_some.2 fun i hi => hlength (operandLength_of_decodeOperands hi)
  have hdecode : decode (.host (opcodeOf op :: operands)) = .error (.badOperand op) := decode_hostWord_of_none hnone
  have hrefused := issueMalformed_eq (s := { s with inputs := rest }) op hbusy
  rw [guardOf_withInputs] at hrefused
  rw [step_op hinputs, runWord, hdecode]
  exact congrArg Outcome.next hrefused

/-- R101, R103: the check of `DM_TRANSCEIVE` covers what its encoding asks of the operands. -/
theorem wellFormed_dmTransceive (mode sendBits recvBits : Byte) (sendBytes recvBytes : BitVec 16) (send : List Unit16) :
    (Instr.dmTransceive mode sendBytes sendBits recvBytes recvBits send).wellFormed =
      okTransceive mode sendBytes sendBits recvBits send := by
  simp only [Instr.wellFormed, Instr.encodable, okTransceive]
  grind

theorem wellFormed_select (uidLen : Byte) (uid : List Byte) :
    (Instr.select uidLen uid).wellFormed = okSelect uidLen uid := by
  rw [Instr.wellFormed, Instr.encodable, okSelect, Bool.and_left_comm, Bool.and_self]

/-- R293: a host operation is issued with its guard and with the check of its operands. -/
theorem exec_hostOp {i : Instr} {op : HostOp} (h : hostOp i = some op) (s : State) :
    ∃ ok body, i.wellFormed = ok ∧ exec i s = .next (issue (refusal (guardOf op s) ok) body s) := by
  cases i with
  | csAssert | csDeassert | writeReg | readReg | readCont | directCmd | irqWait | dmEnable | dmDisable | reqa
  | doAnticol | selectFirst | selectNext | halt =>
    obtain rfl := Option.some.inj h
    exact ⟨_, _, rfl, rfl⟩
  | fifoWrite =>
    obtain rfl := Option.some.inj h
    exact ⟨_, _, Bool.and_true _, rfl⟩
  | setParity | checkParity | checkCrc =>
    obtain rfl := Option.some.inj h
    exact ⟨_, _, Bool.and_self _, rfl⟩
  | writeCont | appendCrc =>
    obtain rfl := Option.some.inj h
    exact ⟨_, _, Bool.and_self_left _ _, rfl⟩
  | dmTransceive =>
    obtain rfl := Option.some.inj h
    exact ⟨_, _, wellFormed_dmTransceive _ _ _ _ _ _, rfl⟩
  | select =>
    obtain rfl := Option.some.inj h
    exact ⟨_, _, wellFormed_select _ _, rfl⟩
  | spiWriteSingle | spiWriteCont | spiReadSingle | spiReadCont | spiDirectCmd | cmdSoftInit | cmdResetFifo | cmdTxNocrc
  | cmdTxCrc | rfReqa | rfWupa | rfAnticollisionCl1 | rfAnticollisionCl2 | rfAnticollisionCl3 | rfSelectCl1
  | rfSelectCl2 | rfSelectCl3 | rfHlta | seqX | seqY | seqZ => cases h

/-- Settles O9: the check of the operands fails, and what refuses is the guard or the check. -/
theorem operandOutOfRangeIsRefused : Obligations.OperandOutOfRangeIsRefused := by
  intro i op s hop hbad hbusy
  obtain ⟨ok, body, hok, hexec⟩ := exec_hostOp hop s
  rw [RefusedIn, hexec, ← hok, hbad, issue_badOperand hbusy]

/-! ### Sequences and frames on the modulation output (R115 to R119, R188) -/

theorem phyGuard_disabled {s : State} (h : s.dmEnabled = false) : phyGuard s = some .phyNotEnabled := by
  rw [phyGuard, h]; rfl

theorem phyGuard_enabled {s : State} (h : s.dmEnabled = true) : phyGuard s = none := if_pos h

/-- R115, R185: an instruction that issues slots is refused while direct mode is disabled and emits them otherwise. -/
theorem slots_issued {i : Instr} {slots : List Bit}
    (hexec : ∀ s, exec i s = .next (issue (refusal (phyGuard s) true) (fun t => (.status .ok [], emitSlots slots t)) s))
    {s : State} (hbusy : s.busy = false) :
    (s.dmEnabled = false → RefusedIn i s .phyNotEnabled) ∧
      (s.dmEnabled = true → exec i s = .next { s with
        trace := s.trace ++ slots.map .mod, responses := s.responses ++ [.status .ok []] }) := by
  refine ⟨fun hoff => ?_, fun hon => ?_⟩
  · rw [RefusedIn, hexec, phyGuard_disabled hoff, refusal_some, issue_refused hbusy]
  · have hended : (emitSlots slots s.running).ended (.status .ok []) = { s with
        busy := false, trace := s.trace ++ slots.map .mod, responses := s.responses ++ [.status .ok []] } := rfl
    rw [hexec, phyGuard_enabled hon, issue_starts hbusy, hended, ← hbusy]

/-- Settles O34: the three sequences issue their slots. -/
theorem sequenceRowsEmitTheirSlots : Obligations.SequenceRowsEmitTheirSlots := by
  intro p hp
  simp only [List.mem_cons, List.not_mem_nil, or_false] at hp
  rcases hp with rfl | rfl | rfl
  · exact ⟨decodeOfEncodeIsIdentity .seqX rfl, fun _ => slots_issued fun _ => rfl⟩
  · exact ⟨decodeOfEncodeIsIdentity .seqY rfl, fun _ => slots_issued fun _ => rfl⟩
  · exact ⟨decodeOfEncodeIsIdentity .seqZ rfl, fun _ => slots_issued fun _ => rfl⟩

theorem seqSlots_true (rule : MillerRule) (prev : Option Bit) : seqSlots rule prev true = slotsX := by
  cases rule <;> rfl

theorem seqSlots_length (rule : MillerRule) (prev : Option Bit) (b : Bit) : (seqSlots rule prev b).length = 4 := by
  unfold seqSlots
  split <;> rfl

/-- R188, R119: every bit by its predecessor, a 0 after the last, and Y. -/
theorem dataSlots_eq (rule : MillerRule) (prev : Option Bit) (tx : List Bit) : dataSlots rule prev tx =
    (List.zipWith (seqSlots rule) (prev :: tx.map some) (tx ++ [false])).flatten ++ slotsY := by
  induction tx generalizing prev with
  | nil => simp [dataSlots]
  | cons b tx ih => simp [dataSlots, ih]

theorem dataSlots_length (rule : MillerRule) (prev : Option Bit) (tx : List Bit) :
    (dataSlots rule prev tx).length = 4 * (tx.length + 2) := by
  induction tx generalizing prev with
  | nil => rw [dataSlots, List.length_append, seqSlots_length]; rfl
  | cons b tx ih => rw [dataSlots, List.length_append, seqSlots_length, ih, List.length_cons]; omega

theorem frameSlots_of_ne_nil (P : Params) {tx : List Bit} (h : tx ≠ []) :
    frameSlots P tx = (if P.txSof then slotsZ else []) ++ dataSlots P.millerRule none tx := by
  cases tx with
  | nil => exact absurd rfl h
  | cons b tx => rfl

/-- Settles O30, by the slots of the data bits. -/
theorem frameIsItsSequences : Obligations.FrameIsItsSequences := by
  refine ⟨seqSlots_true _, seqSlots_true _, rfl, rfl, rfl, rfl, rfl, rfl, fun P => ⟨rfl, fun tx htx => ⟨?_, ?_⟩⟩⟩
  · rw [frameSlots_of_ne_nil P htx, dataSlots_eq, List.append_assoc]
    rfl
  · have hstart : (if P.txSof then slotsZ else []).length = 4 * (if P.txSof then 1 else 0) := by
      cases P.txSof <;> rfl
    rw [frameSlots_of_ne_nil P htx, List.length_append, dataSlots_length, hstart]
    omega

/-! ### The set-up of an exchange (R97, R162) -/

/-- R97: the second length byte as a number. -/
theorem txLen2_eq {bytes bits : Nat} (hbits : bits < 8) :
    txLen2 bytes bits = BitVec.ofNat 8 (bytes % 16 * 16 + bits * 2 + if bits = 0 then 0 else 1) := by
  have hall : ∀ a < 16, ∀ b < 8,
      (BitVec.ofNat 8 a <<< 4) ||| (BitVec.ofNat 8 b <<< 1) ||| (if b = 0 then 0#8 else 1#8) =
        BitVec.ofNat 8 (a * 16 + b * 2 + if b = 0 then 0 else 1) := by decide
  exact hall _ (Nat.mod_lt _ (by decide)) _ hbits

theorem ringClear_eq {P : Params} {s : State} (h : s.fifoOvf = false) :
    ringClear P s = { s with ring := { s.ring with rd := 0, wr := 0, count := 0 } } := by
  unfold ringClear
  exact ringUnspecified_of_ok h

/-- Settles O41, transaction by transaction. -/
theorem exchangeSetUpBeforeData : Obligations.ExchangeSetUpBeforeData := by
  intro P kind tx s hovf
  have hbits : tx.length % 8 < 8 := Nat.mod_lt _ (by decide)
  have hfirst : txLen1 (tx.length / 8) = BitVec.ofNat 8 (tx.length / 128) := by rw [txLen1, Nat.div_div_eq_div_mul]
  have hcmd : spiWriteContByte regTxLen1 = 0x3D := rfl
  simp only [exchangeSetup, ringClear_eq, hovf, writeReg_eq, directCmd_eq, writeCont_eq, hfirst, txLen2_eq hbits, hcmd,
    List.map_cons, List.map_nil, beq_iff_eq]

/-! ### Frames issued by themselves (R106 to R114, R245) -/

/-- R109: the NVB byte is the number that its formula says. -/
theorem nvb_eq_nvbByte (k : Nat) : nvb k = nvbByte k := by
  have hshift (m : Nat) : BitVec.ofNat 8 m <<< 4 = BitVec.ofNat 8 (m <<< 4) := BitVec.eq_of_toNat_eq (by
    simp only [BitVec.toNat_shiftLeft, BitVec.toNat_ofNat, Nat.shiftLeft_eq]; omega)
  rw [nvb, nvbByte, BitVec.ofNat_or, hshift]

theorem okAnticol_eq_true_iff {b : Byte} {known : List Bit} :
    okAnticol b known = true ↔ known.length < 40 ∧ b = nvbByte known.length := by
  rw [okAnticol, Bool.and_eq_true, decide_eq_true_eq, beq_iff_eq, nvb_eq_nvbByte, levelBits]

theorem okAnticol_eq_false_iff {b : Byte} {known : List Bit} :
    okAnticol b known = false ↔ 40 ≤ known.length ∨ b ≠ nvbByte known.length := by
  rw [← Bool.not_eq_true, okAnticol_eq_true_iff, not_and_or, Nat.not_lt]

/-- R140: each row is issued under the guard of the operations. -/
theorem rfRow_sessionGuarded (b : Byte) (known : List Bit) (level : List Byte) :
    ∀ i ∈ [Instr.rfReqa, .rfWupa, .rfAnticollisionCl1 b known, .rfAnticollisionCl2 b known, .rfAnticollisionCl3 b known,
      .rfSelectCl1 level, .rfSelectCl2 level, .rfSelectCl3 level, .rfHlta], SessionGuarded i := by
  intro i hi
  simp only [List.mem_cons, List.not_mem_nil, or_false] at hi
  rcases hi with rfl | rfl | rfl | rfl | rfl | rfl | rfl | rfl | rfl <;>
    exact sessionGuarded_of_issue fun _ => ⟨_, rfl⟩

/-- R245: an instruction that is a frame, its operands in range, is the exchange of the frame. -/
theorem frameRow_exchanges {i : Instr} {ok : Bool} {kind : ExchKind} {tx : List Bit} {wantRx : Bool} {s : State}
    (hs : s.SeqReady) (hexec : exec i s = .next (frameExchange ok kind tx wantRx s)) (hok : ok = true) :
    exec i s = .next ((exchangeSeq params kind tx wantRx s.running).2.ended
        (.exchange (exchangeSeq params kind tx wantRx s.running).1)) ∧
      ExchangeWrites s.running (exchangeSeq params kind tx wantRx s.running).2 := by
  refine ⟨?_, exchangeSeq_writes _ _ _ _ _⟩
  rw [hexec, frameExchange, seqGuard_closed hs.2, hok, issue_starts hs.1]

/-- R103: with its operands out of range it is refused. -/
theorem frameRow_refused {i : Instr} {ok : Bool} {kind : ExchKind} {tx : List Bit} {wantRx : Bool} {s : State}
    (hs : s.SeqReady) (hexec : exec i s = .next (frameExchange ok kind tx wantRx s)) (hok : ok = false) :
    RefusedIn i s .badOperand :=
  hexec.trans (congrArg Outcome.next (seqIssue_badOperand hs hok))

/-- Settles O43, row by row. -/
theorem frameRowsAreTheirExchanges : Obligations.FrameRowsAreTheirExchanges := by
  refine ⟨rfRow_sessionGuarded, fun s hs b known level => ?_⟩
  refine ⟨fun hknown hnvb hlevel => ?_, fun hbad => ?_, fun hbad => ?_⟩
  · have hanticol := okAnticol_eq_true_iff.2 ⟨hknown, hnvb⟩
    have hselect : okLevel level = true := decide_eq_true hlevel
    simp only [List.forall_mem_cons]
    exact ⟨frameRow_exchanges hs rfl rfl, frameRow_exchanges hs rfl rfl, frameRow_exchanges hs rfl hanticol,
      frameRow_exchanges hs rfl hanticol, frameRow_exchanges hs rfl hanticol, frameRow_exchanges hs rfl hselect,
      frameRow_exchanges hs rfl hselect, frameRow_exchanges hs rfl hselect, frameRow_exchanges hs rfl rfl,
      fun _ hp => absurd hp List.not_mem_nil⟩
  · have hanticol := okAnticol_eq_false_iff.2 hbad
    simp only [List.forall_mem_cons]
    exact ⟨frameRow_refused hs rfl hanticol, frameRow_refused hs rfl hanticol, frameRow_refused hs rfl hanticol,
      fun _ hi => absurd hi List.not_mem_nil⟩
  · have hselect : okLevel level = false := decide_eq_false hbad
    simp only [List.forall_mem_cons]
    exact ⟨frameRow_refused hs rfl hselect, frameRow_refused hs rfl hselect, frameRow_refused hs rfl hselect,
      fun _ hi => absurd hi List.not_mem_nil⟩

/-! ### `DO_ANTICOL` (R255) -/

theorem answer_map_uidResults (r : Except Status (List Byte × Byte)) : answer (r.map uidResults) = searchAnswer r := by
  cases r <;> rfl

/-- Settles O50, by the search on the record as it stands. -/
theorem doAnticolRunsOnTheSingleton : Obligations.DoAnticolRunsOnTheSingleton := by
  refine ⟨decodeOfEncodeIsIdentity .doAnticol rfl, sessionGuarded_of_issue fun _ => ⟨_, rfl⟩, fun s hs =>
    ⟨doAnticol_writes _ _ _, ?_⟩⟩
  have hexec : exec .doAnticol s = .next (issue (refusal (seqGuard s) true)
    (fun t => (answer (doAnticolSingleton params t).1, (doAnticolSingleton params t).2)) s) := rfl
  rw [hexec, seqGuard_closed hs.2, issue_starts hs.1, doAnticolSingleton, answer_map_uidResults]
  rfl

/-! ### The rounds of a level (R255, R257 to R259, R263) -/

theorem bitPos_of_mergeAll {st st' : AnticolState} {base known : Nat} {bits : List Bit}
    (h : mergeAll st base known bits = .ok st') : st'.bitPos = base + levelBits := by
  unfold mergeAll at h
  split at h
  · cases h
  · obtain rfl := Except.ok.inj h
    rfl

theorem bitPos_of_mergeToCollision {st st' : AnticolState} {base known p : Nat} {bits : List Bit}
    (h : mergeToCollision st base known bits p = .ok st') : known ≤ p ∧ st'.bitPos = base + p + 1 := by
  unfold mergeToCollision at h
  split at h
  · cases h
  · next hp =>
    split at h
    · cases h
    · obtain rfl := Except.ok.inj h
      exact ⟨by omega, rfl⟩

theorem badLength_of_mergeAll {st : AnticolState} {base known : Nat} {bits : List Bit} {e : Status}
    (h : mergeAll st base known bits = .error e) : e = .badLength := by
  unfold mergeAll at h
  split at h
  · exact (Except.error.inj h).symm
  · cases h

theorem badCollpos_or_badLength_of_mergeToCollision {st : AnticolState} {base known p : Nat} {bits : List Bit}
    {e : Status} (h : mergeToCollision st base known bits p = .error e) : e = .badCollpos ∨ e = .badLength := by
  unfold mergeToCollision at h
  split at h
  · exact .inl (Except.error.inj h).symm
  · split at h
    · exact .inr (Except.error.inj h).symm
    · cases h

/-- R263: a round that does not fail makes more of the level known. -/
theorem known_lt_of_mergeAnswer {st st' : AnticolState} {lvl : Nat} {r : ExchResult}
    (hknown : st.known lvl < levelBits) (h : mergeAnswer st lvl r = .ok st') : st.known lvl < st'.known lvl := by
  have hlevel : levelBits = 40 := rfl
  cases r with
  | noResponse | error c => cases h
  | frame bits coll =>
    cases coll with
    | none =>
      have hpos := bitPos_of_mergeAll h
      have hall : st'.known lvl = levelBits := by rw [AnticolState.known, hpos]; omega
      omega
    | some p =>
      obtain ⟨hp, hpos⟩ := bitPos_of_mergeToCollision h
      have hmore : st'.known lvl = min levelBits (p + 1) := by rw [AnticolState.known, hpos]; congr 1; omega
      omega

section
variable {P : Params} {lvl n : Nat} {st st1 : AnticolState} {s s1 : State}

theorem anticolRounds_known (h : ¬ st.known lvl < levelBits) : anticolRounds P lvl n st s = (.ok (), st, s) := by
  cases n with
  | zero => rfl
  | succ n => exact if_neg h

theorem anticolRounds_fails {e : Status} (hknown : st.known lvl < levelBits)
    (h : mergeAnswer st lvl (anticolExchange P lvl st s).1 = .error e) :
    anticolRounds P lvl (n + 1) st s = (.error e, st, (anticolExchange P lvl st s).2) := by
  simp only [anticolRounds, if_pos hknown, h]

theorem anticolRounds_goesOn (hknown : st.known lvl < levelBits)
    (h : mergeAnswer st lvl (anticolExchange P lvl st s).1 = .ok st1) :
    anticolRounds P lvl (n + 1) st s = anticolRounds P lvl n st1 (anticolExchange P lvl st s).2 := by
  simp only [anticolRounds, if_pos hknown, h]

/-- R263: rounds enough for the bits still open leave none. -/
theorem known_of_anticolRounds (hn : levelBits ≤ st.known lvl + n)
    (h : anticolRounds P lvl n st s = (.ok (), st1, s1)) : st1.known lvl = levelBits := by
  have hle (st : AnticolState) : st.known lvl ≤ levelBits := Nat.min_le_left _ _
  induction n generalizing st s with
  | zero =>
    cases h
    exact Nat.le_antisymm (hle _) hn
  | succ n ih =>
    by_cases hknown : st.known lvl < levelBits
    · cases hmerge : mergeAnswer st lvl (anticolExchange P lvl st s).1 with
      | error e => rw [anticolRounds_fails hknown hmerge] at h; cases h
      | ok st' =>
        rw [anticolRounds_goesOn hknown hmerge] at h
        have hmore := known_lt_of_mergeAnswer hknown hmerge
        exact ih (by omega) h
    · rw [anticolRounds_known hknown] at h
      cases h
      exact Nat.le_antisymm (hle _) (Nat.le_of_not_lt hknown)

/-- R255, R109: the exchange of a round, its frame by the rules' formulas. -/
theorem anticolExchange_eq : anticolExchange P lvl st s =
    exchangeSeq P .anticol (bits8 (P.rfSel lvl) ++ bits8 (nvbByte (knownBits lvl st)) ++
      (List.range (knownBits lvl st)).map fun i => st.uidBit (40 * (lvl - 1) + i)) true s := by
  rw [anticolExchange, nvb_eq_nvbByte]
  rfl

/-- A round that fails ends the search. -/
theorem search_of_round_fails {e : Status} (hlvl : lvl ≤ 3) (hknown : st.known lvl < levelBits)
    (h : mergeAnswer st lvl (anticolExchange P lvl st s).1 = .error e) :
    Search P lvl st s (.error e) st (anticolExchange P lvl st s).2 := by
  refine .roundFails lvl st s _ (anticolExchange P lvl st s).1 e hlvl hknown anticolExchange_eq.symm ?_
  cases hr : (anticolExchange P lvl st s).1 with
  | noResponse =>
    rw [hr] at h
    exact .inl ⟨rfl, (Except.error.inj h).symm⟩
  | error c =>
    rw [hr] at h
    exact .inr (.inl ⟨⟨c, rfl⟩, (Except.error.inj h).symm⟩)
  | frame bits coll =>
    rw [hr] at h
    cases coll with
    | none => exact .inr (.inr (.inl ⟨bits, rfl, h⟩))
    | some p => exact .inr (.inr (.inr ⟨bits, p, rfl, h⟩))

/-- After a round that is merged the search is at the same level. -/
theorem search_of_round {u : Except Status (List Byte × Byte)} {st2 : AnticolState} {t : State} (hlvl : lvl ≤ 3)
    (hknown : st.known lvl < levelBits) (h : mergeAnswer st lvl (anticolExchange P lvl st s).1 = .ok st1)
    (next : Search P lvl st1 (anticolExchange P lvl st s).2 u st2 t) : Search P lvl st s u st2 t := by
  refine .round lvl st st1 st2 s _ t (anticolExchange P lvl st s).1 u hlvl hknown anticolExchange_eq.symm ?_ next
  cases hr : (anticolExchange P lvl st s).1 with
  | noResponse | error c => rw [hr] at h; cases h
  | frame bits coll =>
    rw [hr] at h
    cases coll with
    | none => exact .inl ⟨bits, rfl, h⟩
    | some p => exact .inr ⟨bits, p, rfl, h⟩

/-- The rounds of a level that fail end the search. -/
theorem search_of_rounds_fail {e : Status} (hlvl : lvl ≤ 3) (h : anticolRounds P lvl n st s = (.error e, st1, s1)) :
    Search P lvl st s (.error e) st1 s1 := by
  induction n generalizing st s with
  | zero => cases h
  | succ n ih =>
    by_cases hknown : st.known lvl < levelBits
    · cases hmerge : mergeAnswer st lvl (anticolExchange P lvl st s).1 with
      | error e' =>
        rw [anticolRounds_fails hknown hmerge] at h
        cases h
        exact search_of_round_fails hlvl hknown hmerge
      | ok st' =>
        rw [anticolRounds_goesOn hknown hmerge] at h
        exact search_of_round hlvl hknown hmerge (ih h)
    · rw [anticolRounds_known hknown] at h
      cases h

/-- After the rounds of a level the search is at the same level. -/
theorem search_of_rounds {u : Except Status (List Byte × Byte)} {st2 : AnticolState} {t : State} (hlvl : lvl ≤ 3)
    (h : anticolRounds P lvl n st s = (.ok (), st1, s1)) (next : Search P lvl st1 s1 u st2 t) :
    Search P lvl st s u st2 t := by
  induction n generalizing st s with
  | zero => cases h; exact next
  | succ n ih =>
    by_cases hknown : st.known lvl < levelBits
    · cases hmerge : mergeAnswer st lvl (anticolExchange P lvl st s).1 with
      | error e => rw [anticolRounds_fails hknown hmerge] at h; cases h
      | ok st' =>
        rw [anticolRounds_goesOn hknown hmerge] at h
        exact search_of_round hlvl hknown hmerge (ih h)
    · rw [anticolRounds_known hknown] at h
      cases h
      exact next

end

/-! ### The levels (R255, R260, R261) -/

theorem sakOf_frame (bits : List Bit) :
    sakOf (.frame bits none) = if bits.length ≠ 8 then .error .badLength else .ok (byteOfBits bits) := rfl

/-- R260, R246: how the answer to a SELECT fails. -/
theorem sakOf_eq_error {r : ExchResult} {e : Status} (h : sakOf r = .error e) :
    (r = .noResponse ∧ e = .noResponse) ∨ ((∃ c, r = .error c) ∧ e = .frameError) ∨
      ((∃ bits p, r = .frame bits (some p)) ∧ e = .frameError) ∨
      ((∃ bits, r = .frame bits none ∧ bits.length ≠ 8) ∧ e = .badLength) := by
  cases r with
  | noResponse => exact .inl ⟨rfl, (Except.error.inj h).symm⟩
  | error c => exact .inr (.inl ⟨⟨c, rfl⟩, (Except.error.inj h).symm⟩)
  | frame bits coll =>
    cases coll with
    | some p => exact .inr (.inr (.inl ⟨⟨bits, p, rfl⟩, (Except.error.inj h).symm⟩))
    | none =>
      rw [sakOf_frame] at h
      split at h
      · next hlength => exact .inr (.inr (.inr ⟨⟨bits, rfl, hlength⟩, (Except.error.inj h).symm⟩))
      · cases h

/-- R260: the answer that has a SAK is its eight bits. -/
theorem sakOf_eq_ok {r : ExchResult} {sak : Byte} (h : sakOf r = .ok sak) : r = .frame (bits8 sak) none := by
  cases r with
  | noResponse | error c => cases h
  | frame bits coll =>
    cases coll with
    | some p => cases h
    | none =>
      rw [sakOf_frame] at h
      split at h
      · cases h
      · next hlength =>
        obtain rfl := Except.ok.inj h
        rw [bits8_byteOfBits (not_not.1 hlength)]

/-- R255: with as many levels left as there are up to the third, the search is in the relation. -/
theorem searchLevels_search (P : Params) (n lvl : Nat) (hn : lvl + n = 4) (st : AnticolState) (s : State) :
    Search P lvl st s (searchLevels P n lvl st s).1 (searchLevels P n lvl st s).2.1 (searchLevels P n lvl st s).2.2 := by
  induction n generalizing lvl st s with
  | zero => exact .overflow lvl st s (by omega)
  | succ n ih =>
    have hlvl : lvl ≤ 3 := by omega
    unfold searchLevels
    split
    · next e st1 s1 hrounds => exact search_of_rounds_fail hlvl hrounds
    · next st1 s1 hrounds =>
      have hknown := known_of_anticolRounds (Nat.le_add_left _ _) hrounds
      refine search_of_rounds hlvl hrounds ?_
      dsimp only
      split
      · next e hsak => exact .selectFails lvl st1 s1 _ _ e hlvl hknown rfl (sakOf_eq_error hsak)
      · next sak hsak =>
        have hx : selectExchange P lvl st1 s1 = (.frame (bits8 sak) none, (selectExchange P lvl st1 s1).2) :=
          Prod.ext (sakOf_eq_ok hsak) rfl
        split
        · next hmore => exact .selectMore lvl st1 _ s1 _ _ sak _ hlvl hknown hx hmore (ih (lvl + 1) (by omega) st1 _)
        · next hlast => exact .selectLast lvl st1 s1 _ sak hlvl hknown hx (Bool.eq_false_of_not_eq_true hlast)

/-- R261: the five ways a search fails. -/
theorem Search.failures {P : Params} {lvl : Nat} {st st' : AnticolState} {s t : State}
    {r : Except Status (List Byte × Byte)} (h : Search P lvl st s r st' t) {e : Status} (hr : r = .error e) :
    e ∈ [Status.cascadeOverflow, .badLength, .badCollpos, .noResponse, .frameError] := by
  induction h with
  | overflow => cases hr; decide
  | roundFails _ _ _ _ _ _ _ _ _ he =>
    cases hr
    rcases he with ⟨-, rfl⟩ | ⟨-, rfl⟩ | ⟨bits, -, hmerge⟩ | ⟨bits, p, -, hmerge⟩
    · decide
    · decide
    · rw [badLength_of_mergeAll hmerge]; decide
    · rcases badCollpos_or_badLength_of_mergeToCollision hmerge with rfl | rfl
      · decide
      · decide
  | round _ _ _ _ _ _ _ _ _ _ _ _ _ _ ih => exact ih hr
  | selectFails _ _ _ _ _ _ _ _ _ he =>
    cases hr
    rcases he with ⟨-, rfl⟩ | ⟨-, rfl⟩ | ⟨-, rfl⟩ | ⟨-, rfl⟩
    · decide
    · decide
    · decide
    · decide
  | selectMore _ _ _ _ _ _ _ _ _ _ _ _ _ ih => exact ih hr
  | selectLast => cases hr

/-- Settles O47: the search is in the relation, which fails in five ways only. -/
theorem searchFollowsItsRule : Obligations.SearchFollowsItsRule :=
  have hsearch (P : Params) (st : AnticolState) (s : State) := searchLevels_search P maxCascade 1 rfl st s
  ⟨hsearch, fun P st s _ he => (hsearch P st s).failures he⟩

end Sys2Proof.Machine

/-! PROOFS. The family `40_seq.md`: the SEQ operations and the guard they share with ACE (R140 to R154), the IRQ wait (R156,
R157, R163), the ring (R160) and the exchange (R162). -/

namespace Sys2Proof.Machine

open Host (Outcome)

/-! ### The guard, and operations that start (R140, R292) -/

/-- R140, R241: the operations with the guard of the open session. -/
theorem guardOf_seqAce {op : HostOp}
    (h : op ∈ ([.csAssert, .csDeassert, .writeReg, .readReg, .writeCont, .readCont, .directCmd, .fifoWrite, .irqWait,
      .reqa, .doAnticol, .selectFirst, .selectNext, .select, .halt] : List HostOp)) : guardOf op = seqGuard := by
  simp only [List.mem_cons, List.not_mem_nil, or_false] at h
  rcases h with rfl | rfl | rfl | rfl | rfl | rfl | rfl | rfl | rfl | rfl | rfl | rfl | rfl | rfl | rfl <;> rfl

/-- Settles O8: the guard of each of the fifteen is that of R140. -/
theorem openSessionRefusesSeqAndAce : Obligations.OpenSessionRefusesSeqAndAce := by
  intro i op hop hmem s hbusy hopen
  obtain ⟨ok, body, -, hexec⟩ := exec_hostOp hop s
  rw [RefusedIn, hexec, guardOf_seqAce hmem, seqGuard_open hopen, refusal_some, issue_refused hbusy]

/-- R140, R292: with no session open and its operands in range, an operation runs its body and ends. -/
theorem seqIssue_runs {s : State} {ok : Bool} {body : State → Response × State} (hs : s.SeqReady) (hok : ok = true) :
    issue (refusal (seqGuard s) ok) body s = (body s.running).2.ended (body s.running).1 := by
  rw [hok, seqGuard_closed hs.2, issue_starts hs.1]

/-! ### Chip select (R141, R142) -/

theorem csLow_unless_low (s : State) : (if s.cs then s else csLow s) =
    { s with cs := true, trace := s.trace ++ if s.cs then [] else [.csLow] } := by
  cases hcs : s.cs with
  | false => rfl
  | true => rw [if_pos rfl, if_pos rfl, List.append_nil, ← hcs]

theorem csHigh_unless_high (s : State) : (if s.cs then csHigh s else s) =
    { s with cs := false, trace := s.trace ++ if s.cs then [.csHigh] else [] } := by
  cases hcs : s.cs with
  | false =>
    have hnone : (if false then [Event.csHigh] else []) = [] := rfl
    rw [if_neg Bool.false_ne_true, hnone, List.append_nil, ← hcs]
  | true => rfl

/-- R141, R142: an operation that writes the chip select and emits. -/
theorem seqIssue_setsCs {s : State} {body : State → Response × State} {r : Response} {c : Bool} {tr : List Event}
    (hs : s.SeqReady) (hbody : body s.running = (r, { s.running with cs := c, trace := tr })) :
    issue (refusal (seqGuard s) true) body s = { s with cs := c, trace := tr, responses := s.responses ++ [r] } := by
  have hended : ({ s.running with cs := c, trace := tr } : State).ended r =
      { s with busy := false, cs := c, trace := tr, responses := s.responses ++ [r] } := rfl
  rw [seqIssue_runs hs rfl, hbody, hended, ← hs.1]

/-- Settles O11, by what the chip select was. -/
theorem csAssertLowersChipSelect : Obligations.CsAssertLowersChipSelect :=
  ⟨decode_hostWord (op := .csAssert) rfl, sessionGuarded_of_issue fun _ => ⟨_, rfl⟩, fun s hs =>
    congrArg Outcome.next <| seqIssue_setsCs hs <| congrArg doneWith (csLow_unless_low s.running)⟩

/-- Settles O12, by what the chip select was. -/
theorem csDeassertRaisesChipSelect : Obligations.CsDeassertRaisesChipSelect :=
  ⟨decode_hostWord (op := .csDeassert) rfl, sessionGuarded_of_issue fun _ => ⟨_, rfl⟩, fun s hs =>
    congrArg Outcome.next <| seqIssue_setsCs hs <| congrArg doneWith (csHigh_unless_high s.running)⟩

/-! ### One transaction (R144 to R152) -/

/-- R91: an operand in range is the low five bits of its command byte. -/
theorem setWidth_low5 {b : Byte} (h : b ≤ 0x1F#8) : (low5 b).setWidth 8 = b := by
  have hb : b.toNat ≤ 31 := h
  refine BitVec.eq_of_toNat_eq ?_
  rw [low5, BitVec.toNat_setWidth, BitVec.toNat_setWidth]
  omega

/-- R144, R146, R152: the check of an address or a code. -/
theorem okAddr_eq_false {b : Byte} (h : 0x1F#8 < b) : okAddr b = false :=
  decide_eq_false (BitVec.not_le.2 h)

/-- Settles O13, by the transaction of a single write. -/
theorem writeRegSendsAddressAndValue : Obligations.WriteRegSendsAddressAndValue := by
  refine ⟨fun addr val => ⟨decode_hostWord (op := .writeReg) rfl, sessionGuarded_of_issue fun _ => ⟨_, rfl⟩⟩,
    fun addr val s hs hbad => congrArg Outcome.next (seqIssue_badOperand hs (okAddr_eq_false hbad)),
    fun addr val s hs haddr => ?_⟩
  have hwrite := writeReg_eq (low5 addr) val s.running
  rw [spiWriteByte, setWidth_low5 haddr] at hwrite
  exact congrArg Outcome.next <| seqIssue_talks hs (decide_eq_true haddr) <| congrArg doneWith hwrite

/-- Settles O14, by the transaction of a single read. -/
theorem readRegReturnsDrawnByte : Obligations.ReadRegReturnsDrawnByte := by
  refine ⟨fun addr => ⟨decode_hostWord (op := .readReg) rfl, sessionGuarded_of_issue fun _ => ⟨_, rfl⟩⟩,
    fun addr s hs hbad => congrArg Outcome.next (seqIssue_badOperand hs (okAddr_eq_false hbad)),
    fun addr s hs haddr => ?_⟩
  have hread := readReg_eq (low5 addr) s.running
  rw [spiReadByte, setWidth_low5 haddr] at hread
  exact congrArg Outcome.next <| seqIssue_talks hs (decide_eq_true haddr) <| by rw [hread]; rfl

/-- R68, R148, R150: the check of a continuous access of the host. -/
theorem okCont_eq_true_iff {addr n : Byte} :
    okCont addr n = true ↔ addr ≤ 0x1F#8 ∧ n ≠ 0 ∧ (addr = 0x1F#8 ∨ addr.toNat + n.toNat - 1 ≤ 0x1F) := by
  have hlast : addr = 0x1F#8 ↔ addr.toNat = 0x1F := BitVec.toNat_eq
  have hsome : n ≠ 0 ↔ 1 ≤ n.toNat := (not_congr BitVec.toNat_eq).trans Nat.one_le_iff_ne_zero.symm
  simp only [okCont, okAddr, okContSpan, Bool.and_eq_true, Bool.or_eq_true, decide_eq_true_eq, hlast, hsome]

theorem okCont_eq_false {addr n : Byte}
    (h : 0x1F#8 < addr ∨ n = 0 ∨ (addr ≠ 0x1F#8 ∧ 0x1F < addr.toNat + n.toNat - 1)) : okCont addr n = false := by
  refine Bool.eq_false_of_not_eq_true fun hok => ?_
  obtain ⟨haddr, hsome, hspan⟩ := okCont_eq_true_iff.1 hok
  rcases h with hhigh | hnone | ⟨hlast, hpast⟩
  · exact BitVec.not_le.2 hhigh haddr
  · exact hsome hnone
  · exact hspan.elim hlast (Nat.not_le.2 hpast)

/-- Settles O15, by the transaction of a continuous write. -/
theorem writeContSendsAddressAndData : Obligations.WriteContSendsAddressAndData := by
  refine ⟨fun addr n data hlength => ⟨?_, sessionGuarded_of_issue fun _ => ⟨_, rfl⟩⟩,
    fun addr n data s hs hbad => ?_, fun addr n data s hs hlength haddr hsome hspan => ?_⟩
  · exact decode_hostWord (decodeOperands_writeCont_iff.2 ⟨addr, n, data, rfl, hlength, rfl⟩)
  · have hok : okWriteCont addr n data = false := by rw [okWriteCont, okCont_eq_false hbad, Bool.and_false]
    exact congrArg Outcome.next (seqIssue_badOperand hs hok)
  · have hok : okWriteCont addr n data = true := by
      rw [okWriteCont, okCont_eq_true_iff.2 ⟨haddr, hsome, hspan⟩, decide_eq_true hlength, Bool.and_true]
    have hwrite := writeCont_eq (low5 addr) data s.running
    rw [spiWriteContByte, setWidth_low5 haddr] at hwrite
    exact congrArg Outcome.next <| seqIssue_talks hs hok <| congrArg doneWith hwrite

/-- Settles O16, by the transaction of a continuous read. -/
theorem readContReturnsDrawnBytes : Obligations.ReadContReturnsDrawnBytes := by
  refine ⟨fun addr n => ⟨decode_hostWord (op := .readCont) rfl, sessionGuarded_of_issue fun _ => ⟨_, rfl⟩⟩,
    fun addr n s hs hbad => congrArg Outcome.next (seqIssue_badOperand hs (okCont_eq_false hbad)),
    fun addr n s hs haddr hsome hspan => ⟨Env.bytes_length _ _, ?_⟩⟩
  have hread := readCont_eq (low5 addr) n.toNat s.running
  rw [spiReadContByte, setWidth_low5 haddr] at hread
  exact congrArg Outcome.next <| seqIssue_talks hs (okCont_eq_true_iff.2 ⟨haddr, hsome, hspan⟩) <| by rw [hread]; rfl

/-- Settles O17, by the transaction of a direct command. -/
theorem directCmdSendsOneByte : Obligations.DirectCmdSendsOneByte := by
  refine ⟨fun code => ⟨decode_hostWord (op := .directCmd) rfl, sessionGuarded_of_issue fun _ => ⟨_, rfl⟩⟩,
    fun code s hs hbad => congrArg Outcome.next (seqIssue_badOperand hs (okAddr_eq_false hbad)),
    fun code s hs hcode => ?_⟩
  have hcmd := directCmd_eq (low5 code) s.running
  rw [spiDirectByte, setWidth_low5 hcode] at hcmd
  exact congrArg Outcome.next <| seqIssue_talks hs (decide_eq_true hcode) <| congrArg doneWith hcmd

/-! ### The FIFO write (R154) -/

theorem fifoFeed_nil (P : Params) (n : Nat) (s : State) : fifoFeed P n [] s = (none, s) := by
  cases n <;> rfl

theorem fifoWrite_nil (P : Params) (s : State) : fifoWrite P [] s = (none, s) := rfl

theorem fifoWrite_of_ne_nil {P : Params} {data : List Byte} (h : data ≠ []) (s : State) : fifoWrite P data s =
    fifoFeed P data.length (data.drop fifoSplit) (writeCont regFifo (data.take fifoSplit) s) := by
  rw [fifoWrite, if_neg (mt List.isEmpty_iff.1 h)]

/-- R154: what fits in one piece goes in one transaction. -/
theorem fifoWrite_onePiece (P : Params) {data : List Byte} (h : data.length ≤ fifoSplit) (s : State) :
    fifoWrite P data s = (none, { s with
      trace := s.trace ++ if data = [] then [] else inWindow s.cs (.spiOut 0x3F :: data.map .spiOut) }) := by
  by_cases hne : data = []
  · rw [hne, fifoWrite_nil, if_pos rfl, List.append_nil]
  · rw [fifoWrite_of_ne_nil hne, List.drop_eq_nil_of_le h, List.take_of_length_le h, fifoFeed_nil, writeCont_eq,
      if_neg hne]
    rfl

/-- Settles O19: one piece. -/
theorem fifoWriteOfOnePiece : Obligations.FifoWriteOfOnePiece := by
  intro n data s hs hlength hpiece
  exact congrArg Outcome.next <| seqIssue_talks hs (decide_eq_true hlength) <| by
    rw [fifoWrite_onePiece params hpiece]; rfl

/-- R154: the loop that feeds the pieces ends by itself, with all sent or with another cause than `FIFO_LOW`: a piece has at
least one byte, so the bound on the pieces is never met. -/
theorem fifoFeed_feeds {P : Params} (hP : P.InRange) {n : Nat} {rest : List Byte} (hn : rest.length ≤ n) (s : State) :
    FifoFeeds P rest s (fifoFeed P n rest s).1 (fifoFeed P n rest s).2 := by
  induction n generalizing rest s with
  | zero =>
    obtain rfl := List.length_eq_zero_iff.1 (Nat.le_zero.1 hn)
    exact .done s
  | succ n ih =>
    by_cases hrest : rest = []
    · rw [hrest, fifoFeed_nil]
      exact .done s
    · rw [fifoFeed, if_neg (mt List.isEmpty_iff.1 hrest)]
      dsimp only
      split
      · next hlow =>
        have hpiece := hP.fifoRefill.1
        have hleft : (rest.drop P.fifoRefill).length ≤ n := by rw [List.length_drop]; omega
        exact .more rest s _ _ hrest hlow (ih hleft _)
      · next hlow => exact .fail rest s hrest hlow

/-- R154: the FIFO write is the rule's, without the model's bound. -/
theorem fifoWrite_feeds {P : Params} (hP : P.InRange) {data : List Byte} (hne : data ≠ []) (s : State) :
    FifoFeeds P (data.drop 127) (writeCont 0x1F (data.take 127) s) (fifoWrite P data s).1 (fifoWrite P data s).2 := by
  rw [fifoWrite_of_ne_nil hne]
  exact fifoFeed_feeds hP (by rw [List.length_drop]; exact Nat.sub_le _ _) _

theorem fifoWriteAnswer_eq (c : Option IrqCause) :
    fifoWriteAnswer c = .status (if c = none then .ok else .fifoRefillFail) [] := by
  cases c <;> rfl

/-- Settles O20, by the relation that the loop is in. -/
theorem fifoWriteFeedsThePieces : Obligations.FifoWriteFeedsThePieces := by
  refine ⟨fun n data hlength => ⟨?_, sessionGuarded_of_issue fun _ => ⟨_, rfl⟩⟩,
    fun n data s hs hlength hne => ⟨_, _, fifoWrite_feeds params_inRange hne s.running, ?_, fifoWrite_writes _ _ _⟩,
    fun s hs => congrArg Outcome.next (seqIssue_talks hs rfl rfl)⟩
  · obtain ⟨lo, hi, rfl⟩ := exists_u16Of n
    rw [u16Bytes_u16Of]
    exact decode_hostWord (decodeOperands_fifoWrite_iff.2 ⟨lo, hi, data, rfl, hlength, rfl⟩)
  · rw [← fifoWriteAnswer_eq]
    exact congrArg Outcome.next (seqIssue_runs hs (decide_eq_true hlength))

/-! ### The IRQ wait (R156, R157, R163) -/

/-- R156: what a wait makes of an edge it has seen: the IRQ status register is read and classified, and the FIFO drained where
the cause asks for it. -/
def irqTaken (P : Params) (u : State) : IrqCause × State :=
  let r := readReg P.regIrqStatus u
  (P.irqClassify r.1, if drains (P.irqClassify r.1) then drain P r.2 else r.2)

theorem irqWait_of_edge {P : Params} {ms : BitVec 16} {s : State} (h : (waited ms s).irqFlag = true) :
    irqWait P ms s = irqTaken P { waited ms s with irqFlag := false, countdown := 0 } := by
  rw [irqWait, ← waited]
  exact if_pos h

theorem irqWait_of_no_edge {P : Params} {ms : BitVec 16} {s : State} (h : (waited ms s).irqFlag = false) :
    irqWait P ms s = (.timeout, waited ms s) := by
  rw [irqWait, ← waited]
  exact if_neg (Bool.eq_false_iff.1 h)

/-- R146: the cause of an edge is that of the next byte drawn. -/
theorem irqTaken_eq (P : Params) (u : State) : irqTaken P u =
    (P.irqClassify u.env.byte.1,
      if drains (P.irqClassify u.env.byte.1) then drain P (readReg P.regIrqStatus u).2
      else (readReg P.regIrqStatus u).2) := by
  have hbyte : (readReg P.regIrqStatus u).1 = u.env.byte.1 := congrArg Prod.fst (readReg_eq _ u)
  rw [← hbyte, irqTaken]

/-- R292: `busy` is false again at the end of an operation. -/
theorem State.running_ended {s : State} (h : s.busy = false) (r : Response) : s.running.ended r = s.respond r := by
  have hsame : ({ s with busy := false } : State) = s := by rw [← h]
  exact congrArg (State.respond · r) hsame

/-- R156: an operation `IRQ_WAIT` that nothing refuses. -/
theorem exec_irqWait {s : State} (hs : s.SeqReady) (ms : BitVec 16) :
    exec (.irqWait ms) s = .next ((irqWait params ms s.running).2.ended
      (.status .ok [causeCode (irqWait params ms s.running).1])) :=
  congrArg Outcome.next (seqIssue_runs hs rfl)

theorem waitLoop_of_irqFlag {s : State} (h : s.irqFlag = true) (n : Nat) : waitLoop n s = s := by
  cases n <;> exact if_pos h

theorem waitLoop_zero {s : State} (h : s.irqFlag = false) : waitLoop 0 s = pollEdge s := if_neg (Bool.eq_false_iff.1 h)

theorem waitLoop_succ {s : State} (h : s.irqFlag = false) (n : Nat) : waitLoop (n + 1) s =
    if (pollEdge s).irqFlag || (pollEdge s).timeoutFlag then pollEdge s else waitLoop n (msTickStep (pollEdge s)) :=
  if_neg (Bool.eq_false_iff.1 h)

/-- R42: a flag already set is found at the first look. -/
theorem waited_of_irqFlag {ms : BitVec 16} {s : State} (h : s.irqFlag = true) :
    waited ms s = { s with timeoutFlag := ms == 0, countdown := ms } := by
  exact waitLoop_of_irqFlag (s := { s with timeoutFlag := ms == 0, countdown := ms }) h _

theorem drains_iff (c : IrqCause) : drains c = true ↔ c = .rxComplete ∨ c = .fifoHigh ∨ c = .collision := by
  cases c <;> decide

/-- Settles O21: the wait ends at its first look. -/
theorem irqWaitConsumesPendingFlag : Obligations.IrqWaitConsumesPendingFlag := by
  intro ms s hs hflag
  have hwaited := waited_of_irqFlag (ms := ms) (s := s.running) hflag
  have htaken := irqWait_of_edge (P := params) (ms := ms) (s := s.running) (by rw [hwaited]; exact hflag)
  rw [hwaited, irqTaken_eq, readReg_eq] at htaken
  dsimp only
  simp only [exec_irqWait hs, htaken, ← drains_iff]
  rfl

/-- R156, R163: the block in a wait with `n` milliseconds left; the timeout flag is set when none is left. -/
def waiting (n : Nat) (s : State) : State := { s with countdown := BitVec.ofNat 16 n, timeoutFlag := decide (n = 0) }

theorem waited_eq (ms : BitVec 16) (s : State) : waited ms s = waitLoop ms.toNat (waiting ms.toNat s) := by
  have hzero : (ms == 0) = decide (ms.toNat = 0) := decide_eq_decide.2 BitVec.toNat_eq
  rw [waited, waiting, hzero, BitVec.ofNat_toNat, BitVec.setWidth_eq]

theorem msTickStep_waiting {n : Nat} (hn : n + 1 < 2 ^ 16) (s : State) :
    msTickStep (waiting (n + 1) s) = waiting n s := by
  have hcount : (BitVec.ofNat 16 (n + 1)).toNat = n + 1 := by rw [BitVec.toNat_ofNat, Nat.mod_eq_of_lt hn]
  have hlast : (BitVec.ofNat 16 (n + 1) == 1) = decide (n = 0) := by
    refine decide_eq_decide.2 (BitVec.toNat_eq.trans ?_)
    rw [hcount]
    exact Nat.succ_inj
  rw [msTickStep_eq]
  simp only [waiting, hcount, hlast, Nat.add_sub_cancel, Nat.add_one_ne_zero, decide_false, Bool.false_or]

/-- R156, R157: an edge that the host lets through ends the wait. -/
theorem waitLoop_edge {s : State} (hflag : s.irqFlag = false) (n : Nat) (hedge : (s.env.edge.1 && s.hostIe) = true) :
    waitLoop n (waiting n s) = { waiting n s with irqFlag := true, env := s.env.edge.2 } := by
  have hpoll : pollEdge (waiting n s) = { waiting n s with irqFlag := true, env := s.env.edge.2 } := by
    rw [pollEdge_eq]
    simp only [waiting, hedge, Bool.or_true]
  cases n with
  | zero => exact (waitLoop_zero (s := waiting 0 s) hflag).trans hpoll
  | succ n =>
    rw [waitLoop_succ (s := waiting (n + 1) s) hflag, hpoll]
    exact if_pos rfl

theorem pollEdge_quiet (n : Nat) {s : State} (hquiet : (s.env.edge.1 && s.hostIe) = false) :
    pollEdge (waiting n s) = waiting n { s with env := s.env.edge.2 } := by
  rw [pollEdge_eq]
  simp only [waiting, hquiet, Bool.or_false]

/-- R156, R163: a poll without an edge, and the millisecond after it. -/
theorem waitLoop_quiet {n : Nat} (hn : n + 1 < 2 ^ 16) {s : State} (hflag : s.irqFlag = false)
    (hquiet : (s.env.edge.1 && s.hostIe) = false) :
    waitLoop (n + 1) (waiting (n + 1) s) = waitLoop n (waiting n { s with env := s.env.edge.2 }) := by
  rw [waitLoop_succ (s := waiting (n + 1) s) hflag, pollEdge_quiet _ hquiet, msTickStep_waiting hn]
  exact if_neg (by simp [waiting, hflag])

/-- R156: the poll after the last millisecond. -/
theorem waitLoop_quiet_zero {s : State} (hflag : s.irqFlag = false) (hquiet : (s.env.edge.1 && s.hostIe) = false) :
    waitLoop 0 (waiting 0 s) = waiting 0 { s with env := s.env.edge.2 } :=
  (waitLoop_zero (s := waiting 0 s) hflag).trans (pollEdge_quiet 0 hquiet)

/-- R157: a poll takes nothing but an edge. -/
theorem Env.edge_keeps (e : Env) : e.edge.2.spiIn = e.spiIn ∧ e.edge.2.samples = e.samples := by
  unfold Env.edge
  split <;> exact ⟨rfl, rfl⟩

theorem Env.edge_script {e : Env} {a : Bool} {l : List Bool} (h : e.edges = a :: l) :
    e.edge = (a, { e with edges := l }) := by
  rw [Env.edge, h]

/-- R157, R323: with the host's interrupt enable off the milliseconds run down. -/
theorem waitLoop_masked {n : Nat} (hn : n < 2 ^ 16) {s : State} (hflag : s.irqFlag = false) (hmask : s.hostIe = false) :
    ∃ e : Env, e.spiIn = s.env.spiIn ∧ e.samples = s.env.samples ∧
      waitLoop n (waiting n s) = waiting 0 { s with env := e } := by
  obtain ⟨hspi, hsamples⟩ := s.env.edge_keeps
  have hquiet : (s.env.edge.1 && s.hostIe) = false := by rw [hmask, Bool.and_false]
  induction n generalizing s with
  | zero => exact ⟨_, hspi, hsamples, waitLoop_quiet_zero hflag hquiet⟩
  | succ n ih =>
    obtain ⟨e, hespi, hesamples, hloop⟩ := ih (s := { s with env := s.env.edge.2 }) (by omega) hflag hmask
      (Env.edge_keeps _).1 (Env.edge_keeps _).2 (by rw [hmask, Bool.and_false])
    exact ⟨e, hespi.trans hspi, hesamples.trans hsamples, (waitLoop_quiet hn hflag hquiet).trans hloop⟩

/-- Settles O22: no poll sets the flag. -/
theorem irqWaitTimesOutWhileMasked : Obligations.IrqWaitTimesOutWhileMasked := by
  intro ms s hs hflag hmask
  obtain ⟨e, hspi, hsamples, hloop⟩ := waitLoop_masked (s := s.running) ms.isLt hflag hmask
  rw [← waited_eq] at hloop
  have htimeout := irqWait_of_no_edge (P := params) (ms := ms) (s := s.running) (by rw [hloop]; exact hflag)
  refine ⟨e, hspi, hsamples, ?_⟩
  rw [exec_irqWait hs, htimeout, hloop]
  exact congrArg Outcome.next
    (State.running_ended (s := { s with timeoutFlag := true, countdown := 0, env := e }) hs.1 _)

/-- R156, R157: with no edge at any poll the milliseconds run down. -/
theorem waitLoop_no_edge {n : Nat} (hn : n < 2 ^ 16) {rest : List Bool} {s : State} (hflag : s.irqFlag = false)
    (hedges : s.env.edges = List.replicate (n + 1) false ++ rest) :
    waitLoop n (waiting n s) = waiting 0 { s with env := { s.env with edges := rest } } := by
  have hpoll := Env.edge_script hedges
  have hquiet : (s.env.edge.1 && s.hostIe) = false := by rw [hpoll, Bool.false_and]
  induction n generalizing s with
  | zero =>
    rw [waitLoop_quiet_zero hflag hquiet, hpoll]
    rfl
  | succ n ih =>
    rw [waitLoop_quiet hn hflag hquiet, hpoll]
    exact ih (by omega) hflag rfl (Env.edge_script rfl) (Bool.false_and _)

/-- R156, R157: an edge at poll `k` ends the wait there. -/
theorem waitLoop_edge_at {n k : Nat} (hn : n < 2 ^ 16) (hk : k ≤ n) {rest : List Bool} {s : State}
    (hflag : s.irqFlag = false) (hie : s.hostIe = true)
    (hedges : s.env.edges = List.replicate k false ++ true :: rest) :
    waitLoop n (waiting n s) =
      { waiting (n - k) s with irqFlag := true, env := { s.env with edges := rest } } := by
  induction k generalizing n s with
  | zero =>
    have hpoll := Env.edge_script hedges
    rw [waitLoop_edge hflag n (by rw [hpoll, hie]; rfl), hpoll]
    rfl
  | succ k ih =>
    obtain ⟨m, rfl⟩ := Nat.exists_eq_add_of_lt hk
    have hpoll := Env.edge_script hedges
    rw [show k + m + 1 - (k + 1) = k + m - k by omega,
      waitLoop_quiet hn hflag (by rw [hpoll]; rfl), hpoll]
    exact ih (by omega) (by omega) hflag hie rfl

/-- R156: the procedure, with an edge at poll `k`. -/
theorem irqWait_edge_at {P : Params} {ms : BitVec 16} {k : Nat} (hk : k ≤ ms.toNat) {rest : List Bool} {s : State}
    (hflag : s.irqFlag = false) (hie : s.hostIe = true)
    (hedges : s.env.edges = List.replicate k false ++ true :: rest) :
    irqWait P ms s = irqTaken P { s with
      countdown := 0, timeoutFlag := decide (k = ms.toNat), env := { s.env with edges := rest } } := by
  have hloop := waitLoop_edge_at ms.isLt hk hflag hie hedges
  rw [← waited_eq] at hloop
  have hlast : decide (ms.toNat - k = 0) = decide (k = ms.toNat) := decide_eq_decide.2 (by omega)
  rw [irqWait_of_edge (by rw [hloop]), hloop, waiting, hlast, ← hflag]

/-- R156: the procedure, with no edge. -/
theorem irqWait_no_edge {P : Params} {ms : BitVec 16} {rest : List Bool} {s : State} (hflag : s.irqFlag = false)
    (hedges : s.env.edges = List.replicate (ms.toNat + 1) false ++ rest) :
    irqWait P ms s = (.timeout, { s with
      countdown := 0, timeoutFlag := true, env := { s.env with edges := rest } }) := by
  have hloop := waitLoop_no_edge ms.isLt hflag hedges
  rw [← waited_eq] at hloop
  rw [irqWait_of_no_edge (by rw [hloop]; exact hflag), hloop]
  rfl

/-- Settles O24: the polls before the edge are quiet, or all are. -/
theorem irqWaitEndsAtTheEdge : Obligations.IrqWaitEndsAtTheEdge := by
  intro ms rest s hflag
  refine ⟨fun k hie hk hedges => ⟨fun P => ?_, fun hs => ?_⟩, fun hedges => ⟨fun P => ?_, fun hs => ?_⟩⟩
  · rw [irqWait_edge_at hk hflag hie hedges, irqTaken_eq]
  · have hwait := irqWait_edge_at (P := params) (s := s.running) hk hflag hie hedges
    rw [exec_irqWait hs, hwait, irqTaken_eq]
    rfl
  · exact irqWait_no_edge hflag hedges
  · have hwait := irqWait_no_edge (P := params) (s := s.running) hflag hedges
    rw [exec_irqWait hs, hwait]
    exact congrArg Outcome.next (State.running_ended (s := { s with
      countdown := 0, timeoutFlag := true, env := { s.env with edges := rest } }) hs.1 _)

/-- R306: no wait is in progress and no edge is left to see. -/
structure AtRest (s : State) : Prop where
  countdown : s.countdown = 0
  irqFlag : s.irqFlag = false

theorem atRest_keptByRing (P : Params) : KeptByRing P AtRest where
  txn cmd out nin s h := by rw [txn_eq]; exact ⟨h.countdown, h.irqFlag⟩
  unspecified s h := by unfold ringUnspecified; split <;> exact ⟨h.countdown, h.irqFlag⟩
  pushCore b s h := by unfold ringPushCore; split <;> exact ⟨h.countdown, h.irqFlag⟩
  popCore s h := by unfold ringPopCore; split <;> exact ⟨h.countdown, h.irqFlag⟩
  clearCore _ h := ⟨h.countdown, h.irqFlag⟩

/-- R156, R306: a wait leaves no countdown in progress and the flag consumed. -/
theorem irqWait_atRest (P : Params) (ms : BitVec 16) (s : State) : AtRest (irqWait P ms s).2 :=
  (atRest_keptByRing P).irqWait (fun _ => ⟨rfl, rfl⟩) fun hnone => ⟨waited_countdown hnone, hnone⟩

/-- What an operation that writes no more than an exchange leaves at its end. -/
theorem ExchangeWrites.ended {s t : State} (h : ExchangeWrites s.running t) (hs : s.busy = false) (r : Response) :
    ExchangeWrites (s.respond r) (t.ended r) := by
  rw [h]
  exact ExchangeWrites.of_fields hs.symm rfl rfl rfl rfl rfl rfl rfl rfl rfl

/-- Settles O23, by what is left at the end of a wait. -/
theorem irqWaitAlwaysEnds : Obligations.IrqWaitAlwaysEnds := by
  refine ⟨fun ms s hs => ?_, fun p hp => ?_⟩
  · have hrest := irqWait_atRest params ms s.running
    exact ⟨_, _, exec_irqWait hs ms, hrest.countdown, hrest.irqFlag, (irqWait_writes _ _ _).ended hs.1 _⟩
  · simp only [List.mem_cons, List.not_mem_nil, or_false] at hp
    rcases hp with rfl | rfl | rfl | rfl | rfl | rfl | rfl | rfl <;> rfl

/-! ### The ring as a queue (R160) -/

/-- R160: what a push and a pop of a ring that has not overflowed rest on; `Ring.Inv` asks also that every cell lies inside the
ring and that those in use have been written. -/
structure Ring.Queue (cap : Nat) (r : Ring) : Prop where
  canonical : Memory.wf r.buf = true
  rd_lt : r.rd < cap
  linked : r.wr = (r.rd + r.count) % cap

theorem Ring.Inv.queue {cap : Nat} {r : Ring} (h : r.Inv cap false) : r.Queue cap := ⟨h.canonical, h.rd_lt, h.linked rfl⟩

/-- R160: the ring after a push. -/
def Ring.pushed (cap : Nat) (b : Byte) (r : Ring) : Ring :=
  { r with buf := Memory.write r.buf r.wr b, wr := (r.wr + 1) % cap, count := r.count + 1 }

/-- R160: the ring after a pop. -/
def Ring.popped (cap : Nat) (r : Ring) : Ring := { r with rd := (r.rd + 1) % cap, count := r.count - 1 }

theorem Ring.Queue.pushed {cap : Nat} {r : Ring} (h : r.Queue cap) (b : Byte) : (r.pushed cap b).Queue cap where
  canonical := Memory.wf_write h.canonical _ _
  rd_lt := h.rd_lt
  linked := by
    simp only [Ring.pushed, h.linked, Nat.mod_add_mod]
    rfl

/-- No cell in use is the one that the next push writes. -/
theorem Ring.Queue.cell_ne_wr {cap : Nat} {r : Ring} (h : r.Queue cap) (hroom : r.count < cap) {j : Nat}
    (hj : j < r.count) : (r.rd + j) % cap ≠ r.wr := by
  intro heq
  have hmod : r.rd + j ≡ r.rd + r.count [MOD cap] := heq.trans h.linked
  exact hj.ne ((Nat.ModEq.add_left_cancel' _ hmod).eq_of_lt_of_lt (hj.trans hroom) hroom)

/-- R160: a push appends its byte to the bytes in the ring. -/
theorem Ring.Queue.contents_pushed {cap : Nat} {r : Ring} (h : r.Queue cap) (hroom : r.count < cap) (b : Byte) :
    (r.pushed cap b).contents cap = r.contents cap ++ [b] := by
  have hcell (i : Nat) : (r.pushed cap b).cell i = if i = r.wr then b else r.cell i := by
    rw [Ring.cell, Ring.cell, Ring.pushed, Memory.read_write h.canonical]
    split <;> rfl
  have hold : ∀ j ∈ List.range r.count, (r.pushed cap b).cell ((r.rd + j) % cap) = r.cell ((r.rd + j) % cap) :=
    fun j hj => (hcell _).trans (if_neg (h.cell_ne_wr hroom (List.mem_range.1 hj)))
  have hnew : (r.pushed cap b).cell ((r.rd + r.count) % cap) = b := (hcell _).trans (if_pos h.linked.symm)
  calc (r.pushed cap b).contents cap
      = (List.range (r.count + 1)).map fun j => (r.pushed cap b).cell ((r.rd + j) % cap) := rfl
    _ = r.contents cap ++ [b] := by
      rw [List.range_succ, List.map_append, List.map_congr_left hold, List.map_singleton, hnew]
      rfl

/-- R160: a push into a ring with room, as a whole. -/
theorem ringPush_eq {P : Params} {s : State} (b : Byte) (hovf : s.fifoOvf = false) (hroom : s.ring.count < P.fifoMirrorCap) :
    ringPush P b s = { s with ring := s.ring.pushed P.fifoMirrorCap b } := by
  rw [ringPush, ringUnspecified_of_ok hovf, ringPushCore, if_neg hroom.ne]
  exact ringUnspecified_of_ok hovf

/-- R160: bytes pushed into a ring with room come after those already there. -/
theorem ringPushes_queue {P : Params} {l : List Byte} {s : State} (hovf : s.fifoOvf = false)
    (hq : s.ring.Queue P.fifoMirrorCap) (hroom : s.ring.count + l.length ≤ P.fifoMirrorCap) :
    ∃ r : Ring, r.Queue P.fifoMirrorCap ∧ r.contents P.fifoMirrorCap = s.ring.contents P.fifoMirrorCap ++ l ∧
      l.foldl (fun t b => ringPush P b t) s = { s with ring := r } := by
  induction l generalizing s with
  | nil => exact ⟨s.ring, hq, (List.append_nil _).symm, rfl⟩
  | cons b l ih =>
    rw [List.length_cons] at hroom
    have hfree : s.ring.count < P.fifoMirrorCap := by omega
    obtain ⟨r, hr, hcontents, hpushes⟩ := ih (s := { s with ring := s.ring.pushed P.fifoMirrorCap b }) hovf
      (hq.pushed b) (by simp only [Ring.pushed]; omega)
    refine ⟨r, hr, ?_, ?_⟩
    · rw [hcontents, hq.contents_pushed hfree, List.append_assoc, List.singleton_append]
    · rw [List.foldl_cons, ringPush_eq b hovf hfree, hpushes]

/-- R162: as many pops as there are bytes give them all, oldest first. -/
theorem ringPopN_contents {P : Params} {n : Nat} {s : State} (hn : s.ring.count = n)
    (hrd : s.ring.rd < P.fifoMirrorCap) :
    ∃ q : Ring, q.count = 0 ∧ ringPopN P n s = (s.ring.contents P.fifoMirrorCap, { s with ring := q }) := by
  induction n generalizing s with
  | zero => exact ⟨s.ring, hn, by rw [Ring.contents, hn]; rfl⟩
  | succ n ih =>
    have hsome : s.ring.count ≠ 0 := by omega
    have hpop : ringPopCore P s = (some (s.ring.cell s.ring.rd), { s with ring := s.ring.popped P.fifoMirrorCap }) :=
      if_neg hsome
    obtain ⟨q, hq, hpops⟩ := ih (s := { s with ring := s.ring.popped P.fifoMirrorCap })
      (by simp only [Ring.popped]; omega) (Nat.mod_lt _ (Nat.zero_lt_of_lt hrd))
    refine ⟨q, hq, ?_⟩
    rw [ringPopN, hpop, Ring.contents_pop hsome hrd]
    dsimp only
    rw [hpops]
    rfl

/-- R162: `PopAll` gives the bytes in the ring, oldest first, and leaves it empty. -/
theorem ringPopAll_contents {P : Params} {s : State} (hovf : s.fifoOvf = false) (hrd : s.ring.rd < P.fifoMirrorCap) :
    ∃ q : Ring, q.count = 0 ∧ ringPopAll P s = (s.ring.contents P.fifoMirrorCap, { s with ring := q }) := by
  obtain ⟨q, hq, hpops⟩ := ringPopN_contents (P := P) rfl hrd
  refine ⟨q, hq, ?_⟩
  simp only [ringPopAll, ringUnspecified_of_ok hovf, hpops]
  rw [ringUnspecified_of_ok (by exact hovf)]

/-- Settles O25: what the pushes leave in the ring is what the pops give. -/
theorem ringIsFirstInFirstOut : Obligations.RingIsFirstInFirstOut := by
  intro P l s _ hovf hinv hroom
  obtain ⟨r, hr, hcontents, hpushes⟩ := ringPushes_queue hovf hinv.queue hroom
  obtain ⟨q, hq, hpops⟩ := ringPopAll_contents (P := P) (s := { s with ring := r }) hovf hr.rd_lt
  refine ⟨q, hq, ?_⟩
  rw [hpushes, hpops, hcontents]

/-! ### The exchange without its bounds (R162) -/

/-- R162: the receive loop is the rule's, with as many `FIFO_HIGH` rounds left as the ring has room for more. -/
theorem receiveLoop_receives {P : Params} (kind : ExchKind) (bb : Nat) {n w : Nat} (hn : w + n = P.fifoMirrorCap)
    (s : State) :
    Receives P kind bb w s (receiveLoop P kind bb n s).1 (receiveLoop P kind bb n s).2 := by
  induction n generalizing w s with
  | zero =>
    unfold receiveLoop
    dsimp only
    cases hcause : (irqWait P P.tRxMs s).1 with
    | fifoHigh => exact .tooMany w s hcause (by omega)
    | rxComplete => exact .complete w s _ _ hcause rfl
    | collision => exact .collision w s _ _ _ _ hcause rfl rfl
    | timeout => exact .timeout w s hcause
    | protocolError | txComplete | fifoLow | fieldChange => exact .other w s _ hcause (by decide)
  | succ n ih =>
    unfold receiveLoop
    dsimp only
    cases hcause : (irqWait P P.tRxMs s).1 with
    | fifoHigh => exact .high w s _ _ hcause (by omega) (ih (by omega) _)
    | rxComplete => exact .complete w s _ _ hcause rfl
    | collision => exact .collision w s _ _ _ _ hcause rfl rfl
    | timeout => exact .timeout w s hcause
    | protocolError | txComplete | fifoLow | fieldChange => exact .other w s _ hcause (by decide)

/-- R154: the transmitted bytes go as the rule says. -/
theorem fifoWrite_writes_pieces {P : Params} (hP : P.InRange) (data : List Byte) (s : State) :
    FifoWrites P data s (fifoWrite P data s).1 (fifoWrite P data s).2 := by
  unfold FifoWrites
  split
  · next hnil => rw [hnil]; exact ⟨rfl, rfl⟩
  · next hne => exact fifoWrite_feeds hP hne s

/-- R162: every exchange is one that the rule's steps allow. -/
theorem exchangeSeq_exchanges {P : Params} (hP : P.InRange) (kind : ExchKind) (tx : List Bit) (wantRx : Bool) (s : State) :
    Exchanges P kind tx wantRx s (exchangeSeq P kind tx wantRx s).1 (exchangeSeq P kind tx wantRx s).2 := by
  have hfifo := fifoWrite_writes_pieces hP (packLsb tx) (exchangeSetup P kind tx s)
  unfold exchangeSeq
  dsimp only
  cases hraised : (fifoWrite P (packLsb tx) (exchangeSetup P kind tx s)).1 with
  | some c =>
    rw [hraised] at hfifo
    exact .refillFails c _ hfifo
  | none =>
    rw [hraised] at hfifo
    dsimp only
    split
    · next hsent =>
      cases wantRx with
      | false => exact .sent _ _ hfifo (Prod.ext hsent rfl) rfl
      | true => exact .answered _ _ _ _ hfifo (Prod.ext hsent rfl) rfl (receiveLoop_receives _ _ (Nat.zero_add _) _)
    · next hnot => exact .notSent _ _ _ hfifo rfl hnot

/-! ### The exchange over a scripted environment (R154, R159, R162) -/

/-- Between two steps of an exchange over a script: no edge is pending, the host lets edges through, nothing has overflowed, the
ring holds `held`, and `spi`, `edges` and `tr` are the bytes and edges still to come and the trace so far. -/
structure OnScript (P : Params) (cs : Bool) (held spi : List Byte) (edges : List Bool) (tr : List Event) (t : State) :
    Prop where
  cs : t.cs = cs
  irqFlag : t.irqFlag = false
  hostIe : t.hostIe = true
  fifoOvf : t.fifoOvf = false
  queue : t.ring.Queue P.fifoMirrorCap
  contents : t.ring.contents P.fifoMirrorCap = held
  spiIn : t.env.spiIn = spi
  edges : t.env.edges = edges
  trace : t.trace = tr

theorem Env.byte_script {e : Env} {b : Byte} {l : List Byte} (h : e.spiIn = b :: l) :
    e.byte = (b, { e with spiIn := l }) := by
  rw [Env.byte, h]

section
variable {P : Params} {cs : Bool} {held spi : List Byte} {edges : List Bool} {tr : List Event} {t : State}

/-- R146: a register read takes the next byte of the script. -/
theorem OnScript.readReg {b : Byte} (h : OnScript P cs held (b :: spi) edges tr t) (a : BitVec 5) :
    (readReg a t).1 = b ∧ OnScript P cs held spi edges (tr ++ inWindow cs [.spiOut (spiReadByte a), .spiIn b])
      (Machine.readReg a t).2 := by
  rw [readReg_eq, Env.byte_script h.spiIn, h.trace, h.cs]
  exact ⟨rfl, ⟨rfl, h.irqFlag, h.hostIe, h.fifoOvf, h.queue, h.contents, rfl, h.edges, rfl⟩⟩

/-- R150: a continuous read takes as many as it asks for. -/
theorem OnScript.readCont {l : List Byte} (h : OnScript P cs held (l ++ spi) edges tr t) (a : BitVec 5) :
    (readCont a l.length t).1 = l ∧ OnScript P cs held spi edges
      (tr ++ inWindow cs (.spiOut (spiReadContByte a) :: l.map .spiIn)) (Machine.readCont a l.length t).2 := by
  rw [readCont_eq, Env.bytes_script l spi t.env h.spiIn, h.trace, h.cs]
  exact ⟨rfl, ⟨rfl, h.irqFlag, h.hostIe, h.fifoOvf, h.queue, h.contents, rfl, h.edges, rfl⟩⟩

/-- R160: what fits into the ring is in it after the pushes. -/
theorem OnScript.pushes {l : List Byte} (h : OnScript P cs held spi edges tr t)
    (hroom : held.length + l.length ≤ P.fifoMirrorCap) :
    OnScript P cs (held ++ l) spi edges tr (l.foldl (fun u b => ringPush P b u) t) := by
  have hcount : t.ring.count = held.length := by rw [← h.contents, Ring.contents_length]
  obtain ⟨r, hqueue, hcontents, hpushes⟩ := ringPushes_queue (l := l) h.fifoOvf h.queue (by omega)
  rw [hpushes]
  rw [h.contents] at hcontents
  exact ⟨h.cs, h.irqFlag, h.hostIe, h.fifoOvf, hqueue, hcontents, h.spiIn, h.edges, h.trace⟩

/-- R162: the pops give what the ring holds. -/
theorem OnScript.popAll (h : OnScript P cs held spi edges tr t) :
    (ringPopAll P t).1 = held ∧ (ringPopAll P t).2.env.spiIn = spi ∧ (ringPopAll P t).2.env.edges = edges ∧
      (ringPopAll P t).2.ring.count = 0 ∧ (ringPopAll P t).2.irqFlag = false ∧ (ringPopAll P t).2.fifoOvf = false ∧
      (ringPopAll P t).2.trace = tr := by
  obtain ⟨q, hq, hpops⟩ := ringPopAll_contents h.fifoOvf h.queue.rd_lt
  rw [hpops]
  exact ⟨h.contents, h.spiIn, h.edges, hq, h.irqFlag, h.fifoOvf, h.trace⟩

/-- R159: a drain reads the level and then as many bytes, which the ring takes. -/
theorem OnScript.drain {level : Byte} {l : List Byte} (h : OnScript P cs [] (level :: (l ++ spi)) edges tr t)
    (hlevel : fifoLevel level = l.length) (hroom : l.length ≤ P.fifoMirrorCap) :
    OnScript P cs l spi edges (tr ++ inWindow cs [.spiOut (spiReadByte P.regFifoStatus), .spiIn level] ++
      if l = [] then [] else inWindow cs (.spiOut 0x7F :: l.map .spiIn)) (drain P t) := by
  obtain ⟨hstatus, hread⟩ := h.readReg P.regFifoStatus
  unfold Machine.drain
  simp only [hstatus, hlevel]
  by_cases hnone : l = []
  · subst hnone
    rw [if_pos List.length_nil, if_pos rfl, List.append_nil]
    exact hread
  · obtain ⟨hbytes, hdrained⟩ := hread.readCont regFifo
    rw [if_neg (mt List.length_eq_zero_iff.1 hnone), if_neg hnone, hbytes]
    exact hdrained.pushes (by rw [List.length_nil, Nat.zero_add]; exact hroom)

/-- R156, R157: a wait over a script sees its edge at the first poll. -/
theorem OnScript.irqWait {b : Byte} (h : OnScript P cs held (b :: spi) (true :: edges) tr t) (ms : BitVec 16) :
    ∃ u, OnScript P cs held spi edges (tr ++ inWindow cs [.spiOut (spiReadByte P.regIrqStatus), .spiIn b]) u ∧
      irqWait P ms t = (P.irqClassify b, if drains (P.irqClassify b) then Machine.drain P u else u) := by
  have hwait := irqWait_edge_at (P := P) (ms := ms) (Nat.zero_le _) h.irqFlag h.hostIe h.edges
  have hseen : OnScript P cs held (b :: spi) edges tr { t with
      countdown := 0, timeoutFlag := decide (0 = ms.toNat), env := { t.env with edges := edges } } :=
    ⟨h.cs, h.irqFlag, h.hostIe, h.fifoOvf, h.queue, h.contents, h.spiIn, rfl, h.trace⟩
  obtain ⟨hbyte, hread⟩ := hseen.readReg P.regIrqStatus
  rw [irqTaken, hbyte] at hwait
  exact ⟨_, hread, hwait⟩

end

/-- R13: eight bits a byte, the last byte begun. -/
theorem packLsb_length (l : List Bit) : (packLsb l).length = (l.length + 7) / 8 := by
  rw [packLsb, List.length_map, chunks, List.length_map, List.length_range]
  omega

section
variable {P : Params} {kind : ExchKind} {tx : List Bit} {s : State} {spi : List Byte} {edges : List Bool}

/-- R162: the set-up of an exchange leaves the script as it was, and the ring empty. -/
theorem exchangeSetup_onScript (hP : P.InRange) (kind : ExchKind) (tx : List Bit) (hflag : s.irqFlag = false)
    (hie : s.hostIe = true) (hovf : s.fifoOvf = false) (hwf : Memory.wf s.ring.buf = true) :
    OnScript P s.cs [] s.env.spiIn s.env.edges (exchangeSetup P kind tx s).trace (exchangeSetup P kind tx s) := by
  have hqueue : ({ s.ring with rd := 0, wr := 0, count := 0 } : Ring).Queue P.fifoMirrorCap :=
    ⟨hwf, hP.fifoMirrorCap, (Nat.zero_mod _).symm⟩
  rw [exchangeSetUpBeforeData P kind tx s hovf]
  exact ⟨rfl, hflag, hie, hovf, hqueue, rfl, rfl, rfl, rfl⟩

/-- R154, R162: the packed bits go to the FIFO, and the transmission completes. -/
theorem exchangeSeq_sent {tr : List Event} {b1 : Byte} (htx : tx ≠ []) (hlength : tx.length ≤ 8 * 127)
    (hclass : P.irqClassify b1 = .txComplete)
    (h : OnScript P s.cs [] (b1 :: spi) (true :: edges) tr (exchangeSetup P kind tx s)) :
    ∃ u, OnScript P s.cs [] spi edges (tr ++ inWindow s.cs (.spiOut 0x3F :: (packLsb tx).map .spiOut) ++
        inWindow s.cs [.spiOut (spiReadByte P.regIrqStatus), .spiIn b1]) u ∧
      exchangeSeq P kind tx true s = receiveLoop P kind (tx.length % 8) P.fifoMirrorCap u := by
  have hpos := List.length_pos_iff.2 htx
  have hbytes : packLsb tx ≠ [] := List.length_pos_iff.1 (by rw [packLsb_length]; omega)
  have hpiece : (packLsb tx).length ≤ fifoSplit := by rw [packLsb_length, fifoSplit]; omega
  have hfifo := fifoWrite_onePiece P hpiece (exchangeSetup P kind tx s)
  rw [if_neg hbytes, h.trace, h.cs] at hfifo
  have hwritten : OnScript P s.cs [] (b1 :: spi) (true :: edges)
      (tr ++ inWindow s.cs (.spiOut 0x3F :: (packLsb tx).map .spiOut))
      (fifoWrite P (packLsb tx) (exchangeSetup P kind tx s)).2 := by
    rw [hfifo]
    exact ⟨rfl, h.irqFlag, h.hostIe, h.fifoOvf, h.queue, h.contents, h.spiIn, h.edges, rfl⟩
  obtain ⟨u, hu, hwait⟩ := hwritten.irqWait P.tTxMs
  have hstay : drains IrqCause.txComplete = false := rfl
  rw [hclass, hstay, if_neg Bool.false_ne_true] at hwait
  refine ⟨u, hu, ?_⟩
  unfold exchangeSeq
  dsimp only
  rw [hwait, hfifo]
  rfl

/-- R162: the trace of an exchange up to the bytes of its answer. -/
def answerTrace (P : Params) (kind : ExchKind) (tx : List Bit) (s : State) (b1 b2 level : Byte) (l : List Byte) :
    List Event :=
  (exchangeSetup P kind tx s).trace ++
    inWindow s.cs (.spiOut 0x3F :: (packLsb tx).map .spiOut) ++
    inWindow s.cs [.spiOut (spiReadByte P.regIrqStatus), .spiIn b1] ++
    inWindow s.cs [.spiOut (spiReadByte P.regIrqStatus), .spiIn b2] ++
    inWindow s.cs [.spiOut (spiReadByte P.regFifoStatus), .spiIn level] ++
    (if l = [] then [] else inWindow s.cs (.spiOut 0x7F :: l.map .spiIn))

/-- R159, R162: the receive wait finds the answer, and leaves its bytes in the ring. -/
theorem OnScript.receives {b1 b2 level : Byte} {l : List Byte} (htx : tx ≠ [])
    (hlength : tx.length ≤ 8 * 127) (hlevel : fifoLevel level = l.length) (hroom : l.length ≤ P.fifoMirrorCap)
    (hsent : P.irqClassify b1 = .txComplete) (hdrains : drains (P.irqClassify b2) = true)
    (h : OnScript P s.cs [] (b1 :: b2 :: level :: (l ++ spi)) [true, true] (exchangeSetup P kind tx s).trace
      (exchangeSetup P kind tx s)) :
    ∃ v u, exchangeSeq P kind tx true s = receiveLoop P kind (tx.length % 8) P.fifoMirrorCap v ∧
      Machine.irqWait P P.tRxMs v = (P.irqClassify b2, u) ∧
      OnScript P s.cs l spi [] (answerTrace P kind tx s b1 b2 level l) u := by
  obtain ⟨v, hv, hexchange⟩ := exchangeSeq_sent htx hlength hsent h
  obtain ⟨u, hu, hwait⟩ := hv.irqWait P.tRxMs
  rw [hdrains, if_pos rfl] at hwait
  exact ⟨v, _, hexchange, hwait, hu.drain hlevel hroom⟩

end

section
variable {P : Params} {s u : State} (kind : ExchKind) (bb n : Nat)

theorem receiveLoop_complete (h : irqWait P P.tRxMs s = (.rxComplete, u)) : receiveLoop P kind bb n s =
    (.frame (P.rxUnpack kind bb (ringPopAll P u).1) none, (ringPopAll P u).2) := by
  cases n <;> (unfold receiveLoop; dsimp only; rw [h])

theorem receiveLoop_collision (h : irqWait P P.tRxMs s = (.collision, u)) : receiveLoop P kind bb n s =
    (.frame (P.rxUnpack kind bb (ringPopAll P (readReg P.regCollPos u).2).1)
      (some (P.collPosDecode kind (readReg P.regCollPos u).1)), (ringPopAll P (readReg P.regCollPos u).2).2) := by
  cases n <;> (unfold receiveLoop; dsimp only; rw [h])

end

/-- Settles O42: the rule's steps, and over a script what each of them leaves to the next. -/
theorem exchangeReturnsTheAnswer : Obligations.ExchangeReturnsTheAnswer := by
  refine ⟨fun P kind tx wantRx s hP => exchangeSeq_exchanges hP kind tx wantRx s, ?_⟩
  intro P kind tx l b1 b2 level raw s hP htx hlength hlevel hroom hflag hie hovf hwf hsent hedges
  have hsetup := exchangeSetup_onScript hP kind tx hflag hie hovf hwf
  have hwrites := exchangeSeq_writes P kind tx true s
  rw [hedges] at hsetup
  refine ⟨fun hcause hspi => ?_, fun hcause hspi => ?_⟩
  · have hscript : s.env.spiIn = b1 :: b2 :: level :: (l ++ []) := by rw [hspi, List.append_nil]; rfl
    rw [hscript] at hsetup
    obtain ⟨v, u, hexchange, hwait, hu⟩ := OnScript.receives htx hlength hlevel hroom hsent (by rw [hcause]; rfl) hsetup
    rw [hcause] at hwait
    rw [hexchange, receiveLoop_complete _ _ _ hwait] at hwrites ⊢
    obtain ⟨hbytes, hleft⟩ := hu.popAll
    exact ⟨_, by rw [hbytes], hwrites, hleft⟩
  · have hscript : s.env.spiIn = b1 :: b2 :: level :: (l ++ [raw]) := hspi
    rw [hscript] at hsetup
    obtain ⟨v, u, hexchange, hwait, hu⟩ := OnScript.receives htx hlength hlevel hroom hsent (by rw [hcause]; rfl) hsetup
    rw [hcause] at hwait
    rw [hexchange, receiveLoop_collision _ _ _ hwait] at hwrites ⊢
    obtain ⟨hraw, hread⟩ := hu.readReg P.regCollPos
    obtain ⟨hbytes, hleft⟩ := hread.popAll
    exact ⟨_, by rw [hbytes, hraw], hwrites, hleft⟩

end Sys2Proof.Machine

/-! PROOFS. The family `41_phy.md`: direct mode opened and closed (R181, R183, R184), the elements of a transceive and their
bits (R187, R202), a receive on a silent pin (R192), and the transceive itself (R185, R186, R190). -/

namespace Sys2Proof.Machine

open Host (Outcome)

/-! ### Direct mode opened and closed (R181, R183, R184) -/

theorem enableGuard_enabled {s : State} (h : s.dmEnabled = true) : enableGuard s = none := by
  rw [enableGuard, h]; rfl

theorem enableGuard_held {s : State} (hoff : s.dmEnabled = false) (hheld : s.cs = true) : enableGuard s = some .csHeld := by
  rw [enableGuard, hoff, hheld]; rfl

theorem enableGuard_free {s : State} (hoff : s.dmEnabled = false) (hfree : s.cs = false) : enableGuard s = none := by
  rw [enableGuard, hoff, hfree]; rfl

/-- R143: with the chip select free each register write has a window of its own. -/
theorem writeRegs_free {s : State} (hfree : s.cs = false) (l : List (BitVec 5 × Byte)) : writeRegs l s =
    { s with trace := s.trace ++ l.flatMap fun w => [.csLow, .spiOut (spiWriteByte w.1), .spiOut w.2, .csHigh] } := by
  rw [writeRegs_eq, hfree]; rfl

theorem directCmd_free {s : State} (hfree : s.cs = false) (c : BitVec 5) : directCmd c s =
    { s with trace := s.trace ++ [.csLow, .spiOut (spiDirectByte c), .csHigh] } := by
  rw [directCmd_eq, hfree]; rfl

theorem enableDirect_enabled (P : Params) (mode : Byte) {s : State} (h : s.dmEnabled = true) :
    enableDirect P mode s = s := if_pos h

/-- R181: the entry registers, each in its window, then the continuous write that stays open. -/
theorem enableDirect_opens (P : Params) (mode : Byte) {s : State} (hoff : s.dmEnabled = false) (hfree : s.cs = false) :
    enableDirect P mode s = { s with
      cs := true, sessionOpen := true, rxPinMode := .gpioInput, dmCfg := mode, dmEnabled := true,
      trace := s.trace ++
        (P.dmEnterSeq mode).pre.flatMap (fun w => [.csLow, .spiOut (spiWriteByte w.1), .spiOut w.2, .csHigh]) ++
        (.csLow :: .spiOut (spiWriteContByte (P.dmEnterSeq mode).addr) :: (P.dmEnterSeq mode).data.map .spiOut) ++
        [.pinMode .gpioInput] } := by
  simp [enableDirect, hoff, writeRegs_free hfree, csLow, State.emit]

theorem disableDirect_disabled (P : Params) {s : State} (h : s.dmEnabled = false) : disableDirect P s = s :=
  if_neg (Bool.eq_false_iff.1 h)

/-- R183, R184: the window of the session is closed first, so everything after has windows of its own. -/
theorem disableDirect_closes (P : Params) {s : State} (hon : s.dmEnabled = true) :
    disableDirect P s = { s with
      cs := false, sessionOpen := false, rxPinMode := .spiFunction, dmEnabled := false,
      trace := s.trace ++ [.csHigh, .pinMode .spiFunction,
        .csLow, .spiOut (spiDirectByte P.cmdResetFifo), .csHigh,
        .csLow, .spiOut (spiDirectByte P.cmdSoftInit), .csHigh] ++
        P.iso14443aRegInit.flatMap (fun w => [.csLow, .spiOut (spiWriteByte w.1), .spiOut w.2, .csHigh]) } := by
  simp [disableDirect, hon, directCmd_free, writeRegs_free, csHigh, State.emit]

/-- Settles O27, by whether direct mode is enabled and whether the chip select is held. -/
theorem dmEnableOpensTheSession : Obligations.DmEnableOpensTheSession := by
  refine ⟨fun mode => decode_hostWord (op := .dmEnable) rfl, fun mode s hbusy hon => congrArg Outcome.next ?_,
    fun mode s hbusy hoff hheld => congrArg Outcome.next ?_, fun mode s hbusy hoff hfree => congrArg Outcome.next ?_⟩
  · have hsame := enableDirect_enabled params mode (s := s.running) hon
    rw [enableGuard_enabled hon, issue_starts hbusy, hsame, State.running_ended hbusy]
  · rw [enableGuard_held hoff hheld, refusal_some, issue_refused hbusy]
  · have hopens := enableDirect_opens params mode (s := s.running) hoff hfree
    rw [enableGuard_free hoff hfree, issue_starts hbusy, hopens, hbusy]
    rfl

/-- Settles O28, by whether direct mode is enabled. -/
theorem dmDisableClosesTheSession : Obligations.DmDisableClosesTheSession := by
  refine ⟨decode_hostWord (op := .dmDisable) rfl, fun s hbusy hoff => congrArg Outcome.next ?_,
    fun s hbusy hon => congrArg Outcome.next ?_⟩
  · have hsame := disableDirect_disabled params (s := s.running) hoff
    refine (issue_starts hbusy).trans ?_
    rw [hsame, State.running_ended hbusy]
  · have hcloses := disableDirect_closes params (s := s.running) hon
    refine (issue_starts hbusy).trans ?_
    rw [hcloses, hbusy]
    rfl

/-! ### The silent pin (R191, R192) -/

/-- R191: all that one sample of a script changes. -/
theorem sampleStep_eq {s : State} {a : Bit} {l : List Bit} (h : s.env.samples = a :: l) :
    sampleStep s = (a, { s with env := { s.env with samples := l }, trace := s.trace ++ [.sample a] }) := by
  simp [sampleStep, Env.sample, h, State.emit]

/-- R192: the start wait finds nothing in samples of 0, and takes each of them. -/
theorem startWait_silent {n : Nat} {rest : List Bit} {s : State} (h : s.env.samples = List.replicate n false ++ rest) :
    startWait n s = (false, { s with
      env := { s.env with samples := rest }, trace := s.trace ++ List.replicate n (.sample false) }) := by
  induction n generalizing s with
  | zero =>
    have hrest : rest = s.env.samples := h.symm
    simp [startWait, hrest]
  | succ n ih =>
    have hnext := sampleStep_eq (a := false) h
    simp [startWait, hnext, ih, List.replicate_succ]

/-- Settles O31: the start wait ends without a start. -/
theorem silentPinGivesNoBits : Obligations.SilentPinGivesNoBits := by
  intro P cap rest s h
  rw [receive, startWait_silent h]
  rfl

/-! ### Elements and their bits (R13, R187, R202) -/

@[simp] theorem bitsN_length (w : Nat) (v : BitVec w) (n : Nat) : (bitsN w v n).length = n := by simp [bitsN]

theorem bitsN_getElem? {w : Nat} (v : BitVec w) {n i : Nat} (h : i < n) : (bitsN w v n)[i]? = some (v.getLsbD i) := by
  simp [bitsN, h]

theorem unitBits_pos (mode : Byte) : 0 < unitBits mode := by unfold unitBits; split <;> decide

theorem unitBits_le (mode : Byte) : unitBits mode ≤ 16 := by unfold unitBits; split <;> decide

/-- R187: the first element's bits go out first. -/
theorem sendBits_cons (mode : Byte) (u : Unit16) (send : List Unit16) (nB nb : Nat) :
    sendBits mode (u :: send) (nB + 1) nb = bitsN 16 u (unitBits mode) ++ sendBits mode send nB nb := by
  simp [sendBits]

theorem sendBits_length {mode : Byte} {send : List Unit16} {nB : Nat} (nb : Nat) (h : nB ≤ send.length) :
    (sendBits mode send nB nb).length = nB * unitBits mode + nb := by
  induction send generalizing nB with
  | nil => obtain rfl := Nat.le_zero.1 h; simp [sendBits]
  | cons u send ih =>
    cases nB with
    | zero => simp [sendBits]
    | succ nB =>
      rw [sendBits_cons, List.length_append, bitsN_length, ih (Nat.le_of_succ_le_succ h), Nat.succ_mul]
      omega

/-- R187: bit `i` of a frame is bit `i mod U` of element `i div U`. -/
theorem sendBits_getElem? {mode : Byte} {send : List Unit16} {nB nb i : Nat} (hnB : nB ≤ send.length)
    (hnb : nb ≤ unitBits mode) (hi : i < nB * unitBits mode + nb) :
    (sendBits mode send nB nb)[i]? = some ((send.getD (i / unitBits mode) 0).getLsbD (i % unitBits mode)) := by
  have hpos := unitBits_pos mode
  induction nB generalizing send i with
  | zero =>
    have hfirst : i < unitBits mode := by omega
    rw [Nat.div_eq_of_lt hfirst, Nat.mod_eq_of_lt hfirst]
    exact bitsN_getElem? _ (by omega)
  | succ nB ih =>
    obtain ⟨u, send, rfl⟩ := List.exists_cons_of_length_pos (Nat.zero_lt_of_lt hnB)
    rw [sendBits_cons]
    rcases Nat.lt_or_ge i (unitBits mode) with hfirst | hlater
    · rw [List.getElem?_append_left (by rwa [bitsN_length]), bitsN_getElem? u hfirst, Nat.div_eq_of_lt hfirst,
        Nat.mod_eq_of_lt hfirst, List.getD_cons_zero]
    · obtain ⟨k, rfl⟩ := Nat.exists_eq_add_of_le hlater
      rw [Nat.succ_mul] at hi
      rw [List.getElem?_append_right (by rwa [bitsN_length]), bitsN_length, Nat.add_sub_cancel_left,
        ih (Nat.le_of_succ_le_succ hnB) (by omega), Nat.add_div_left k hpos, Nat.add_mod_left, List.getD_cons_succ]

/-- R13: bit `j` of the number of a list of bits is the bit at index `j`. -/
theorem bitsToNat_testBit (l : List Bit) (j : Nat) : (bitsToNat l).testBit j = l.getD j false := by
  induction l generalizing j with
  | nil => simp [bitsToNat]
  | cons b l ih =>
    rw [bitsToNat, Nat.add_comm]
    cases j with
    | zero => cases b <;> simp [Nat.testBit_zero]
    | succ j =>
      have hhalf : (2 * bitsToNat l + b.toNat) / 2 = bitsToNat l := by have := b.toNat_lt; omega
      rw [Nat.testBit_succ, hhalf, ih, List.getD_cons_succ]

/-- R202: as many elements as hold the bits, the last one begun. -/
theorem packUnits_length (u : Nat) (rx : List Bit) : (packUnits u rx).length = (rx.length + u - 1) / u := by
  simp [packUnits, chunks]

/-- R202: element `i` holds the bits from `u i` on; past the last element there are none. -/
theorem packUnits_getD {u : Nat} (hu : 0 < u) (rx : List Bit) (i : Nat) :
    (packUnits u rx).getD i 0 = BitVec.ofNat 16 (bitsToNat ((rx.drop (u * i)).take u)) := by
  rcases Nat.lt_or_ge i (packUnits u rx).length with hin | hout
  · rw [packUnits_length] at hin
    simp [packUnits, chunks, hin]
  · have hcount : (rx.length + u - 1) / u < i + 1 := by rw [← packUnits_length]; omega
    have hpast : rx.length ≤ u * i := by
      have := (Nat.div_lt_iff_lt_mul hu).1 hcount
      rw [Nat.succ_mul, Nat.mul_comm] at this
      omega
    rw [List.getD_eq_default _ _ hout, List.drop_eq_nil_of_le hpast, List.take_nil]
    rfl

theorem getD_take_drop (l : List Bit) (k u j : Nat) :
    ((l.drop k).take u).getD j false = (decide (j < u) && l.getD (k + j) false) := by
  by_cases hj : j < u <;> simp [hj]

/-- R13, R202: bit `j` of element `i`. -/
theorem packUnits_getLsbD {u : Nat} (hpos : 0 < u) (hle : u ≤ 16) (rx : List Bit) (i j : Nat) :
    ((packUnits u rx).getD i 0).getLsbD j = (decide (j < u) && rx.getD (u * i + j) false) := by
  rw [packUnits_getD hpos, BitVec.getLsbD_ofNat, bitsToNat_testBit, getD_take_drop]
  by_cases hj : j < u
  · have hin : j < 16 := by omega
    simp [hin]
  · simp [hj]

/-- Settles O33: the bits sent by element and index, those received by chunk. -/
theorem elementsHoldTheirBits : Obligations.ElementsHoldTheirBits := by
  intro mode hmode
  refine ⟨fun send nB nb hnB hnb _ => ⟨sendBits_length nb hnB, fun i hi => sendBits_getElem? hnB hnb hi⟩, fun rx =>
    ⟨packUnits_length _ rx, packUnits_getLsbD (unitBits_pos mode) (unitBits_le mode) rx, ?_⟩⟩
  rcases hmode with rfl | rfl
  · rfl
  · rfl

/-! ### The transceive (R185, R186, R190) -/

/-- R186: a bit count of an OPAQUE transceive. -/
theorem lt_unitBits_opaque {b : Byte} : b.toNat < unitBits 0 ↔ b ≤ 7#8 := Nat.lt_succ_iff

/-- R186: a bit count of a PARITY transceive. -/
theorem lt_unitBits_parity {b : Byte} : b.toNat < unitBits 1 ↔ b ≤ 8#8 := Nat.lt_succ_iff

/-- R186: the checks, as propositions. -/
theorem okTransceive_iff {mode sendBitCount recvBits : Byte} {sendBytes : BitVec 16} {send : List Unit16} :
    okTransceive mode sendBytes sendBitCount recvBits send = true ↔
      (mode = 0 ∨ mode = 1) ∧ sendBitCount.toNat < unitBits mode ∧ recvBits.toNat < unitBits mode ∧
        send.length = sendElems sendBytes sendBitCount ∧ (mode = 0 → ∀ u ∈ send, u < 0x100#16) := by
  simp only [okTransceive, Bool.and_eq_true, Bool.or_eq_true, decide_eq_true_eq, bne_iff_ne, List.all_eq_true, and_assoc,
    imp_iff_not_or, ne_eq]

/-- R186: the operands in range, mode by mode. -/
theorem okTransceive_of_mode {mode sendBitCount recvBits : Byte} {sendBytes : BitVec 16} {send : List Unit16}
    (h : (mode = 0 ∧ sendBitCount ≤ 7#8 ∧ recvBits ≤ 7#8 ∧ ∀ u ∈ send, u < 0x100#16) ∨
      (mode = 1 ∧ sendBitCount ≤ 8#8 ∧ recvBits ≤ 8#8))
    (hlength : send.length = sendBytes.toNat + (if sendBitCount = 0 then 0 else 1)) :
    okTransceive mode sendBytes sendBitCount recvBits send = true := by
  rw [okTransceive_iff]
  rcases h with ⟨rfl, hsend, hrecv, hbytes⟩ | ⟨rfl, hsend, hrecv⟩
  · exact ⟨.inl rfl, lt_unitBits_opaque.2 hsend, lt_unitBits_opaque.2 hrecv, hlength, fun _ => hbytes⟩
  · exact ⟨.inr rfl, lt_unitBits_parity.2 hsend, lt_unitBits_parity.2 hrecv, hlength,
      fun hopaque => absurd hopaque (by decide)⟩

/-- R186: each operand that is excluded fails its check. -/
theorem okTransceive_eq_false {mode sendBitCount recvBits : Byte} {sendBytes : BitVec 16} {send : List Unit16}
    (h : (mode ≠ 0 ∧ mode ≠ 1) ∨ (mode = 0 ∧ (7#8 < sendBitCount ∨ 7#8 < recvBits)) ∨
      (mode = 1 ∧ (8#8 < sendBitCount ∨ 8#8 < recvBits)) ∨
      send.length ≠ sendBytes.toNat + (if sendBitCount = 0 then 0 else 1)) :
    okTransceive mode sendBytes sendBitCount recvBits send = false := by
  rw [← Bool.not_eq_true, okTransceive_iff]
  rintro ⟨hmode, hsend, hrecv, hlength, -⟩
  rcases h with ⟨hopaque, hparity⟩ | ⟨rfl, hcount⟩ | ⟨rfl, hcount⟩ | helems
  · exact hmode.elim hopaque hparity
  · exact hcount.elim (BitVec.not_lt.2 (lt_unitBits_opaque.1 hsend)) (BitVec.not_lt.2 (lt_unitBits_opaque.1 hrecv))
  · exact hcount.elim (BitVec.not_lt.2 (lt_unitBits_parity.1 hsend)) (BitVec.not_lt.2 (lt_unitBits_parity.1 hrecv))
  · exact helems hlength

/-- R185, R200: what is received where there is room, and nothing where there is none. -/
def received (P : Params) (cap : Nat) (s : State) : List Bit × State := if cap = 0 then ([], s) else receive P cap s

theorem received_length_le (P : Params) (cap : Nat) (s : State) : (received P cap s).1.length ≤ cap := by
  unfold received
  split
  · exact Nat.zero_le _
  · exact receive_length_le P cap s

theorem received_samplesOnly (P : Params) (cap : Nat) (s : State) : SamplesOnly s (received P cap s).2 := by
  unfold received
  split
  · exact .refl s
  · exact receive_samplesOnly P cap s

/-- R188, R190: the state of a transceive with the interrupts masked and the frame sent. -/
def frameSent (P : Params) (tx : List Bit) (s : State) : State :=
  { s with hostIe := false, trace := s.trace ++ [.intMask true] ++ (frameSlots P tx).map .mod }

/-- R185, R190: a transceive, step by step. -/
theorem transceive_eq (P : Params) (tx : List Bit) (cap : Nat) (s : State) : transceive P tx cap s =
    ((received P cap (frameSent P tx s)).1, { (received P cap (frameSent P tx s)).2 with
      hostIe := s.hostIe, trace := (received P cap (frameSent P tx s)).2.trace ++ [.intMask false] }) := rfl

/-- Settles O29: the guard, the check of the operands, and the transceive with its receive. -/
theorem dmTransceiveSendsThenReceives : Obligations.DmTransceiveSendsThenReceives := by
  intro mode sendBitCount recvBits sendBytes recvBytes send s hbusy
  refine ⟨fun hoff => congrArg Outcome.next ?_, fun hon hbad => congrArg Outcome.next ?_, fun hon hmode hlength => ?_⟩
  · rw [phyGuard_disabled hoff, refusal_some, issue_refused hbusy]
  · rw [phyGuard_enabled hon, okTransceive_eq_false hbad, refusal_none_false, issue_refused hbusy]
  · intro cap sent r
    obtain ⟨samples, e, hspi, hedges, hreceived⟩ := received_samplesOnly params cap sent
    refine ⟨congrArg Outcome.next ?_, received_length_le params cap sent, samples, e, hspi, hedges, hreceived⟩
    rw [phyGuard_enabled hon, okTransceive_of_mode hmode hlength, issue_starts hbusy, transceive_eq]
    rfl

end Sys2Proof.Machine

/-! PROOFS. The family `42_parity_crc.md`: parity (R222, R224), CRC_A as a linear and reversible function of its register and
its bytes (R226), what is appended and what is checked (R228, R230), and the errors that the check finds (R232). -/

namespace Sys2Proof.Machine

open Host (Outcome)

/-! ### An operation that only answers (R220) -/

/-- R220: no guard refuses a UTL operation; with its operands in range it changes nothing and hands back its result. -/
theorem utlIssue_answers {s : State} {ok : Bool} {r : Response} (hbusy : s.busy = false) (hok : ok = true) :
    issue (refusal none ok) (fun t => (r, t)) s = s.respond r := by
  rw [hok, issue_starts hbusy, State.running_ended hbusy]

theorem okUnits_of_length {n : BitVec 16} {buf : List Unit16} (h : buf.length = n.toNat) : okUnits n buf = true :=
  decide_eq_true h

theorem predicateAnswer_eq (b : Bool) : predicateAnswer b = .status (if b then .ok else .false_) [] := by
  cases b <;> rfl

theorem exec_checkParity {n : BitVec 16} {buf : List Unit16} {s : State} (hlength : buf.length = n.toNat)
    (hbusy : s.busy = false) :
    exec (.checkParity n buf) s = .next (s.respond (.status (if checkParity buf then .ok else .false_) [])) :=
  congrArg Outcome.next <| by rw [utlIssue_answers hbusy (okUnits_of_length hlength), predicateAnswer_eq]

theorem exec_checkCrc {n : BitVec 16} {buf : List Unit16} {s : State} (hlength : buf.length = n.toNat)
    (hbusy : s.busy = false) :
    exec (.checkCrc n buf) s = .next (s.respond (.status (if checkCrc buf then .ok else .false_) [])) :=
  congrArg Outcome.next <| by rw [utlIssue_answers hbusy (okUnits_of_length hlength), predicateAnswer_eq]

/-! ### Units and their parity (R110, R221) -/

/-- R110: in the two bytes of a unit the payload is the low one and the parity bit is the lowest bit of the high one. -/
theorem unitOf_eq_u16Of (p : Bit) (d : Byte) : unitOf p d = u16Of d ((BitVec.ofBool p).setWidth 8) := by
  cases p <;> rfl

@[simp] theorem payload_u16Of (lo hi : Byte) : payload (u16Of lo hi) = lo :=
  List.head_eq_of_cons_eq (u16Bytes_u16Of lo hi)

@[simp] theorem parityBit_u16Of (lo hi : Byte) : parityBit (u16Of lo hi) = hi.getLsbD 0 := by
  simp [parityBit, u16Of]

@[simp] theorem payload_parityUnit (d : Byte) : payload (parityUnit d) = d := by
  rw [parityUnit, unitOf_eq_u16Of, payload_u16Of]

theorem parityUnit_toNat (d : Byte) : (parityUnit d).toNat = d.toNat + 256 * (oddParity d).toNat := by
  rw [parityUnit, unitOf_eq_u16Of, u16Of_toNat]
  cases oddParity d <;> rfl

@[simp] theorem parityBit_parityUnit (d : Byte) : parityBit (parityUnit d) = oddParity d := by
  rw [parityUnit, unitOf_eq_u16Of, parityBit_u16Of]
  cases oddParity d <;> rfl

/-- R222: bits 15..9 are zero. -/
theorem parityUnit_lt (d : Byte) : parityUnit d < 0x200#16 := by
  have hbyte := d.isLt
  have hbit := (oddParity d).toNat_le
  rw [BitVec.lt_def, parityUnit_toNat]
  change _ < 512
  omega

/-- R221: the odd parity of a byte is the bit that makes the number of ones odd. -/
theorem eq_oddParity_iff (p : Bit) (d : Byte) : p = oddParity d ↔ (popcount d + p.toNat) % 2 = 1 := by
  have hbit := p.toNat_le
  have hparity : (p = true ↔ popcount d % 2 = 0) ↔ (popcount d + p.toNat) % 2 = 1 := by
    rw [← Bool.toNat_eq_one]
    omega
  rw [← hparity, oddParity, Bool.eq_iff_iff, beq_iff_eq]

theorem parityUnit_odd (d : Byte) : (popcount (payload (parityUnit d)) + (parityBit (parityUnit d)).toNat) % 2 = 1 := by
  rw [payload_parityUnit, parityBit_parityUnit]
  exact (eq_oddParity_iff _ d).1 rfl

/-! ### Parity set and checked (R222, R224) -/

theorem setParity_map_payload (buf : List Unit16) : (setParity buf).map payload = buf.map payload := by
  rw [setParity, List.map_map]
  exact List.map_congr_left fun u _ => payload_parityUnit (payload u)

/-- R222: setting parity looks at the payload alone, which it keeps. -/
theorem setParity_setParity (buf : List Unit16) : setParity (setParity buf) = setParity buf := by
  have hpayloads (l : List Unit16) : setParity l = (l.map payload).map parityUnit :=
    (List.map_map (g := parityUnit) (f := payload)).symm
  rw [hpayloads (setParity buf), setParity_map_payload, ← hpayloads]

theorem checkParity_iff (buf : List Unit16) :
    checkParity buf = true ↔ ∀ u ∈ buf, (popcount (payload u) + (parityBit u).toNat) % 2 = 1 := by
  simp only [checkParity, List.all_eq_true, beq_iff_eq, eq_oddParity_iff]

theorem checkParity_setParity (buf : List Unit16) : checkParity (setParity buf) = true := by
  refine (checkParity_iff _).2 fun u hu => ?_
  obtain ⟨v, -, rfl⟩ := List.mem_map.1 hu
  exact parityUnit_odd (payload v)

/-- Settles O35: the units handed back are those of `setParity`. -/
theorem setParityMakesEveryUnitOdd : Obligations.SetParityMakesEveryUnitOdd := by
  intro n buf hlength
  refine ⟨decodeOfEncodeIsIdentity (.setParity n buf) (decide_eq_true hlength), setParity buf, List.length_map _,
    fun i hi => ?_, fun s hbusy => congrArg Outcome.next (utlIssue_answers hbusy (okUnits_of_length hlength))⟩
  have hunit : (setParity buf).getD i 0 = parityUnit (payload (buf.getD i 0)) := by
    simp only [setParity, List.getD_eq_getElem?_getD, List.getElem?_map, List.getElem?_eq_getElem hi, Option.map_some,
      Option.getD_some]
  rw [hunit]
  exact ⟨payload_parityUnit _, parityUnit_lt _, parityUnit_odd _⟩

/-- Settles O36: one unit of even parity makes the test of all of them fail. -/
theorem checkParityTestsEveryUnit : Obligations.CheckParityTestsEveryUnit := by
  intro n buf hlength
  refine ⟨decodeOfEncodeIsIdentity (.checkParity n buf) (decide_eq_true hlength), fun s hbusy =>
    ⟨fun hodd => ?_, fun ⟨u, hu, heven⟩ => ?_⟩⟩
  · rw [exec_checkParity hlength hbusy, if_pos ((checkParity_iff buf).2 hodd)]
  · have hfails : ¬ checkParity buf = true := fun hall => by
      have hodd := (checkParity_iff buf).1 hall u hu
      omega
    rw [exec_checkParity hlength hbusy, if_neg hfails]

/-! ### One shift of the CRC register (R226) -/

/-- R226: a shift moves every bit down by one and adds the polynomial where the bit shifted out is one. -/
theorem crcShift_getLsbD (v : BitVec 16) (i : Nat) :
    (crcShift v).getLsbD i = (v.getLsbD (i + 1) ^^ (v.getLsbD 0 && crcPoly.getLsbD i)) := by
  have hshifted : (v >>> 1).getLsbD i = v.getLsbD (i + 1) := by rw [BitVec.getLsbD_ushiftRight, Nat.add_comm]
  unfold crcShift
  split
  · next hbit => rw [BitVec.getLsbD_xor, hshifted, hbit, Bool.true_and]
  · next hbit => rw [hshifted, Bool.eq_false_iff.2 hbit, Bool.false_and, Bool.xor_false]

theorem crcShift_xor (v w : BitVec 16) : crcShift (v ^^^ w) = crcShift v ^^^ crcShift w := by
  refine BitVec.eq_of_getLsbD_eq fun i _ => ?_
  simp only [BitVec.getLsbD_xor, crcShift_getLsbD, Bool.and_xor_distrib_right, Bool.xor_assoc, Bool.xor_left_comm]

/-- R226: a shift loses nothing: the bit shifted out is the new top bit, which the polynomial alone sets. -/
theorem crcShift_injective : Function.Injective crcShift := by
  intro v w h
  have hbits (i : Nat) : (v.getLsbD (i + 1) ^^ (v.getLsbD 0 && crcPoly.getLsbD i)) =
      (w.getLsbD (i + 1) ^^ (w.getLsbD 0 && crcPoly.getLsbD i)) := by
    rw [← crcShift_getLsbD, ← crcShift_getLsbD, h]
  have hout : v.getLsbD 0 = w.getLsbD 0 := by
    have htop (u : BitVec 16) : (u.getLsbD 16 ^^ (u.getLsbD 0 && crcPoly.getLsbD 15)) = u.getLsbD 0 := by
      rw [BitVec.getLsbD_of_ge u 16 (le_refl 16), Bool.false_xor]
      exact Bool.and_true _
    rw [← htop v, ← htop w]
    exact hbits 15
  refine BitVec.eq_of_getLsbD_eq fun i _ => ?_
  cases i with
  | zero => exact hout
  | succ i => exact Bool.xor_left_inj.1 (hout ▸ hbits i)

/-- R226: a value that fits one place up comes back down when a zero is shifted out. -/
theorem crcShift_shiftLeft_one {v : BitVec 16} (h : 2 * v.toNat < 2 ^ 16) : crcShift (v <<< 1) = v := by
  have heven : (v <<< 1).getLsbD 0 = false := by simp
  rw [crcShift, heven, if_neg Bool.false_ne_true]
  refine BitVec.eq_of_toNat_eq ?_
  rw [BitVec.toNat_ushiftRight, BitVec.toNat_shiftLeft, Nat.shiftLeft_eq, Nat.shiftRight_eq_div_pow]
  omega

/-! ### Eight shifts (R226) -/

theorem repeatN_eq_iterate {α : Type} (f : α → α) (n : Nat) : repeatN f n = f^[n] := by
  induction n with
  | zero => rfl
  | succ n ih => exact congrArg (· ∘ f) ih

theorem repeatN_crcShift_injective (n : Nat) : Function.Injective (repeatN crcShift n) := by
  rw [repeatN_eq_iterate]
  exact crcShift_injective.iterate n

theorem repeatN_crcShift_xor (n : Nat) (v w : BitVec 16) :
    repeatN crcShift n (v ^^^ w) = repeatN crcShift n v ^^^ repeatN crcShift n w := by
  induction n generalizing v w with
  | zero => rfl
  | succ n ih => rw [repeatN, crcShift_xor, ih, ← repeatN, ← repeatN]

theorem repeatN_crcShift_zero (n : Nat) : repeatN crcShift n 0 = 0 := by
  simpa using repeatN_crcShift_xor n 0 0

/-- R226: `n` shifts undo a shift up by `n` places that lost nothing. -/
theorem repeatN_crcShift_shiftLeft (n : Nat) {v : BitVec 16} (h : 2 ^ n * v.toNat < 2 ^ 16) :
    repeatN crcShift n (v <<< n) = v := by
  induction n with
  | zero => exact BitVec.shiftLeft_zero v
  | succ n ih =>
    have hfits : 2 * (2 ^ n * v.toNat) < 2 ^ 16 := by rw [← mul_assoc, ← pow_succ']; exact h
    have hroom : 2 ^ n * v.toNat < 2 ^ 16 := by omega
    have hone : 2 * (v <<< n).toNat < 2 ^ 16 := by
      rwa [BitVec.toNat_shiftLeft, Nat.shiftLeft_eq, mul_comm v.toNat, Nat.mod_eq_of_lt hroom]
    rw [repeatN, BitVec.shiftLeft_add, crcShift_shiftLeft_one hone, ih hroom]

theorem repeatN_crcShift_highByte (h : Byte) : repeatN crcShift 8 (h.setWidth 16 <<< 8) = h.setWidth 16 := by
  refine repeatN_crcShift_shiftLeft 8 ?_
  have hbyte := h.isLt
  rw [BitVec.toNat_setWidth]
  omega

/-! ### One byte (R226) -/

/-- R226: the eight shifts of a low byte, without a loop, on each of the 256 bytes. -/
theorem repeatN_crcShift_lowByte : ∀ d : Byte, repeatN crcShift 8 (d.setWidth 16) =
    ((d ^^^ (d <<< 4)).setWidth 16 <<< 8) ^^^ ((d ^^^ (d <<< 4)).setWidth 16 <<< 3) ^^^
      ((d ^^^ (d <<< 4)).setWidth 16 >>> 4) := by
  decide

theorem u16Of_ushiftRight (lo hi : Byte) : u16Of lo hi >>> 8 = hi.setWidth 16 := by
  have hlow := lo.isLt
  have hhigh := hi.isLt
  refine BitVec.eq_of_toNat_eq ?_
  rw [BitVec.toNat_ushiftRight, u16Of_toNat, BitVec.toNat_setWidth, Nat.shiftRight_eq_div_pow]
  omega

/-- R66: a value is its high byte and its low byte, which do not overlap. -/
theorem u16Of_eq_xor (lo hi : Byte) : u16Of lo hi = (hi.setWidth 16 <<< 8) ^^^ lo.setWidth 16 := by
  refine BitVec.eq_of_getLsbD_eq fun i _ => ?_
  rcases Nat.lt_or_ge i 8 with hlow | hhigh
  · simp [u16Of, hlow]
  · simp [u16Of, BitVec.getLsbD_of_ge lo i hhigh]

theorem crcByte_injective_crc (b : Byte) : Function.Injective (crcByte · b) := fun _ _ h =>
  BitVec.xor_left_inj _ |>.1 (repeatN_crcShift_injective 8 h)

theorem crcByte_injective_byte (crc : BitVec 16) : Function.Injective (crcByte crc) := fun b d h => by
  have hwide := (BitVec.xor_right_inj _).1 (repeatN_crcShift_injective 8 h)
  simpa using congrArg (BitVec.setWidth 8) hwide

/-- R230: two more bytes bring the register to zero exactly when they are its low and its high byte. -/
theorem crcByte_crcByte_eq_zero_iff (crc : BitVec 16) (x y : Byte) :
    crcByte (crcByte crc x) y = 0 ↔ crc = u16Of x y := by
  have hinjective := repeatN_crcShift_injective 8
  calc crcByte (crcByte crc x) y = 0
      ↔ repeatN crcShift 8 (crcByte crc x ^^^ y.setWidth 16) = repeatN crcShift 8 0 := by
        rw [repeatN_crcShift_zero, ← crcByte]
    _ ↔ crcByte crc x = y.setWidth 16 := hinjective.eq_iff.trans BitVec.xor_eq_zero_iff
    _ ↔ repeatN crcShift 8 (crc ^^^ x.setWidth 16) = repeatN crcShift 8 (y.setWidth 16 <<< 8) := by
        rw [repeatN_crcShift_highByte, ← crcByte]
    _ ↔ crc ^^^ x.setWidth 16 = y.setWidth 16 <<< 8 := hinjective.eq_iff
    _ ↔ crc = u16Of x y := by
        rw [u16Of_eq_xor, ← BitVec.xor_left_inj (x.setWidth 16) (x := crc), BitVec.xor_assoc (_ <<< _), BitVec.xor_self,
          BitVec.xor_zero]

/-- R226: one byte taken into a register given by its two bytes: the high byte comes down, the low byte meets the new one. -/
theorem crcByte_u16Of (lo hi b : Byte) :
    crcByte (u16Of lo hi) b = hi.setWidth 16 ^^^ repeatN crcShift 8 ((b ^^^ lo).setWidth 16) := by
  rw [crcByte, u16Of_eq_xor, BitVec.xor_assoc, ← BitVec.setWidth_xor, repeatN_crcShift_xor, repeatN_crcShift_highByte,
    BitVec.xor_comm lo]

/-- Settles O39: the low byte of the register by the form without a loop. -/
theorem crcBytewiseFormAgrees : Obligations.CrcBytewiseFormAgrees := by
  refine ⟨rfl, fun bytes b => List.foldl_concat _ _ _ _, fun crc b => ?_⟩
  obtain ⟨lo, hi, rfl⟩ := exists_u16Of crc
  have hlow : (u16Of lo hi).setWidth 8 = lo := payload_u16Of lo hi
  simp only [crcByte_u16Of, repeatN_crcShift_lowByte, hlow, u16Of_ushiftRight, BitVec.xor_assoc]

/-! ### The CRC of a list of bytes (R226, R228, R230) -/

theorem crcA_append (l m : List Byte) : crcA (l ++ m) = m.foldl crcByte (crcA l) := List.foldl_append

/-- R230: with two bytes more the CRC is zero exactly when they are the low and the high byte of the CRC before them. -/
theorem crcA_append_pair_eq_zero_iff (bytes : List Byte) (x y : Byte) :
    crcA (bytes ++ [x, y]) = 0 ↔ crcA bytes = u16Of x y := by
  rw [crcA_append]
  exact crcByte_crcByte_eq_zero_iff (crcA bytes) x y

/-- R226: registers that differ stay different, whatever bytes follow. -/
theorem foldl_crcByte_injective (bytes : List Byte) : Function.Injective (bytes.foldl crcByte) := by
  induction bytes with
  | nil => exact Function.injective_id
  | cons b bytes ih => exact ih.comp (crcByte_injective_crc b)

/-- R232: one byte written over changes the CRC unless it is the byte that was there. -/
theorem eq_of_crcA_set_eq {bytes : List Byte} {i : Nat} (hi : i < bytes.length) {b : Byte}
    (h : crcA (bytes.set i b) = crcA bytes) : b = bytes[i] := by
  have hsplit : bytes = bytes.take i ++ bytes[i] :: bytes.drop (i + 1) := by
    rw [← List.drop_eq_getElem_cons hi, List.take_append_drop]
  have hset : bytes.set i b = bytes.take i ++ b :: bytes.drop (i + 1) := List.set_eq_take_append_cons_drop.trans (if_pos hi)
  have hfold : (bytes.drop (i + 1)).foldl crcByte (crcByte (crcA (bytes.take i)) b) =
      (bytes.drop (i + 1)).foldl crcByte (crcByte (crcA (bytes.take i)) bytes[i]) := by
    rw [hset, crcA_append] at h
    conv at h => rhs; rw [hsplit, crcA_append]
    exact h
  exact crcByte_injective_byte _ (foldl_crcByte_injective _ hfold)

/-! ### The CRC appended and checked (R228, R230, R232) -/

theorem eq_u16Of_iff {v : BitVec 16} {lo hi : Byte} : v = u16Of lo hi ↔ [lo, hi] = u16Bytes v := by
  refine ⟨fun h => by rw [h, u16Bytes_u16Of], fun h => ?_⟩
  obtain ⟨lo', hi', rfl⟩ := exists_u16Of v
  rw [u16Bytes_u16Of] at h
  injection h with hlo hrest
  rw [hlo, List.head_eq_of_cons_eq hrest]

/-- R230: below two units the check fails. -/
theorem checkCrc_short {buf : List Unit16} (h : buf.length < 2) : checkCrc buf = false := by
  have hshort : decide (2 ≤ (buf.map payload).length) = false := decide_eq_false (by rw [List.length_map]; omega)
  rw [checkCrc, hshort, Bool.false_and]

/-- R230: the last two payload bytes are the low and the high byte of the CRC of those before. -/
theorem checkCrc_append_pair (before : List Unit16) (x y : Unit16) :
    checkCrc (before ++ [x, y]) = true ↔ crcA (before.map payload) = u16Of (payload x) (payload y) := by
  have hsplit : (before ++ [x, y]).map payload = before.map payload ++ [payload x, payload y] := List.map_append
  have hlength : (before.map payload ++ [payload x, payload y]).length - 2 = (before.map payload).length := by
    rw [List.length_append]; rfl
  rw [checkCrc, hsplit, hlength, List.take_left, List.drop_left, eq_u16Of_iff, Bool.and_eq_true, decide_eq_true_eq,
    beq_iff_eq]
  exact and_iff_right (by rw [List.length_append]; exact Nat.le_add_left 2 _)

theorem exists_eq_append_pair {α : Type} {l : List α} (h : 2 ≤ l.length) : ∃ before x y, l = before ++ [x, y] := by
  have hlast : (l.drop (l.length - 2)).length = 2 := by rw [List.length_drop]; omega
  obtain ⟨x, y, hpair⟩ := List.length_eq_two.1 hlast
  exact ⟨l.take (l.length - 2), x, y, by rw [← hpair, List.take_append_drop]⟩

/-- R230: the test in its equivalent form, the CRC over all the payload bytes. -/
theorem checkCrc_iff (buf : List Unit16) : checkCrc buf = true ↔ 2 ≤ buf.length ∧ crcA (buf.map payload) = 0 := by
  rcases Nat.lt_or_ge buf.length 2 with hshort | hlong
  · simp [checkCrc_short hshort, Nat.not_le.2 hshort]
  · obtain ⟨before, x, y, rfl⟩ := exists_eq_append_pair hlong
    have hsplit : (before ++ [x, y]).map payload = before.map payload ++ [payload x, payload y] := List.map_append
    rw [checkCrc_append_pair, hsplit, crcA_append_pair_eq_zero_iff, and_iff_right hlong]

/-- R230: the check looks at payload bits only. -/
theorem checkCrc_congr {buf other : List Unit16} (h : other.map payload = buf.map payload) :
    checkCrc other = checkCrc buf := by
  rw [checkCrc, h, ← checkCrc]

theorem checkCrc_appendCrc (buf : List Unit16) : checkCrc (appendCrc buf) = true := by
  rw [appendCrc, checkCrc_append_pair, payload_parityUnit, payload_parityUnit, eq_u16Of_iff, u16Bytes]

theorem payload_flip_ne (u : Unit16) {j : Nat} (hj : j < 8) : payload (u ^^^ (1#16 <<< j)) ≠ payload u := by
  intro h
  have hbit := congrArg (BitVec.getLsbD · j) h
  have hbelow : j < 16 := by omega
  simp [payload, hj, hbelow] at hbit

/-- R232: a list of units that checks does not check with one payload bit flipped. -/
theorem checkCrc_flip {l : List Unit16} (h : checkCrc l = true) {i j : Nat} (hi : i < l.length) (hj : j < 8) :
    checkCrc (l.set i (l.getD i 0 ^^^ (1#16 <<< j))) = false := by
  refine Bool.eq_false_iff.2 fun hflipped => ?_
  have hsame : crcA ((l.map payload).set i (payload (l.getD i 0 ^^^ (1#16 <<< j)))) = crcA (l.map payload) := by
    rw [← List.map_set, ((checkCrc_iff _).1 hflipped).2, ((checkCrc_iff l).1 h).2]
  have hbyte := eq_of_crcA_set_eq (by rwa [List.length_map]) hsame
  rw [List.getElem_map, ← List.getD_eq_getElem l 0 hi] at hbyte
  exact payload_flip_ne _ hj hbyte

theorem unitsBytes_append (us vs : List Unit16) : unitsBytes (us ++ vs) = unitsBytes us ++ unitsBytes vs := by
  induction us with
  | nil => rfl
  | cons u us ih => rw [List.cons_append, unitsBytes, unitsBytes, ih, List.append_assoc]

/-- Settles O37: the two units are the bytes of the CRC with their parity. -/
theorem appendCrcAppendsTwoUnits : Obligations.AppendCrcAppendsTwoUnits := by
  intro n buf hlength
  refine ⟨decodeOfEncodeIsIdentity (.appendCrc n buf) (decide_eq_true hlength), fun s hbusy =>
    ⟨fun hlong => congrArg Outcome.next ?_, fun hfits => ?_⟩⟩
  · have hbad : okAppendCrc n buf = false := by
      rw [okAppendCrc, okUnits_of_length hlength, Bool.true_and]
      exact decide_eq_false (Nat.not_le.2 hlong)
    rw [hbad, issue_badOperand hbusy, Option.getD_none]
  · have hok : okAppendCrc n buf = true := by
      rw [okAppendCrc, okUnits_of_length hlength, Bool.true_and]
      exact decide_eq_true hfits
    refine ⟨parityUnit _, parityUnit _, payload_parityUnit _, payload_parityUnit _, fun u hu => ?_,
      congrArg Outcome.next ?_⟩
    · rcases List.mem_pair.1 hu with rfl | rfl <;> exact ⟨parityUnit_lt _, parityUnit_odd _⟩
    · rw [utlIssue_answers hbusy hok, appendCrc, unitsBytes_append, List.append_assoc]
      rfl

/-- Settles O38: the test compares two bytes with those of the CRC, and only these bring the CRC to zero. -/
theorem checkCrcComparesTheLastTwo : Obligations.CheckCrcComparesTheLastTwo := by
  intro n buf hlength
  refine ⟨decodeOfEncodeIsIdentity (.checkCrc n buf) (decide_eq_true hlength), fun s hbusy =>
    ⟨fun hshort => ?_, fun before x y hbuf => ⟨?_, ?_⟩⟩⟩
  · rw [exec_checkCrc hlength hbusy, checkCrc_short (hlength ▸ hshort), if_neg Bool.false_ne_true]
  · have hbytes : checkCrc buf = true ↔ (payload x).toNat = (crcA (before.map payload)).toNat % 256 ∧
        (payload y).toNat = (crcA (before.map payload)).toNat / 256 := by
      have hx := (payload x).isLt
      have hy := (payload y).isLt
      rw [hbuf, checkCrc_append_pair, ← BitVec.toNat_inj, u16Of_toNat]
      omega
    rw [exec_checkCrc hlength hbusy]
    simp only [hbytes]
  · have htwo : 2 ≤ buf.length := by rw [hbuf, List.length_append]; exact Nat.le_add_left 2 _
    exact (checkCrc_iff buf).trans (and_iff_right htwo)

/-- Settles O40: each of the properties by its lemma above. -/
theorem crcAndParityProperties : Obligations.CrcAndParityProperties := fun buf =>
  ⟨checkCrc_appendCrc buf,
    fun _ _ hi hj => checkCrc_flip (checkCrc_appendCrc buf) (by rwa [appendCrc, List.length_append]) hj,
    fun _ => checkCrc_congr, checkParity_setParity buf, setParity_setParity buf⟩

end Sys2Proof.Machine

/-! PROOFS. The family `43_iso14443a.md`: the operations of ACE (R250, R265 to R276), the rounds of a cascade level (R257 to
R259, R263), the UID of a search (R262) and the search for one card (R255). -/

namespace Sys2Proof.Machine

open Host (Outcome)

/-! ### Short frames and HLTA (R250, R276) -/

/-- R250: the check of a short-frame operand. -/
theorem okShort_eq_false {cmd : Byte} (h : 0x7F#8 < cmd) : okShort cmd = false :=
  decide_eq_false (BitVec.not_le.2 h)

/-- R250: the seven bits that go out are the low seven of the operand. -/
theorem bitsN_low7 (cmd : Byte) : bitsN 7 (low7 cmd) reqaBits = bitsN 8 cmd 7 := by
  refine List.map_congr_left fun i hi => ?_
  have hi7 : i < 7 := List.mem_range.1 hi
  rw [low7, BitVec.getLsbD_setWidth, decide_eq_true hi7, Bool.true_and]

/-- R250: the mask of the ATQA's low five bits, and the byte it is applied to. -/
theorem atqaTest_iff (atqa : List Byte) : atqa.headD 0 &&& atqaAnticolMask = 0 ↔ atqa.getD 0 0 &&& 0x1F#8 = 0 := by
  rw [List.headD_eq_getD]
  rfl

/-- R250: an answer without a collision is the ATQA when its length and its low five bits are right. -/
theorem answer_atqaOf_frame (bits : List Bit) : answer (atqaOf (.frame bits none)) =
    if bits.length ≠ 16 then .status .badLength []
    else if (packLsb bits).getD 0 0 &&& 0x1F#8 = 0 then .status .false_ []
    else .status .ok (packLsb bits) := by
  simp only [atqaOf, atqaTest_iff]
  split_ifs
  · rfl
  · rfl
  · rfl

/-- R250: an answer with a collision counts as an ATQA by where the collision is, or else by its bits. -/
theorem answer_atqaOf_collision (bits : List Bit) (p : Nat) {atqa : List Byte}
    (h : packLsb ((bits ++ List.replicate 16 false).take 16) = atqa) : answer (atqaOf (.frame bits (some p))) =
      if p < 5 ∨ atqa.getD 0 0 &&& 0x1F#8 ≠ 0 then .status .ok atqa else .status .false_ [] := by
  simp only [atqaOf, h, ne_eq, atqaTest_iff]
  by_cases hp : p < 5
  · rw [if_pos hp, if_pos (.inl hp)]
    rfl
  · rw [if_neg hp]
    simp only [hp, false_or]
    split_ifs
    · rfl
    · rfl

/-- Settles O44, by the forms of the answer. -/
theorem reqaAnswersByItsExchange : Obligations.ReqaAnswersByItsExchange := by
  refine ⟨fun cmd => ⟨decode_hostWord (op := .reqa) rfl, sessionGuarded_of_issue fun _ => ⟨_, rfl⟩⟩,
    fun cmd s hs hbad => congrArg Outcome.next (seqIssue_badOperand hs (okShort_eq_false hbad)),
    fun cmd s hs hcmd => ⟨exchangeSeq_writes _ _ _ _ _, ?_⟩⟩
  refine congrArg Outcome.next ((seqIssue_runs hs (decide_eq_true hcmd)).trans ?_)
  simp only [reqa, bitsN_low7]
  generalize exchangeSeq params .short (bitsN 8 cmd 7) true s.running = r
  obtain ⟨result, t⟩ := r
  refine congrArg (State.ended t) ?_
  cases result with
  | noResponse | error c => rfl
  | frame bits coll =>
    cases coll with
    | none => exact answer_atqaOf_frame bits
    | some p => exact answer_atqaOf_collision bits p rfl

/-- Settles O54, by the forms of the answer. -/
theorem haltSendsHlta : Obligations.HaltSendsHlta := by
  refine ⟨decode_hostWord (op := .halt) rfl, sessionGuarded_of_issue fun _ => ⟨_, rfl⟩,
    fun s hs => ⟨exchangeSeq_writes _ _ _ _ _, ?_⟩⟩
  have hbits : params.rfHlta.flatMap bits8 = bits8 0x50 ++ bits8 0x00 := rfl
  refine congrArg Outcome.next ((seqIssue_runs hs rfl).trans ?_)
  simp only [halt, hbits]
  generalize exchangeSeq params .standard (bits8 0x50 ++ bits8 0x00) false s.running = r
  obtain ⟨result, t⟩ := r
  refine congrArg (State.ended t) ?_
  cases result with
  | noResponse | error c | frame bits coll => rfl

/-! ### The rounds of a level (R257 to R259, R263) -/

/-- R258: what a round without a collision makes of the record. -/
theorem mergeAll_eq_ok {st : AnticolState} {base known : Nat} {bits : List Bit} (h : bits.length = 40 - known) :
    mergeAll st base known bits = .ok { st.setUidBits (base + known) bits with bitPos := base + 40 } :=
  if_neg (not_not.2 h)

/-- R259: what a round with a collision makes of the record. -/
theorem mergeToCollision_eq_ok {st : AnticolState} {base known p : Nat} {bits : List Bit} (hknown : known ≤ p)
    (hp : p ≤ 39) (hlength : p - known ≤ bits.length) : mergeToCollision st base known bits p =
      .ok { (((st.setUidBits (base + known) (bits.take (p - known))).setUidBit (base + p) false).setCollBit (base + p) true)
        with bitPos := base + p + 1 } := by
  rw [mergeToCollision, if_neg (by omega), if_neg (by omega)]

/-- R256: the bits of a record do not depend on the position of the search. -/
theorem AnticolState.withBitPos_uidBit (st : AnticolState) (n q : Nat) :
    ({ st with bitPos := n } : AnticolState).uidBit q = st.uidBit q := rfl

theorem AnticolState.withBitPos_collBit (st : AnticolState) (n q : Nat) :
    ({ st with bitPos := n } : AnticolState).collBit q = st.collBit q := rfl

theorem AnticolState.setUidBits_coll (st : AnticolState) (p : Nat) (l : List Bit) : (st.setUidBits p l).coll = st.coll := by
  induction l generalizing st p with
  | nil => rfl
  | cons b l ih => rw [AnticolState.setUidBits, ih]; rfl

/-- Settles O45, by the bits that each merge writes. -/
theorem roundsMergeIntoTheRecord : Obligations.RoundsMergeIntoTheRecord := by
  intro st base known bits hbase hknown
  refine ⟨fun hlength => if_pos hlength, fun hlength => ?_, fun p => ⟨fun hp => if_pos hp, fun hp hp39 hshort => ?_,
    fun hp hp39 hlength => ?_⟩⟩
  · refine ⟨_, mergeAll_eq_ok hlength, rfl, AnticolState.setUidBits_coll _ _ _, fun q => ?_⟩
    have hend : base + known + bits.length = base + 40 := by omega
    rw [AnticolState.withBitPos_uidBit, AnticolState.setUidBits_uidBit _ _ _ (by omega), hend]
  · rw [mergeToCollision, if_neg (by omega), if_pos hshort]
  · have htaken : (bits.take (p - known)).length = p - known := List.length_take_of_le hlength
    refine ⟨_, mergeToCollision_eq_ok hp hp39 hlength, rfl, fun q => ?_, fun q => ?_⟩
    · rw [AnticolState.withBitPos_collBit, AnticolState.setCollBit_collBit, AnticolState.setUidBit_collBit,
        AnticolState.setUidBits_collBit]
      by_cases hq : q = base + p
      · subst hq
        rw [if_pos ⟨rfl, by omega⟩, beq_self_eq_true, Bool.true_or]
      · rw [if_neg fun h => hq h.1.symm, beq_false_of_ne hq, Bool.false_or]
    · rw [AnticolState.withBitPos_uidBit, AnticolState.setCollBit_uidBit, AnticolState.setUidBit_uidBit,
        AnticolState.setUidBits_uidBit _ _ _ (by omega), htaken]
      by_cases hq : q = base + p
      · rw [if_pos ⟨hq.symm, by omega⟩, if_pos hq]
      · have hend : base + known + (p - known) = base + p := by omega
        rw [if_neg fun h => hq h.1.symm, if_neg hq, hend]
        split_ifs with hin
        · have hbefore : q - (base + known) < p - known := by omega
          rw [List.getD_eq_getElem?_getD, List.getD_eq_getElem?_getD, List.getElem?_take_of_lt hbefore]
        · rfl

/-- Settles O46: `Known` rises in each round, and 40 rounds are enough. -/
theorem roundsEndWithTheLevelKnown : Obligations.RoundsEndWithTheLevelKnown := fun _ _ _ =>
  ⟨fun _ _ => known_lt_of_mergeAnswer, fun _ _ _ => known_of_anticolRounds (Nat.le_add_left _ _)⟩

/-! ### The UID of a search (R262) -/

/-- R34: the first four bytes of a level. -/
theorem AnticolState.level_take_four (st : AnticolState) (lvl : Nat) :
    (st.level lvl).take 4 = (st.uid.toList.drop (5 * (lvl - 1))).take 4 := by
  rw [AnticolState.level, List.take_take]
  rfl

/-- R262: the bytes that the three levels give. -/
theorem assembleUid_one (st : AnticolState) : assembleUid st 1 = st.uid.toList.take 4 := by
  have hlevels : assembleUid st 1 = (st.level 1).take 4 := List.append_nil _
  rw [hlevels, AnticolState.level_take_four]
  rfl

theorem assembleUid_two (st : AnticolState) :
    assembleUid st 2 = (st.uid.toList.take 4).drop 1 ++ (st.uid.toList.drop 5).take 4 := by
  have hlevels : assembleUid st 2 = ((st.level 1).take 4).drop 1 ++ ((st.level 2).take 4 ++ []) := rfl
  rw [hlevels, List.append_nil, AnticolState.level_take_four, AnticolState.level_take_four]
  rfl

theorem assembleUid_three (st : AnticolState) : assembleUid st 3 =
    (st.uid.toList.take 4).drop 1 ++ ((st.uid.toList.drop 5).take 4).drop 1 ++ (st.uid.toList.drop 10).take 4 := by
  have hlevels : assembleUid st 3 =
    ((st.level 1).take 4).drop 1 ++ (((st.level 2).take 4).drop 1 ++ ((st.level 3).take 4 ++ [])) := rfl
  rw [hlevels, List.append_nil, AnticolState.level_take_four, AnticolState.level_take_four,
    AnticolState.level_take_four, List.append_assoc]
  rfl

/-- R262: `uidLen = 3 (L - 1) + 4`. -/
theorem assembleUid_length (st : AnticolState) {levels : Nat} (hpos : 1 ≤ levels) (hle : levels ≤ 3) :
    (assembleUid st levels).length = 3 * (levels - 1) + 4 := by
  have hbytes : st.uid.toList.length = 15 := Vector.length_toList
  obtain rfl | rfl | rfl : levels = 1 ∨ levels = 2 ∨ levels = 3 := by omega
  · simp [assembleUid_one]
  · simp [assembleUid_two]
  · simp [assembleUid_three]

/-- R255, R262: a search that succeeds ends with a SAK that says so, and its UID is that of the levels searched. -/
theorem Search.success {P : Params} {lvl : Nat} {st st' : AnticolState} {s t : State}
    {r : Except Status (List Byte × Byte)} (h : Search P lvl st s r st' t) (hpos : 1 ≤ lvl) {uid : List Byte} {sak : Byte}
    (hr : r = .ok (uid, sak)) :
    sak.getLsbD 2 = false ∧ ∃ levels, 1 ≤ levels ∧ levels ≤ 3 ∧ uid = assembleUid st' levels := by
  induction h with
  | overflow | roundFails | selectFails => cases hr
  | round _ _ _ _ _ _ _ _ _ _ _ _ _ _ ih => exact ih hpos hr
  | selectMore _ _ _ _ _ _ _ _ _ _ _ _ _ ih => exact ih (Nat.le_add_left 1 _) hr
  | selectLast lvl _ _ _ _ hlvl _ _ hsak =>
    cases hr
    exact ⟨hsak, lvl, hpos, hlvl, rfl⟩

/-- Settles O48: the levels byte by byte, and what a success of the search relation says. -/
theorem searchAssemblesTheUid : Obligations.SearchAssemblesTheUid := by
  refine ⟨fun st => ⟨assembleUid_one st, assembleUid_two st, assembleUid_three st⟩, fun P st s uid sak hok => ?_⟩
  obtain ⟨hsak, levels, hpos, hle, huid⟩ := (searchFollowsItsRule.1 P st s).success le_rfl hok
  have hlength := assembleUid_length (doAnticol P st s).2.1 hpos hle
  rw [← huid] at hlength
  have hlevels : (uid.length - 4) / 3 + 1 = levels := by omega
  exact ⟨hsak, by omega, by rw [hlevels]; exact huid⟩

/-! ### First and next (R265, R268) -/

/-- R255: the search on the singleton, as an operation ends with it. -/
theorem doAnticolSingleton_ended (P : Params) (s : State) :
    (doAnticolSingleton P s).2.ended (answer (doAnticolSingleton P s).1) =
      ({ (doAnticol P s.acs s).2.2 with acs := (doAnticol P s.acs s).2.1 } : State).ended
        (searchAnswer (doAnticol P s.acs s).1) := by
  rw [doAnticolSingleton, answer_map_uidResults]

section
variable {P : Params} {cmd : BitVec 7} {s : State} {e : Status} {atqa : List Byte}

theorem selectFirst_reqa_fails (h : (reqa P cmd { s with acs := .zero }).1 = .error e) :
    selectFirst P cmd s = (.error e, (reqa P cmd { s with acs := .zero }).2) := by
  simp only [selectFirst, h]

theorem selectFirst_searches (h : (reqa P cmd { s with acs := .zero }).1 = .ok atqa) :
    selectFirst P cmd s = doAnticolSingleton P (reqa P cmd { s with acs := .zero }).2 := by
  simp only [selectFirst, h]

theorem selectNext_no_marker (h : s.acs.markerBelow s.acs.bitPos = none) :
    selectNext P cmd s = (.error .noBacktrack, s) := by
  simp only [selectNext, h]

variable {p : Nat}

theorem selectNext_reqa_fails (hp : s.acs.markerBelow s.acs.bitPos = some p) (h : (reqa P cmd s).1 = .error e) :
    selectNext P cmd s = (.error e, (reqa P cmd s).2) := by
  simp only [selectNext, hp, h]

theorem selectNext_searches (hp : s.acs.markerBelow s.acs.bitPos = some p) (h : (reqa P cmd s).1 = .ok atqa) :
    selectNext P cmd s = doAnticolSingleton P { (reqa P cmd s).2 with acs := takeBranch s.acs p } := by
  simp only [selectNext, hp, h, (reqa_writes P cmd s).acs]

end

/-- Settles O51, by how the REQA ends. -/
theorem selectFirstStartsFromZero : Obligations.SelectFirstStartsFromZero := by
  refine ⟨fun cmd => ⟨decode_hostWord (op := .selectFirst) rfl, sessionGuarded_of_issue fun _ => ⟨_, rfl⟩⟩,
    fun cmd s hs hbad => congrArg Outcome.next (seqIssue_badOperand hs (okShort_eq_false hbad)),
    fun cmd s hs hcmd => ⟨reqa_writes _ _ _, doAnticol_writes _ _ _, ?_⟩⟩
  have hlow : cmd.setWidth 7 = low7 cmd := rfl
  have hacs := (reqa_writes params (low7 cmd) { s.running with acs := .zero }).acs
  refine congrArg Outcome.next ((seqIssue_runs hs (decide_eq_true hcmd)).trans ?_)
  simp only [hlow]
  cases hreqa : (reqa params (low7 cmd) { s.running with acs := .zero }).1 with
  | error e => rw [selectFirst_reqa_fails hreqa]; rfl
  | ok atqa => rw [selectFirst_searches hreqa, doAnticolSingleton_ended, hacs]

/-- R268: the record turned to a branch at a marker: the bit there is 1, the marker is gone, nothing else changed. -/
theorem takeBranch_uidBit {st : AnticolState} {p : Nat} (hp : st.collBit p = true) (k : Nat) :
    (takeBranch st p).uidBit k = (k == p || st.uidBit k) := by
  have hbit : (takeBranch st p).uidBit k = if p = k ∧ p < 120 then true else st.uidBit k :=
    AnticolState.setUidBit_uidBit st p k true
  have hlt := AnticolState.collBit_lt hp
  by_cases hk : k = p
  · rw [hbit, if_pos ⟨hk.symm, hlt⟩, hk, beq_self_eq_true, Bool.true_or]
  · rw [hbit, if_neg fun h => hk h.1.symm, beq_false_of_ne hk, Bool.false_or]

theorem takeBranch_collBit {st : AnticolState} {p : Nat} (hp : st.collBit p = true) (k : Nat) :
    (takeBranch st p).collBit k = (k != p && st.collBit k) := by
  have hbit : (takeBranch st p).collBit k = if p = k ∧ p < 120 then false else st.collBit k :=
    AnticolState.setCollBit_collBit (st.setUidBit p true) p k false
  have hlt := AnticolState.collBit_lt hp
  by_cases hk : k = p
  · rw [hbit, if_pos ⟨hk.symm, hlt⟩, hk, bne_self_eq_false, Bool.false_and]
  · rw [hbit, if_neg fun h => hk h.1.symm, bne_iff_ne.2 hk, Bool.true_and]

/-- Settles O52, by the highest marker and by how the REQA ends. -/
theorem selectNextTakesTheNearestMarker : Obligations.SelectNextTakesTheNearestMarker := by
  refine ⟨fun cmd => ⟨decode_hostWord (op := .selectNext) rfl, sessionGuarded_of_issue fun _ => ⟨_, rfl⟩⟩,
    fun cmd s hs hbad => congrArg Outcome.next (seqIssue_badOperand hs (okShort_eq_false hbad)),
    fun cmd s hs hcmd hnone => ?_, fun cmd s p hs hcmd hlt hp hhighest => ?_⟩
  · have hmarker : s.running.acs.markerBelow s.running.acs.bitPos = none := AnticolState.markerBelow_eq_none.2 hnone
    have hended : s.running.ended (.status .noBacktrack []) =
        ({ s with busy := false } : State).respond (.status .noBacktrack []) := rfl
    refine congrArg Outcome.next ((seqIssue_runs hs (decide_eq_true hcmd)).trans ?_)
    rw [selectNext_no_marker hmarker, answer, hended, ← hs.1]
  · have hmarker : s.running.acs.markerBelow s.running.acs.bitPos = some p :=
      AnticolState.markerBelow_eq_some.2 ⟨hlt, hp, hhighest⟩
    have hlow : cmd.setWidth 7 = low7 cmd := rfl
    refine ⟨takeBranch s.acs p, rfl, takeBranch_uidBit hp, takeBranch_collBit hp, reqa_writes _ _ _,
      doAnticol_writes _ _ _, ?_⟩
    refine congrArg Outcome.next ((seqIssue_runs hs (decide_eq_true hcmd)).trans ?_)
    simp only [hlow]
    cases hreqa : (reqa params (low7 cmd) s.running).1 with
    | error e => rw [selectNext_reqa_fails hmarker hreqa]; rfl
    | ok atqa => rw [selectNext_searches hmarker hreqa, doAnticolSingleton_ended]; rfl

/-! ### Select (R272) -/

theorem okSelect_eq_false {uidLen : Byte} (uid : List Byte) (h4 : uidLen ≠ 4) (h7 : uidLen ≠ 7) (h10 : uidLen ≠ 10) :
    okSelect uidLen uid = false := by
  rw [okSelect, decide_eq_false (not_or.2 ⟨h4, not_or.2 ⟨h7, h10⟩⟩), Bool.false_and]

theorem okSelect_eq_true {uidLen : Byte} {uid : List Byte} (hlen : uidLen = 4 ∨ uidLen = 7 ∨ uidLen = 10)
    (hlength : uid.length = uidLen.toNat) : okSelect uidLen uid = true := by
  rw [okSelect, decide_eq_true hlen, decide_eq_true hlength, Bool.and_self]

/-- R272: the local record has no markers. -/
theorem selectRecord_collBit (uid : List Byte) (p : Nat) : (selectRecord uid).collBit p = false :=
  AnticolState.zero_collBit p

/-- A list read at the first `n` indices, with zeros past its end. -/
theorem ofFn_getD_eq_append_replicate (l : List Byte) {n : Nat} (h : l.length ≤ n) :
    (List.ofFn fun i : Fin n => l.getD i 0) = l ++ List.replicate (n - l.length) 0 := by
  refine List.ext_getElem (by simp [h]) fun i _ _ => ?_
  rw [List.getElem_ofFn, List.getD_eq_getElem?_getD]
  rcases Nat.lt_or_ge i l.length with hin | hout
  · rw [List.getElem_append_left hin, List.getElem?_eq_getElem hin, Option.getD_some]
  · rw [List.getElem_append_right hout, List.getElem?_eq_none hout, Option.getD_none, List.getElem_replicate]

/-- R272: the bytes of the local record are those of the levels, then zeros. -/
theorem selectRecord_uid {uid bytes : List Byte} {n levels : Nat} (hn : uid.length = n) (hlevels : cascadeLevels n = levels)
    (hbytes : (List.range levels).flatMap (fun i => levelBytes uid levels (i + 1)) = bytes) (hle : bytes.length ≤ 15) :
    (selectRecord uid).uid.toList = bytes ++ List.replicate (15 - bytes.length) 0 := by
  subst hn hlevels hbytes
  rw [← ofFn_getD_eq_append_replicate _ hle]
  exact Vector.toList_ofFn

/-- R272: all bits of the levels are known. -/
theorem selectRecord_bitPos {uid : List Byte} {n levels : Nat} (hn : uid.length = n) (hlevels : cascadeLevels n = levels) :
    (selectRecord uid).bitPos = 40 * levels := by
  subst hn hlevels
  rfl

/-- R112: the check byte of a level. -/
theorem bcc_four (b0 b1 b2 b3 : Byte) : bcc [b0, b1, b2, b3] = b0 ^^^ b1 ^^^ b2 ^^^ b3 := by
  simp only [bcc, List.foldl, BitVec.zero_xor]

/-- R111, R272: the local records of the three lengths. -/
theorem selectRecord_four (b0 b1 b2 b3 : Byte) : (selectRecord [b0, b1, b2, b3]).uid.toList =
    [b0, b1, b2, b3, b0 ^^^ b1 ^^^ b2 ^^^ b3] ++ List.replicate 10 0 := by
  rw [← bcc_four]
  exact selectRecord_uid (n := 4) (levels := 1) rfl rfl rfl (Nat.le_of_ble_eq_true rfl)

theorem selectRecord_seven (b0 b1 b2 b3 b4 b5 b6 : Byte) : (selectRecord [b0, b1, b2, b3, b4, b5, b6]).uid.toList =
    [0x88, b0, b1, b2, 0x88 ^^^ b0 ^^^ b1 ^^^ b2, b3, b4, b5, b6, b3 ^^^ b4 ^^^ b5 ^^^ b6] ++ List.replicate 5 0 := by
  rw [← bcc_four, ← bcc_four]
  exact selectRecord_uid (n := 7) (levels := 2) rfl rfl rfl (Nat.le_of_ble_eq_true rfl)

theorem selectRecord_ten (b0 b1 b2 b3 b4 b5 b6 b7 b8 b9 : Byte) :
    (selectRecord [b0, b1, b2, b3, b4, b5, b6, b7, b8, b9]).uid.toList =
      [0x88, b0, b1, b2, 0x88 ^^^ b0 ^^^ b1 ^^^ b2, 0x88, b3, b4, b5, 0x88 ^^^ b3 ^^^ b4 ^^^ b5,
        b6, b7, b8, b9, b6 ^^^ b7 ^^^ b8 ^^^ b9] := by
  rw [← bcc_four, ← bcc_four, ← bcc_four]
  exact (selectRecord_uid (n := 10) (levels := 3) rfl rfl rfl le_rfl).trans (List.append_nil _)

section
variable {P : Params} {uid found : List Byte} {s : State} {e : Status} {atqa : List Byte} {sak : Byte}

theorem selectExact_reqa_fails (h : (reqa P P.rfWupa s).1 = .error e) :
    selectExact P uid s = (.error e, (reqa P P.rfWupa s).2) := by
  simp only [selectExact, h]

theorem selectExact_search_fails (h : (reqa P P.rfWupa s).1 = .ok atqa)
    (hsearch : (doAnticol P (selectRecord uid) (reqa P P.rfWupa s).2).1 = .error e) :
    selectExact P uid s = (.error e, (doAnticol P (selectRecord uid) (reqa P P.rfWupa s).2).2.2) := by
  simp only [selectExact, h, hsearch]

theorem selectExact_finds (h : (reqa P P.rfWupa s).1 = .ok atqa)
    (hsearch : (doAnticol P (selectRecord uid) (reqa P P.rfWupa s).2).1 = .ok (found, sak)) :
    selectExact P uid s = (if found.length = uid.length then .ok [sak] else .error .uidLenMismatch,
      (doAnticol P (selectRecord uid) (reqa P P.rfWupa s).2).2.2) := by
  simp only [selectExact, h, hsearch, ne_eq, ite_not]

end

/-- R272: a WUPA, then the search on the local record, then the comparison of the lengths. -/
theorem exec_select {uidLen : Byte} {uid : List Byte} {s : State} (hs : s.SeqReady) (hok : okSelect uidLen uid = true) :
    let r := reqa params params.rfWupa s.running
    let q := doAnticol params (selectRecord uid) r.2
    exec (.select uidLen uid) s = .next (match r.1 with
      | .error e => r.2.ended (.status e [])
      | .ok _ => q.2.2.ended (match q.1 with
        | .error e => .status e []
        | .ok (found, sak) =>
          if found.length = uid.length then .status .ok [sak] else .status .uidLenMismatch [])) := by
  refine congrArg Outcome.next ((seqIssue_runs hs hok).trans ?_)
  dsimp only
  cases hwupa : (reqa params params.rfWupa s.running).1 with
  | error e => rw [selectExact_reqa_fails hwupa]; rfl
  | ok atqa =>
    cases hsearch : (doAnticol params (selectRecord uid) (reqa params params.rfWupa s.running).2).1 with
    | error e => rw [selectExact_search_fails hwupa hsearch]; rfl
    | ok result =>
      obtain ⟨found, sak⟩ := result
      rw [selectExact_finds hwupa hsearch, apply_ite answer]
      rfl

/-- Settles O53: the record by the length of the UID, the operation by how the WUPA and the search end. -/
theorem selectUsesALocalRecord : Obligations.SelectUsesALocalRecord := by
  refine ⟨fun uidLen uid hlength => ⟨?_, sessionGuarded_of_issue fun _ => ⟨_, rfl⟩⟩,
    fun uidLen uid s hs h4 h7 h10 => congrArg Outcome.next (seqIssue_badOperand hs (okSelect_eq_false uid h4 h7 h10)),
    fun uidLen uid s hs hlength hlen => ?_⟩
  · exact decodeOfEncodeIsIdentity (.select uidLen uid) (decide_eq_true hlength)
  refine ⟨selectRecord uid, selectRecord_collBit uid, ?_, ?_, ?_, reqa_writes _ _ _, doAnticol_writes _ _ _,
    exec_select hs (okSelect_eq_true hlen hlength)⟩
  · rintro rfl
    match uid, hlength with
    | [b0, b1, b2, b3], _ => exact ⟨selectRecord_bitPos (n := 4) rfl rfl, b0, b1, b2, b3, rfl, selectRecord_four b0 b1 b2 b3⟩
  · rintro rfl
    match uid, hlength with
    | [b0, b1, b2, b3, b4, b5, b6], _ =>
      exact ⟨selectRecord_bitPos (n := 7) rfl rfl, b0, b1, b2, b3, b4, b5, b6, rfl, selectRecord_seven b0 b1 b2 b3 b4 b5 b6⟩
  · rintro rfl
    match uid, hlength with
    | [b0, b1, b2, b3, b4, b5, b6, b7, b8, b9], _ =>
      exact ⟨selectRecord_bitPos (n := 10) rfl rfl, b0, b1, b2, b3, b4, b5, b6, b7, b8, b9, rfl,
        selectRecord_ten b0 b1 b2 b3 b4 b5 b6 b7 b8 b9⟩

/-! ### One card (R255, R258, R260) -/

/-- R13: bit `q` of the bits of bytes is bit `q mod 8` of byte `q div 8`. -/
theorem flatMap_bits8_getD (bytes : List Byte) (q : Nat) :
    (bytes.flatMap bits8).getD q false = (bytes.getD (q / 8) 0).getLsbD (q % 8) := by
  induction bytes generalizing q with
  | nil => simp
  | cons b bytes ih =>
    rw [List.flatMap_cons]
    rcases Nat.lt_or_ge q 8 with hfirst | hlater
    · have hbit : (bits8 b)[q]? = some (b.getLsbD q) := bitsN_getElem? b hfirst
      rw [List.getD_append _ _ _ _ hfirst, List.getD_eq_getElem?_getD, hbit, Nat.div_eq_of_lt hfirst,
        Nat.mod_eq_of_lt hfirst]
      rfl
    · obtain ⟨k, rfl⟩ := Nat.exists_eq_add_of_le hlater
      rw [List.getD_append_right _ _ _ _ hlater, bits8_length, Nat.add_sub_cancel_left, ih,
        Nat.add_div_left k (by decide), Nat.add_mod_left, List.getD_cons_succ]

/-- R34: fifteen bytes with the bits of the array are its bytes. -/
theorem toList_eq_of_bitAt {v : Vector Byte 15} {l : List Byte} (hlength : l.length = 15)
    (h : ∀ q, bitAt v q = (l.getD (q / 8) 0).getLsbD (q % 8)) : v.toList = l := by
  refine List.ext_getElem (by rw [Vector.length_toList, hlength]) fun i hv hl => BitVec.eq_of_getLsbD_eq fun j hj => ?_
  have hbit := h (8 * i + j)
  have hbyte : (8 * i + j) / 8 = i := by omega
  have hpos : (8 * i + j) % 8 = j := by omega
  rwa [bitAt, hbyte, hpos, List.getD_eq_getElem _ _ hv, List.getD_eq_getElem _ _ hl] at hbit

/-- R258: the whole of the first level written. -/
theorem setUidBits_level_one (st : AnticolState) {level : List Byte} (hlength : level.length = 5) :
    (st.setUidBits 0 (level.flatMap bits8)).uid.toList = level ++ st.uid.toList.drop 5 := by
  have hbits : (level.flatMap bits8).length = 40 := by rw [flatMap_bits8_length, hlength]
  have huid : st.uid.toList.length = 15 := Vector.length_toList
  refine toList_eq_of_bitAt (by simp [hlength]) fun q => ?_
  have hq := AnticolState.setUidBits_uidBit st 0 (level.flatMap bits8) (by omega) q
  rw [AnticolState.uidBit] at hq
  rw [hq, hbits]
  split_ifs with hin
  · rw [Nat.sub_zero, flatMap_bits8_getD, List.getD_append _ _ _ _ (by omega)]
  · have hbyte : 5 + (q / 8 - 5) = q / 8 := by omega
    rw [List.getD_append_right _ _ _ _ (by omega), hlength, AnticolState.uidBit, bitAt, List.getD_eq_getElem?_getD,
      List.getD_eq_getElem?_getD, List.getElem?_drop, hbyte]

section
variable {P : Params} {lvl n : Nat} {st st1 : AnticolState} {s s1 s2 : State}

/-- R258, R263: one round without a collision makes a level known. -/
theorem anticolRounds_one_round {bits : List Bit} (hknown : st.known lvl < levelBits)
    (hx : anticolExchange P lvl st s = (.frame bits none, s1))
    (hmerge : mergeAll st (levelBase lvl) (st.known lvl) bits = .ok st1) :
    anticolRounds P lvl (n + 1) st s = (.ok (), st1, s1) := by
  have hanswer : mergeAnswer st lvl (anticolExchange P lvl st s).1 = .ok st1 := by rw [hx]; exact hmerge
  have hall : st1.known lvl = levelBits := by
    rw [AnticolState.known, bitPos_of_mergeAll hmerge, Nat.add_sub_cancel_left, Nat.min_self]
  rw [anticolRounds_goesOn hknown hanswer, hx, anticolRounds_known (by omega)]

/-- R260: a SELECT answered with a byte has that byte for its SAK. -/
theorem sakOf_bits8 (sak : Byte) : sakOf (.frame (bits8 sak) none) = .ok sak := by
  rw [sakOf_frame, bits8_length, byteOfBits_bits8]
  rfl

/-- R255, R260: a level whose SAK has bit 2 clear ends the search. -/
theorem searchLevels_ends {sak : Byte} (hrounds : anticolRounds P lvl levelBits st s = (.ok (), st1, s1))
    (hx : selectExchange P lvl st1 s1 = (.frame (bits8 sak) none, s2)) (hsak : sak.getLsbD 2 = false) :
    searchLevels P (n + 1) lvl st s = (.ok (assembleUid st1 lvl, sak), st1, s2) := by
  simp only [searchLevels, hrounds, hx, sakOf_bits8, hsak, Bool.false_eq_true, if_false]

end

/-- Settles O49: one round makes the first level known, and one SELECT ends the search. -/
theorem oneCardIsFound : Obligations.OneCardIsFound := by
  intro P st s s1 s2 level sak hpos hlength hsak hanticol hselect
  have hknown : st.known 1 = 0 := by rw [AnticolState.known, hpos]; rfl
  have hopen : st.known 1 < levelBits := by rw [hknown]; decide
  have hround : anticolExchange P 1 st s = (.frame (level.flatMap bits8) none, s1) := by
    have hzero : knownBits 1 st = 0 := hknown
    have hnvb : nvbByte 0 = 0x20 := rfl
    rw [anticolExchange_eq, hzero, hnvb, List.range_zero, List.map_nil, List.append_nil, hanticol]
  have hbits : (level.flatMap bits8).length = 40 := by rw [flatMap_bits8_length, hlength]
  have hmerge : mergeAll st (levelBase 1) (st.known 1) (level.flatMap bits8) =
      .ok { st.setUidBits 0 (level.flatMap bits8) with bitPos := 40 } := by rw [hknown]; exact mergeAll_eq_ok hbits
  have hcoll := st.setUidBits_coll 0 (level.flatMap bits8)
  have huid := setUidBits_level_one st hlength
  generalize st.setUidBits 0 (level.flatMap bits8) = merged at hmerge hcoll huid
  have hlevel : AnticolState.level { merged with bitPos := 40 } 1 = level := by
    rw [AnticolState.level, huid]
    exact List.take_left' hlength
  have hx : selectExchange P 1 { merged with bitPos := 40 } s1 = (.frame (bits8 sak) none, s2) := by
    rw [selectExchange, hlevel]
    exact hselect
  have hfound : assembleUid { merged with bitPos := 40 } 1 = level.take 4 := by
    rw [assembleUid_one, huid, List.take_append_of_le_length (by omega)]
  refine ⟨{ merged with bitPos := 40 }, ?_, rfl, hcoll, huid⟩
  rw [← hfound]
  exact searchLevels_ends (anticolRounds_one_round hopen hround hmerge) hx hsak

end Sys2Proof.Machine
